-- ==== Sys2Proof/Word.lean ====
section
/-! DEFINITION. Word.lean: the word types of the host bus and the wire (00_scope.md R9). -/

namespace Sys2Proof

/-- A byte: the host data width and the unit of the wire (00_scope.md R7, R9). -/
abbrev Byte := BitVec 8

/-- A host byte address, `bus_addr[11:0]` (00_scope.md R7, 10_state.md R19). -/
abbrev HostAddr := BitVec 12

end Sys2Proof
end

