-- ==== Sys2Proof/Syntax.lean ====
section
/-! DEFINITION. Syntax.lean: the instructions (the rows of spec/opcode_table.json), the words that encode them
(30_encoding.md R59, R60) and what the host presents to the block in one step. -/

namespace Sys2Proof

/-- The instructions: the two host bus operations and the five commands (00_scope.md R2). Every operand is in the
range of its field by its type. -/
inductive Instr where
  /-- `BUS_RD a` (40_host_bus.md R73). -/
  | busRd (a : HostAddr)
  /-- `BUS_WR a, d` (40_host_bus.md R74). -/
  | busWr (a : HostAddr) (d : Byte)
  /-- `XFER` (41_spi_transceiver.md R88). -/
  | xfer
  /-- `RDREG` (42_register_access.md R93). -/
  | rdreg
  /-- `WRREG` (42_register_access.md R95). -/
  | wrreg
  /-- `MOTION` (43_motion.md R100). -/
  | motion
  /-- `FRAME` (44_frame.md R105). -/
  | frame
  deriving DecidableEq, Repr

/-- The commands a `CMD8` byte names (30_encoding.md R60). -/
inductive Command where
  | xfer | rdreg | wrreg | motion | frame
  deriving DecidableEq, Repr

/-- One word of a host program. `busop24` records one host bus operation (R59); `cmd8` is the byte a host writes to
`CMD` (R60). -/
inductive HostWord where
  | busop24 (w : BitVec 24)
  | cmd8 (w : Byte)
  deriving DecidableEq, Repr

/-- The host-side input ports in one `clk` cycle (10_state.md R19). -/
structure PortCycle where
  /-- `rst_n`: false is reset (active low). -/
  rstN  : Bool
  /-- `bus_re`. -/
  re    : Bool
  /-- `bus_we`. -/
  we    : Bool
  /-- `bus_addr[11:0]`. -/
  addr  : HostAddr
  /-- `bus_wdata[7:0]`. -/
  wdata : Byte
  deriving DecidableEq, Repr

/-- What the host presents to the block in one step: an operation as a word, or the raw ports of one cycle
(a cycle without an access, a cycle in reset), or the loop `poll`, which stays the next item until it has read
`BUSY` = 0 (30_encoding.md R70). -/
inductive HostItem where
  | word (w : HostWord)
  | ports (p : PortCycle)
  | poll
  deriving DecidableEq, Repr

/-- Why a word is no instruction (R59, R61). -/
inductive DecodeError where
  /-- A `BUSOP24` word with `Z` ≠ 000 (R59). -/
  | busopZ
  /-- A `BUSOP24` read with `D` ≠ 0x00 (R59). -/
  | busopReadData
  /-- A `CMD8` byte other than 0x01-0x05 (R61). -/
  | illegalCommand
  deriving DecidableEq, Repr

end Sys2Proof
end

