-- ==== Sys2Proof/WellFormed.lean ====
section
/-! DEFINITION. WellFormed.lean: the checks on what the host presents: the words that are instructions
(30_encoding.md R59, R61) and the cycles the host may issue (40_host_bus.md R71, R78). An `Instr` needs no check of
its own: its operands are in range by their types. -/

namespace Sys2Proof

/-- A word that encodes an instruction: a `BUSOP24` word with `Z` = 000 that writes, or reads with `D` = 0x00 (R59);
a `CMD8` byte 0x01 to 0x05 (R60, R61). -/
def HostWord.wellFormed : HostWord → Bool
  | .busop24 w => w &&& 0x700000#24 == 0#24 && (w &&& 0x800000#24 != 0#24 || w &&& 0x0000FF#24 == 0#24)
  | .cmd8 w => decide (1 ≤ w.toNat ∧ w.toNat ≤ 5)

/-- A cycle a host may issue: not both strobes (R71, R78). -/
def PortCycle.wellFormed (p : PortCycle) : Bool := !(p.re && p.we)

/-- An item a host may present: any byte may be written to `CMD` (R61 says what an illegal one does), but a bus
operation is a valid `BUSOP24` word (R59) and a cycle has at most one strobe (R78). A `poll` is a read (R70). -/
def HostItem.wellFormed : HostItem → Bool
  | .word (.busop24 w) => (HostWord.busop24 w).wellFormed
  | .word (.cmd8 _) => true
  | .ports p => p.wellFormed
  | .poll => true

end Sys2Proof
end

