-- ==== Sys2Proof/Decode.lean ====
section
/-! DEFINITION. Decode.lean: the decoder, total on any word and rejecting by name (30_encoding.md R59-R61, R68), and
the encoder written from the same tables. -/

namespace Sys2Proof

/-- The table of `CMD8` (R60), which compares all eight bits; every other byte is illegal (R61). -/
def commandOf (b : Byte) : Option Command :=
  if b = 0x01#8 then some .xfer
  else if b = 0x02#8 then some .rdreg
  else if b = 0x03#8 then some .wrreg
  else if b = 0x04#8 then some .motion
  else if b = 0x05#8 then some .frame
  else none

/-- The `OP` byte of a command (R60). -/
def opByte : Command → Byte
  | .xfer => 0x01#8
  | .rdreg => 0x02#8
  | .wrreg => 0x03#8
  | .motion => 0x04#8
  | .frame => 0x05#8

/-- The instruction that stands for a command. -/
def commandInstr : Command → Instr
  | .xfer => .xfer
  | .rdreg => .rdreg
  | .wrreg => .wrreg
  | .motion => .motion
  | .frame => .frame

/-- Field `W` of a `BUSOP24` word, bit 23 (R59). -/
def busopW (w : BitVec 24) : Bool := w.getLsbD 23

/-- Field `Z` of a `BUSOP24` word, bits 22:20 (R59). -/
def busopZ (w : BitVec 24) : BitVec 3 := w.extractLsb' 20 3

/-- Field `A` of a `BUSOP24` word, bits 19:8 (R59). -/
def busopA (w : BitVec 24) : HostAddr := w.extractLsb' 8 12

/-- Field `D` of a `BUSOP24` word, bits 7:0 (R59). -/
def busopD (w : BitVec 24) : Byte := w.extractLsb' 0 8

/-- The decoder of a `BUSOP24` word (R59). -/
def decodeBusop (w : BitVec 24) : Except DecodeError Instr :=
  if busopZ w ≠ 0#3 then .error .busopZ
  else if busopW w then .ok (.busWr (busopA w) (busopD w))
  else if busopD w ≠ 0#8 then .error .busopReadData
  else .ok (.busRd (busopA w))

/-- The decoder of a `CMD8` byte (R60, R61). -/
def decodeCommand (b : Byte) : Except DecodeError Instr :=
  match commandOf b with
  | some c => .ok (commandInstr c)
  | none => .error .illegalCommand

/-- The decoder of a host word; the format is known from where the word stands (R68). -/
def decode : HostWord → Except DecodeError Instr
  | .busop24 w => decodeBusop w
  | .cmd8 b => decodeCommand b

/-- A `BUSOP24` word from its fields, `Z` = 000 (R59). -/
def busopWord (w : Bool) (a : HostAddr) (d : Byte) : BitVec 24 :=
  BitVec.ofBool w ++ 0#3 ++ a ++ d

/-- The encoder: the word of an instruction (R59, R60). -/
def encode : Instr → HostWord
  | .busRd a => .busop24 (busopWord false a 0#8)
  | .busWr a d => .busop24 (busopWord true a d)
  | .xfer => .cmd8 (opByte .xfer)
  | .rdreg => .cmd8 (opByte .rdreg)
  | .wrreg => .cmd8 (opByte .wrreg)
  | .motion => .cmd8 (opByte .motion)
  | .frame => .cmd8 (opByte .frame)

/-- The host word whose `nbits` bits are `w`, numbered as spec/opcode_table.json numbers them: 24 bits are a
`BUSOP24` word, 8 bits a `CMD8` byte; the table has no other width. -/
def tableWord (nbits w : Nat) : Option HostWord :=
  if nbits = 24 then some (.busop24 (BitVec.ofNat 24 w))
  else if nbits = 8 then some (.cmd8 (BitVec.ofNat 8 w))
  else none

/-- The instruction the decoder reads from a table word. -/
def decodeTableWord (nbits w : Nat) : Option Instr :=
  match tableWord nbits w with
  | none => none
  | some hw =>
    match decode hw with
    | .ok i => some i
    | .error _ => none

end Sys2Proof
end

