-- ==== Sys2Proof/Config.lean ====
section
/-! DEFINITION. Config.lean: the fixed parameters of this hardware, its OPEN parameters and the free values
(00_scope.md R7, R14; 10_state.md R32-R34; 92_eei_decisions.md D46). An OPEN parameter or a free value is an
opaque constant: nothing proves a value of it. -/

namespace Sys2Proof.Config

/-- `N_BUF`: size in bytes of `TXBUF` and of `RXBUF`, and the largest `LEN` (R7). -/
def nBuf : Nat := 256

/-- `FRAME_W`, the columns of a frame (R7). -/
def frameW : Nat := 30

/-- `FRAME_H`, the rows of a frame (R7). -/
def frameH : Nat := 30

/-- `N_PIX`, the pixels of a frame (R7). -/
def nPix : Nat := 900

/-- `PIX_MASK` (R7). -/
def pixMask : Byte := 0x3F#8

/-- `DUMMY`, the fill byte of a read (R7). -/
def dummy : Byte := 0xFF#8

/-- `WRITE_BIT` of an address byte (R7). -/
def writeBit : Byte := 0x80#8

/-- `MOTION_BURST`, the sensor address of a motion burst (R7). -/
def motionBurst : Byte := 0x50#8

/-- The bytes of a motion burst's payload (R7: "0x50, 4 bytes"). -/
def motionLen : Nat := 4

/-- `FRAME_CAPTURE`, the sensor address of the pixel stream (R7). -/
def frameCapture : Byte := 0x13#8

/-- `FRAME_ARM`, the data byte that arms a frame capture (R7). -/
def frameArm : Byte := 0x83#8

/-- `SETTLE_DEFAULT`, OPEN: the reset value of `SETTLE` (R7, 10_state.md R28; notes/assumptions/3.md). -/
opaque settleDefault : BitVec 24

/-- `F_CLK`, OPEN: the frequency of `clk` in Hz (R7; notes/assumptions/3.md). -/
opaque fClk : Nat

/-- `SCLK_MAX`, OPEN sensor parameter: the highest SCLK frequency (70_reset_and_hazards.md R128, D46). That it is a
whole number of Hz, the unit of `F_CLK`, is the model's choice (DESIGN CHOICE, notes/assumptions/3.md). -/
opaque sclkMax : Nat

/-- `SENSOR_MODE`, OPEN sensor parameter: the clock mode the sensor needs, numbered as in 41_spi_transceiver.md R83
(R128, D46). -/
opaque sensorMode : Nat

/-- `SENSOR_GAP`, OPEN sensor parameter: the inter-byte time the sensor needs (R128, D46). The spec gives no unit; that
it is a whole number of nanoseconds is the model's choice (DESIGN CHOICE, notes/assumptions/3.md). -/
opaque sensorGap : Nat

/-- `MOTION_PACE`, OPEN sensor parameter: the least time from a `MOTION`'s `DONE` to the next command (R131, D36,
"nominally 10 ms"). The spec gives no unit; that it is a whole number of nanoseconds is the model's choice
(DESIGN CHOICE, notes/assumptions/3.md). -/
opaque motionPace : Nat

/-- FREE VALUE: draw `k` of a `TXBUF`, `RXBUF` or `FRAME` byte that nothing has written since reset
(10_state.md R32-R34, 93_implementation_defined.md S1, S2; notes/assumptions/2.md). -/
opaque unwrittenByte : Nat → Byte

/-- FREE VALUE: the sensor's answer `k`, where the state lists no answer
(00_scope.md R14; notes/assumptions/1.md). -/
opaque sensorByte : Nat → Byte

end Sys2Proof.Config
end

