-- ==== Sys2Proof/Machine/Operands.lean ====
section
/-! DEFINITION. Machine/Operands.lean: the operand forms: byte lanes of the wide registers (20_memory.md R44), the
address byte (30_encoding.md R62, R63), the pixel mask (R65) and the delta conversion (43_motion.md R98). -/

namespace Sys2Proof.Machine

/-- Byte lane `i` of a register: lane 0 is bits 7:0 (20_memory.md R44). -/
def byteLane {n : Nat} (w : BitVec n) (i : Nat) : Byte := w.extractLsb' (8 * i) 8

/-- A register with byte lane `i` replaced and every other lane kept (40_host_bus.md R74). -/
def setByteLane {n : Nat} (w : BitVec n) (i : Nat) (d : Byte) : BitVec n :=
  (w &&& ~~~((0xFF#8).setWidth n <<< (8 * i))) ||| (d.setWidth n <<< (8 * i))

/-- `EncRead` (30_encoding.md R62): the address is sent unchanged. -/
def encRead (a : Byte) : Byte := a

/-- `EncWrite` (R62): the address with the write bit. -/
def encWrite (a : Byte) : Byte := a ||| Config.writeBit

/-- `DecAddr` (R63): the write flag and the sensor register address of an address byte. -/
def decAddr (b : Byte) : Bool × BitVec 7 := (b.getLsbD 7, b.extractLsb' 0 7)

/-- A pixel byte masked to its low 6 bits (30_encoding.md R65, 44_frame.md R106). -/
def pixel (b : Byte) : Byte := b &&& Config.pixMask

/-- `Delta`, the signed value of a raw delta byte: the −255 rule (43_motion.md R98, 90_conflicts.md C1). -/
def delta (v : Byte) : Int := if v.toNat < 128 then (v.toNat : Int) else (v.toNat : Int) - 255

/-- `Delta8`, the byte that stores `Delta` (R98). -/
def delta8 (v : Byte) : Byte := if v.getLsbD 7 then v + 1#8 else v

/-- The row of pixel `k` (20_memory.md R47). -/
def pixelRow (k : Nat) : Nat := k / Config.frameW

/-- The column of pixel `k` (R47). -/
def pixelColumn (k : Nat) : Nat := k % Config.frameW

/-- The read framing of `n` bytes from sensor address `a` (42_register_access.md R93). -/
def readFraming (a : Byte) (n : Nat) : List Byte := encRead a :: List.replicate n Config.dummy

/-- The write framing of `bs` to sensor address `a` (42_register_access.md R95). -/
def writeFraming (a : Byte) (bs : List Byte) : List Byte := encWrite a :: bs

/-- `n` address/fill pairs of a bulk frame read (44_frame.md R107). -/
def bulkFraming : Nat → List Byte
  | 0 => []
  | n + 1 => encRead Config.frameCapture :: Config.dummy :: bulkFraming n

/-- The masked odd-indexed responses of a bulk frame read (44_frame.md R107). -/
def bulkPixels : List Byte → List Byte
  | _ :: p :: rest => pixel p :: bulkPixels rest
  | _ => []

/-- The masked pixel of one single-pixel read: `in[1]` (44_frame.md R106). -/
def singlePixel (inn : List Byte) : Byte := pixel (inn.getD 1 0#8)

end Sys2Proof.Machine
end

