-- ==== Sys2Proof/Machine/State.lean ====
section
/-! DEFINITION. Machine/State.lean: the state of the block as the spec gives it (10_state.md), the host's and the
sensor's inputs to come, the event history (00_scope.md R13), the state after reset and the reasons a step stops. -/

namespace Sys2Proof.Machine

/-- The reasons a `CMD` write is rejected (60_exceptions.md R112): the `ERR_*` bits of `STATUS`. -/
inductive ErrKind where
  | busy | disabled | illegal | arg
  deriving DecidableEq, Repr

/-- The events of the history (00_scope.md R13). -/
inductive Event where
  /-- A host read of `a` that answered `v`. -/
  | busRd (a : HostAddr) (v : Byte)
  /-- A host write of `d` to `a`. -/
  | busWr (a : HostAddr) (d : Byte)
  /-- A `CMD` write accepted. -/
  | cmdAccept (c : Command)
  /-- A `CMD` write of `d` rejected. -/
  | cmdReject (d : Byte) (k : ErrKind)
  /-- A completed transaction. -/
  | txn (out inn : List Byte)
  /-- A transaction cut by an abort: the bytes begun and the answers completed so far. -/
  | txnAbort (out inn : List Byte)
  /-- A completed wait of `n` cycles between transactions. -/
  | wait (n : Nat)
  /-- A command's commit. -/
  | cmdDone (c : Command)
  /-- A command's abort. -/
  | cmdAbort (c : Command)
  deriving DecidableEq, Repr

/-- The transactions of a command (30_encoding.md R66): the only one of `XFER`, `RDREG`, `WRREG`, `MOTION`; the arm
and the reads of `FRAME`. In the bulk method the one read is `read 0`. -/
inductive Txn where
  | single
  | arm
  | read (k : Nat)
  deriving DecidableEq, Repr

/-- Where a transaction is on the wire (41_spi_transceiver.md R84, R85): the setup wait, the two half-periods of a
bit, the gap between two bytes, the hold wait, and the two half-periods of the minimum `NCS`-high time. -/
inductive Wire where
  | setup
  | bitFirst
  | bitSecond
  | gap
  | hold
  | highFirst
  | highSecond
  deriving DecidableEq, Repr

/-- The position of a running command (10_state.md R37). `start` is the cycle after its accept, before its first
transaction (60_exceptions.md R112). -/
inductive Phase where
  | start
  | txn (t : Txn) (w : Wire)
  | settle
  deriving DecidableEq, Repr

/-- `seq` (10_state.md R37). -/
inductive Seq where
  | idle
  | run (c : Command) (ph : Phase)
  deriving DecidableEq, Repr

/-- The shift engine (10_state.md R37) and the transaction it carries. Counters count down to 0. -/
structure Engine where
  /-- `tx_sr`: its bit 7 is the bit on MOSI. -/
  txSr      : Byte
  /-- `rx_sr`: bits are shifted in at bit 0. -/
  rxSr      : Byte
  /-- The bit counter, 7 down to 0: the `j` of 41_spi_transceiver.md R85. -/
  bitCnt    : Nat
  /-- The byte index within the transaction. -/
  byteIdx   : Nat
  /-- The half-period counter, `CLKDIV` down to 0. -/
  halfCnt   : Nat
  /-- The gap counter: cycles of a gap still to come after this one. -/
  gapCnt    : Nat
  /-- The settle counter: cycles of the settle still to come after this one. -/
  settleCnt : Nat
  /-- The bytes the transaction sends (for the events `Txn` and `TxnAbort`, 00_scope.md R13). -/
  out       : List Byte
  /-- The answers completed so far, in order. -/
  inn       : List Byte
  /-- The byte SENSOR drives on MISO while the current byte is clocked (00_scope.md R14). -/
  miso      : Byte
  deriving DecidableEq, Repr

/-- The idle values of the engine (notes/assumptions/11.md). -/
def Engine.idle : Engine :=
  { txSr := 0#8, rxSr := 0#8, bitCnt := 0, byteIdx := 0, halfCnt := 0, gapCnt := 0, settleCnt := 0,
    out := [], inn := [], miso := 0#8 }

/-- The seven motion result bytes (10_state.md R30), as registers and as the shadow `MOT_SH` (R37). -/
structure Motion where
  /-- `MOT_STATUS`. -/
  status : Byte
  /-- `MOT_RAWDX`. -/
  rawDx  : Byte
  /-- `MOT_RAWDY`. -/
  rawDy  : Byte
  /-- `MOT_SQUAL`. -/
  squal  : Byte
  /-- `MOT_DX`. -/
  dx     : Byte
  /-- `MOT_DY`. -/
  dy     : Byte
  /-- `MOT_FLAGS`. -/
  flags  : Byte
  deriving DecidableEq, Repr

/-- Every motion register at 0x00, their reset value (10_state.md R30). -/
def Motion.zero : Motion :=
  { status := 0#8, rawDx := 0#8, rawDy := 0#8, squal := 0#8, dx := 0#8, dy := 0#8, flags := 0#8 }

/-- The state of the block, the inputs to come and the history. -/
structure State where
  /-- `CTRL` (10_state.md R21). -/
  ctrl        : Byte
  /-- `STATUS` (R22). -/
  status      : Byte
  /-- `ADDR` (R24). -/
  addr        : Byte
  /-- `LEN` (R25). -/
  len         : BitVec 16
  /-- `CLKDIV` (R26). -/
  clkdiv      : BitVec 16
  /-- `GAP` (R27). -/
  gap         : BitVec 16
  /-- `SETTLE` (R28). -/
  settle      : BitVec 24
  /-- The motion result registers (R30). -/
  mot         : Motion
  /-- The bytes of `TXBUF`, `RXBUF` and `FRAME` written since reset, under their host addresses (R32-R34), in
  canonical form (`Memory.wf`). -/
  mem         : List Host.Cell
  /-- `seq` (R37). -/
  seq         : Seq
  /-- The shift engine (R37). -/
  eng         : Engine
  /-- `RX_SH` (R37): the bytes the running command has put there, from index 0. -/
  rxSh        : List Byte
  /-- `FRAME_SH` (R37): the cells the running command has put there, from index 0. -/
  frameSh     : List Byte
  /-- `MOT_SH` (R37). -/
  motSh       : Motion
  /-- The level of `NCS` (R19, R37). -/
  ncs         : Bool
  /-- The level of `SCLK`. -/
  sclk        : Bool
  /-- The level of `MOSI`. -/
  mosi        : Bool
  /-- `bus_rdata`: the value last driven (R19, 40_host_bus.md R71). -/
  busRdata    : Byte
  /-- What the host presents in the coming steps (MODEL's own: notes/assumptions/5.md). -/
  host        : List HostItem
  /-- The sensor's coming answers (MODEL's own: notes/assumptions/1.md). -/
  answers     : List Byte
  /-- The number of free sensor answers drawn (MODEL's own: notes/assumptions/4.md). -/
  sensorDraws : Nat
  /-- The number of unwritten-byte values drawn (MODEL's own: notes/assumptions/4.md). -/
  draws       : Nat
  /-- The event history, oldest first (00_scope.md R13). -/
  events      : List Event
  deriving DecidableEq, Repr

/-- The block right after reset (10_state.md R40, 70_reset_and_hazards.md R125), with no host program, no listed
sensor answer and no history. -/
def State.reset : State :=
  { ctrl := 0x00#8, status := 0x00#8, addr := 0x00#8, len := 0x0000#16, clkdiv := 0xFFFF#16, gap := 0x0000#16,
    settle := Config.settleDefault, mot := Motion.zero, mem := [], seq := .idle, eng := Engine.idle,
    rxSh := [], frameSh := [], motSh := Motion.zero, ncs := true, sclk := false, mosi := false,
    busRdata := 0x00#8, host := [], answers := [], sensorDraws := 0, draws := 0, events := [] }

/-- The block has no fault mechanism (60_exceptions.md R117, 93_implementation_defined.md: "`fault`: not used"), so
no step ends in one. -/
inductive Fault where
  deriving DecidableEq, Repr

/-- Why a step is refused. -/
inductive Refusal where
  /-- Raised by `exec` for an instruction that has no meaning yet; no arm raises it. Safe. -/
  | notModelled (mnemonic : String)
  /-- Raised by a step whose host item is a `BUSOP24` word that is no bus operation: "a transcript decoder refuses
  it by name and no step exists for it" (30_encoding.md R59). Safe. -/
  | invalidBusop (e : DecodeError)
  /-- Raised by a step whose host item has `bus_re` = `bus_we` = 1 (40_host_bus.md R71, R78,
  93_implementation_defined.md S3: `refuse`). Safe. -/
  | bothStrobes
  deriving DecidableEq, Repr

end Sys2Proof.Machine
end

