-- ==== Sys2Proof/Machine/Flags.lean ====
section
/-! DEFINITION. Machine/Flags.lean: the fields of `CTRL` (10_state.md R21) and `STATUS` (R22), what sets and clears
them (R36), and the flags of a motion sample (43_motion.md R99). -/

namespace Sys2Proof.Machine

/-- A register byte with bit `i` set. -/
def setBit (w : Byte) (i : Nat) : Byte := w ||| (1#8 <<< i)

/-- A register byte with bit `i` cleared. -/
def clearBit (w : Byte) (i : Nat) : Byte := w &&& ~~~(1#8 <<< i)

/-- `CTRL.EN`. -/
def State.en (s : State) : Bool := s.ctrl.getLsbD 0
/-- `CTRL.CPOL`: the idle level of SCLK. -/
def State.cpol (s : State) : Bool := s.ctrl.getLsbD 1
/-- `CTRL.CPHA`. -/
def State.cpha (s : State) : Bool := s.ctrl.getLsbD 2
/-- `CTRL.CS_MANUAL`. -/
def State.csManual (s : State) : Bool := s.ctrl.getLsbD 3
/-- `CTRL.CS_ASSERT`. -/
def State.csAssert (s : State) : Bool := s.ctrl.getLsbD 4
/-- `CTRL.FRAME_BULK`. -/
def State.frameBulk (s : State) : Bool := s.ctrl.getLsbD 5

/-- `STATUS.BUSY`. -/
def State.busy (s : State) : Bool := s.status.getLsbD 0
/-- `STATUS.DONE`. -/
def State.done (s : State) : Bool := s.status.getLsbD 1
/-- `STATUS.ABORTED`. -/
def State.aborted (s : State) : Bool := s.status.getLsbD 6

/-- The bit of `STATUS` of each `ERR_*` flag (10_state.md R22). -/
def errBit : ErrKind → Nat
  | .arg => 2
  | .illegal => 3
  | .busy => 4
  | .disabled => 5

/-- `CTRL` as a host write of `d` leaves it: bits 7:6 ignored (40_host_bus.md R75). -/
def ctrlWritten (d : Byte) : Byte := d &&& 0x3F#8

/-- `CTRL` as a host reads it: bits 7:6 are zero (40_host_bus.md R73). -/
def ctrlRead (c : Byte) : Byte := c &&& 0x3F#8

/-- `STATUS` as a host reads it: bit 7 is zero (R73). -/
def statusRead (st : Byte) : Byte := st &&& 0x7F#8

/-- `STATUS` after a host write of `d`: the W1C bits 6:1 written with 1 are cleared (40_host_bus.md R74). -/
def statusW1c (st d : Byte) : Byte := st &&& ~~~(d &&& 0x7E#8)

/-- `STATUS` at the accept of a command: `BUSY` set, `DONE` and `ABORTED` cleared (60_exceptions.md R112). -/
def statusAccept (st : Byte) : Byte := setBit (clearBit (clearBit st 1) 6) 0

/-- `STATUS` at a commit: `BUSY` cleared, `DONE` set (10_state.md R36). -/
def statusCommit (st : Byte) : Byte := setBit (clearBit st 0) 1

/-- `STATUS` at an abort: `BUSY` cleared, `ABORTED` set (40_host_bus.md R77). -/
def statusAbort (st : Byte) : Byte := setBit (clearBit st 0) 6

/-- `STATUS` at a rejected `CMD` write: exactly one `ERR_*` bit set (60_exceptions.md R112). -/
def statusReject (st : Byte) (k : ErrKind) : Byte := setBit st (errBit k)

/-- `OVF` of a status byte (43_motion.md R99). -/
def motionOvf (s : Byte) : Bool := s.getLsbD 4

/-- `MOTION` of a status byte (R99). -/
def motionMot (s : Byte) : Bool := s.getLsbD 7

/-- `VALID` of a status byte: motion and no overflow (R99, 90_conflicts.md C3). -/
def motionValid (s : Byte) : Bool := motionMot s && !motionOvf s

/-- `MOT_FLAGS` of a status byte: bit 2 `MOTION`, bit 1 `OVF`, bit 0 `VALID` (R99). -/
def motionFlags (s : Byte) : Byte :=
  0#5 ++ BitVec.ofBool (motionMot s) ++ BitVec.ofBool (motionOvf s) ++ BitVec.ofBool (motionValid s)

/-- The seven result bytes of a motion sample from its four payload bytes (43_motion.md R100). -/
def motionSample (st rdx rdy q : Byte) : Motion :=
  { status := st, rawDx := rdx, rawDy := rdy, squal := q, dx := delta8 rdx, dy := delta8 rdy,
    flags := motionFlags st }

/-- The sample of a motion burst's five answers: `in[0]` is the dummy byte and is discarded (R100). -/
def motionParse (inn : List Byte) : Motion :=
  motionSample (inn.getD 1 0#8) (inn.getD 2 0#8) (inn.getD 3 0#8) (inn.getD 4 0#8)

end Sys2Proof.Machine
end

