-- ==== Sys2Proof/Machine/Ops.lean ====
section
/-! DEFINITION. Machine/Ops.lean: the operations every meaning shares: the buffers in memory, the free values, the
pins at rest, accepting and rejecting a command (the block's only error mechanism), the abort and the commit. -/

namespace Sys2Proof.Machine

/-- Adds an event to the history (00_scope.md R13). -/
def record (e : Event) (s : State) : State := { s with events := s.events ++ [e] }

/-! ## The buffers -/

/-- The host address of `TXBUF[0]` (20_memory.md R42). -/
def txBase : Nat := 0x100
/-- The host address of `RXBUF[0]` (R42). -/
def rxBase : Nat := 0x200
/-- The host address of `FRAME[0]` (R42). -/
def frameBase : Nat := 0x400

/-- The host addresses memory may list: `TXBUF`, `RXBUF` and `FRAME` (R42). Every other address is a register or
reads as a constant. -/
def bufferAddr (a : Nat) : Bool :=
  decide ((txBase ≤ a ∧ a < txBase + Config.nBuf) ∨ (rxBase ≤ a ∧ a < rxBase + Config.nBuf) ∨
    (frameBase ≤ a ∧ a < frameBase + Config.nPix))

/-- The byte memory lists at an address: `none` where nothing has been written since reset. -/
def Memory.lookup : List Host.Cell → Nat → Option Byte
  | [], _ => none
  | c :: m, a => if c.1 = a then some c.2 else Memory.lookup m a

/-- The cells of consecutive bytes from an address. -/
def Memory.cells (base : Nat) : List Byte → List Host.Cell
  | [] => []
  | b :: bs => (base, b) :: Memory.cells (base + 1) bs

/-- Memory with the bytes `bs` written at consecutive addresses from `base`. -/
def Memory.writeBlock (m : List Host.Cell) (base : Nat) (bs : List Byte) : List Host.Cell :=
  m.filter (fun c => decide (c.1 < base)) ++ Memory.cells base bs ++
    m.filter (fun c => decide (base + bs.length ≤ c.1))

/-- The canonical form of memory: addresses strictly rising, each one a buffer's. A listed byte never equals what an
unlisted address reads as, because that is no fixed byte (`Memory.unlisted`). -/
def Memory.wf (m : List Host.Cell) : Bool :=
  decide (m.Pairwise (fun c d => c.1 < d.1)) && m.all (fun c => bufferAddr c.1)

/-- What an unlisted buffer address reads as: any value, drawn afresh at each draw `k` (10_state.md R32-R34,
93_implementation_defined.md S1, S2). -/
def Memory.unlisted (k : Nat) : Byte := Config.unwrittenByte k

/-- A host read of a buffer byte, with the draw it takes if nothing has been written there (40_host_bus.md R73). -/
def readBuffer (a : Nat) (s : State) : Byte × State :=
  match Memory.lookup s.mem a with
  | some b => (b, s)
  | none => (Memory.unlisted s.draws, { s with draws := s.draws + 1 })

/-- The byte `TXBUF` gives for transmission at address `a` and the next draw number (S2). -/
def txByte (m : List Host.Cell) (a k : Nat) : Byte × Nat :=
  match Memory.lookup m a with
  | some b => (b, k)
  | none => (Memory.unlisted k, k + 1)

/-- `n` consecutive bytes for transmission from address `a`, in order, and the next draw number. -/
def txBytes (m : List Host.Cell) (a : Nat) : Nat → Nat → List Byte × Nat
  | 0, k => ([], k)
  | n + 1, k =>
    let p := txByte m a k
    let q := txBytes m (a + 1) n p.2
    (p.1 :: q.1, q.2)

/-! ## The sensor -/

/-- The sensor's answer to byte `i` of the bytes still to be clocked: the listed one, else a free value
(00_scope.md R14). -/
def State.answer (s : State) (i : Nat) : Byte :=
  (s.answers[i]?).getD (Config.sensorByte (s.sensorDraws + (i - s.answers.length)))

/-- The sensor's next `m` answers, in order. -/
def State.answerList (s : State) (m : Nat) : List Byte := (List.range m).map s.answer

/-- The state with the next `m` answers taken. -/
def dropAnswers (m : Nat) (s : State) : State :=
  { s with answers := s.answers.drop m, sensorDraws := s.sensorDraws + (m - s.answers.length) }

/-! ## The operands of a command -/

/-- `n`, the count of `XFER`, `RDREG` and `WRREG` (30_encoding.md R67). -/
def State.count (s : State) : Nat := s.len.toNat

/-- `1 ≤ LEN ≤ 256` (60_exceptions.md R113). -/
def lenOk (s : State) : Bool := decide (1 ≤ s.count ∧ s.count ≤ Config.nBuf)

/-- `ArgsOk`, the argument check of each command (60_exceptions.md R113). -/
def argsOk (c : Command) (s : State) : Bool :=
  match c with
  | .xfer => lenOk s
  | .rdreg => lenOk s && !s.addr.getLsbD 7
  | .wrreg => lenOk s
  | .motion => true
  | .frame => true

/-! ## Pins -/

/-- The level of `NCS` when no transaction is on the wire (41_spi_transceiver.md R81). -/
def restNcs (s : State) : Bool :=
  if s.en then (if s.csManual then !s.csAssert else true) else true

/-- `UpdatePins()` (41_spi_transceiver.md R81). -/
def updatePins (s : State) : State := { s with sclk := s.cpol, mosi := false, ncs := restNcs s }

/-! ## Accepting and rejecting a command -/

/-- A rejected `CMD` write of `d`: one sticky error bit and nothing else, the `raise Error(K)` of 00_scope.md R10
(60_exceptions.md R112). Its only return is the host's W1C write (R117). -/
def rejectCommand (k : ErrKind) (d : Byte) (s : State) : State :=
  record (.cmdReject d k) { s with status := statusReject s.status k }

/-- An accepted command: `BUSY` set, `DONE` and `ABORTED` cleared, the sequencer at its first phase (R112). -/
def startCommand (c : Command) (s : State) : State :=
  record (.cmdAccept c) { s with status := statusAccept s.status, seq := .run c .start }

/-- The first reason that applies to reject a `CMD` write of `d`, or the command it starts (R112, R114). -/
def admission (d : Byte) (s : State) : Except ErrKind Command :=
  if s.busy then .error .busy
  else if !s.en then .error .disabled
  else
    match commandOf d with
    | none => .error .illegal
    | some c => if argsOk c s then .ok c else .error .arg

/-- `Accept(d)`, the effect of a host write of `d` to `CMD` (R112). -/
def accept (d : Byte) (s : State) : State :=
  match admission d s with
  | .error k => rejectCommand k d s
  | .ok c => startCommand c s

/-! ## Abort -/

/-- The bytes of the transaction begun so far (40_host_bus.md R77): none during the setup wait. -/
def begunBytes (w : Wire) (e : Engine) : List Byte :=
  match w with
  | .setup => []
  | .bitFirst => e.out.take (e.byteIdx + 1)
  | .bitSecond => e.out.take (e.byteIdx + 1)
  | .gap => e.out.take (e.byteIdx + 1)
  | .hold => e.out.take (e.byteIdx + 1)
  | .highFirst => e.out.take (e.byteIdx + 1)
  | .highSecond => e.out.take (e.byteIdx + 1)

/-- The events of cutting the running command short: `TxnAbort` if a transaction is on the wire, then `CmdAbort`
(40_host_bus.md R77), as the sequencer stands at the start of the cycle. What would end or begin at the edge of the cut
itself has neither ended nor begun (DESIGN CHOICE: R77 does not settle the tie, notes/assumptions/12.md). -/
def recordCut (s : State) : State :=
  match s.seq with
  | .idle => s
  | .run c .start => record (.cmdAbort c) s
  | .run c .settle => record (.cmdAbort c) s
  | .run c (.txn _ w) => record (.cmdAbort c) (record (.txnAbort (begunBytes w s.eng) s.eng.inn) s)

/-- The sequencer at rest: IDLE, the shift engine at its idle values, the shadow results discarded
(10_state.md R37, 40_host_bus.md R77). -/
def seqRest (s : State) : State :=
  { s with seq := .idle, eng := Engine.idle, rxSh := [], frameSh := [], motSh := Motion.zero }

/-- `Abort()` (40_host_bus.md R77). -/
def abort (s : State) : State :=
  let s := seqRest (recordCut s)
  { s with ctrl := clearBit s.ctrl 0, status := statusAbort s.status, ncs := true, sclk := s.cpol, mosi := false }

/-! ## Commit -/

/-- The results a command's commit makes host-visible (10_state.md R38; R88, R93, R95, R100, R105). -/
def publish (c : Command) (s : State) : State :=
  match c with
  | .xfer => { s with mem := Memory.writeBlock s.mem rxBase s.rxSh }
  | .rdreg => { s with mem := Memory.writeBlock s.mem rxBase s.rxSh }
  | .wrreg => s
  | .motion => { s with mot := s.motSh }
  | .frame => { s with mem := Memory.writeBlock s.mem frameBase s.frameSh }

/-- The atomic commit of a command: its results, `BUSY` cleared, `DONE` set, the sequencer at rest
(10_state.md R36-R38). -/
def commit (c : Command) (s : State) : State :=
  let s := publish c s
  record (.cmdDone c) (seqRest { s with status := statusCommit s.status })

end Sys2Proof.Machine
end

