-- ==== Sys2Proof/Machine/Wire.lean ====
section
/-! DEFINITION. Machine/Wire.lean: the shift engine, cycle by cycle (41_spi_transceiver.md R84-R86): the pins at each
edge of a bit, the bytes of a transaction and the waits around them. Each wait loads its counter with one less than
its cycles, so that the edge that finds 0 ends it. -/

namespace Sys2Proof.Machine

/-- `H`, the cycles of one SCLK half-period (10_state.md R26). -/
def State.halfPeriod (s : State) : Nat := s.clkdiv.toNat + 1

/-- The cycles of a gap between two bytes (41_spi_transceiver.md R86). -/
def State.gapCycles (s : State) : Nat := s.gap.toNat * s.halfPeriod

/-- Moves a running command to a place in its transaction, with the half-period counter reloaded (60_exceptions.md
R120: "each is reloaded at the start of the wait it times"). -/
def enterWire (c : Command) (t : Txn) (w : Wire) (s : State) : State :=
  { s with seq := .run c (.txn t w), eng := { s.eng with halfCnt := s.clkdiv.toNat } }

/-- The start of a bit (R85): MOSI takes the bit; with `CPHA` = 1 this is the leading edge. -/
def beginBit (s : State) : State :=
  { s with mosi := s.eng.txSr.getLsbD 7, sclk := if s.cpha then !s.cpol else s.sclk }

/-- The middle edge of a bit (R85): the leading edge with `CPHA` = 0, the trailing edge with `CPHA` = 1; MISO is
sampled, most significant bit first (20_memory.md R45). -/
def sampleBit (s : State) : State :=
  { s with
    sclk := if s.cpha then s.cpol else !s.cpol
    eng := { s.eng with rxSr := (s.eng.rxSr <<< 1) ||| (BitVec.ofBool (s.eng.miso.getLsbD s.eng.bitCnt)).setWidth 8 } }

/-- The end of a bit (R85): SCLK is back at its idle level and the next bit moves up. -/
def endBit (s : State) : State :=
  { s with sclk := s.cpol, eng := { s.eng with txSr := s.eng.txSr <<< 1 } }

/-- The start of `ShiftByte(out[i])` (R84, R85): the byte goes to `tx_sr`, the sensor's answer begins. -/
def beginByte (c : Command) (t : Txn) (i : Nat) (s : State) : State :=
  let e := { s.eng with
    txSr := s.eng.out.getD i 0#8, rxSr := 0#8, bitCnt := 7, byteIdx := i, miso := s.answer 0 }
  beginBit (enterWire c t .bitFirst { dropAnswers 1 s with eng := e })

/-- The answer of the byte that ends, kept (R84). -/
def keepAnswer (s : State) : State := { s with eng := { s.eng with inn := s.eng.inn ++ [s.eng.rxSr] } }

/-- The start of a gap between two bytes (41_spi_transceiver.md R86), of at least one cycle. -/
def enterGap (c : Command) (t : Txn) (s : State) : State :=
  { s with seq := .run c (.txn t .gap), eng := { s.eng with gapCnt := s.gapCycles - 1 } }

/-- The end of `ShiftByte` (R84): its answer is complete; the gap and the next byte follow, or the hold wait.
A gap of no cycles takes none (00_scope.md R10). -/
def endByte (c : Command) (t : Txn) (s : State) : State :=
  if s.eng.byteIdx + 1 < s.eng.out.length then
    if s.gapCycles = 0 then beginByte c t (s.eng.byteIdx + 1) (keepAnswer s)
    else enterGap c t (keepAnswer s)
  else enterWire c t .hold (keepAnswer s)

/-- `NCS` as the sequencer drives it: in manual mode it never changes it (41_spi_transceiver.md R82). -/
def driveNcs (level : Bool) (s : State) : State := { s with ncs := if s.csManual then s.ncs else level }

/-- The first transaction of a command (30_encoding.md R66). -/
def firstTxn : Command → Txn
  | .xfer => .single
  | .rdreg => .single
  | .wrreg => .single
  | .motion => .single
  | .frame => .arm

/-- The bytes a transaction sends (30_encoding.md R66), and the next draw number for unwritten `TXBUF` bytes. -/
def txnBytes (c : Command) (t : Txn) (s : State) : List Byte × Nat :=
  match c with
  | .xfer => txBytes s.mem txBase s.count s.draws
  | .rdreg => (readFraming s.addr s.count, s.draws)
  | .wrreg =>
    let p := txBytes s.mem txBase s.count s.draws
    (writeFraming s.addr p.1, p.2)
  | .motion => (readFraming Config.motionBurst Config.motionLen, s.draws)
  | .frame =>
    match t with
    | .read _ =>
      if s.frameBulk then (bulkFraming Config.nPix, s.draws) else (readFraming Config.frameCapture 1, s.draws)
    | .arm => (writeFraming Config.frameCapture [Config.frameArm], s.draws)
    | .single => (writeFraming Config.frameCapture [Config.frameArm], s.draws)

/-- The start of `SpiTxn(out)` (R84): `NCS` falls in automatic mode and the setup wait begins. -/
def beginTxn (c : Command) (t : Txn) (s : State) : State :=
  let p := txnBytes c t s
  enterWire c t .setup (driveNcs false { s with draws := p.2, eng := { Engine.idle with out := p.1 } })

/-- The end of the hold wait (R84): `NCS` rises in automatic mode, MOSI goes to 0, and the minimum `NCS`-high time
begins. -/
def releaseTxn (c : Command) (t : Txn) (s : State) : State :=
  enterWire c t .highFirst { driveNcs true s with mosi := false }

/-- The end of the settle wait (44_frame.md R105): the wait is recorded and the pixel reads begin. -/
def endSettle (c : Command) (s : State) : State := beginTxn c (.read 0) (record (.wait s.settle.toNat) s)

/-- The start of the settle wait (R105): `SETTLE` cycles; of no cycles it takes none (00_scope.md R10). -/
def beginSettle (c : Command) (s : State) : State :=
  if s.settle.toNat = 0 then endSettle c s
  else { s with seq := .run c .settle, eng := { s.eng with settleCnt := s.settle.toNat - 1 } }

/-- `FRAME_SH[k]` written with the pixel of single-pixel read `k`; the cells before it are kept (44_frame.md R106). -/
def keepPixel (k : Nat) (inn : List Byte) (s : State) : State :=
  { s with frameSh := s.frameSh.take k ++ [singlePixel inn] }

/-- What a command does with the answers of a completed transaction: the shadow results, then its commit or its next
wait or transaction (R88, R93, R95, R100, R105-R107). -/
def afterTxn (c : Command) (t : Txn) (inn : List Byte) (s : State) : State :=
  match c with
  | .xfer => commit .xfer { s with rxSh := inn }
  | .rdreg => commit .rdreg { s with rxSh := inn.drop 1 }
  | .wrreg => commit .wrreg s
  | .motion => commit .motion { s with motSh := motionParse inn }
  | .frame =>
    match t with
    | .read k =>
      if s.frameBulk then commit .frame { s with frameSh := bulkPixels inn }
      else
        if k + 1 < Config.nPix then beginTxn .frame (.read (k + 1)) (keepPixel k inn s)
        else commit .frame (keepPixel k inn s)
    | .arm => beginSettle .frame s
    | .single => beginSettle .frame s

/-- The end of `SpiTxn` (R84): `Txn(out, in)` is recorded and the command goes on. -/
def endTxn (c : Command) (t : Txn) (s : State) : State :=
  afterTxn c t s.eng.inn (record (.txn s.eng.out s.eng.inn) { s with eng := Engine.idle })

/-- The edge that ends a half-period wait. -/
def wireEdge (c : Command) (t : Txn) (w : Wire) (s : State) : State :=
  match w with
  | .setup => beginByte c t 0 s
  | .bitFirst => enterWire c t .bitSecond (sampleBit s)
  | .bitSecond =>
    let s := endBit s
    if s.eng.bitCnt = 0 then endByte c t s
    else beginBit (enterWire c t .bitFirst { s with eng := { s.eng with bitCnt := s.eng.bitCnt - 1 } })
  | .gap => beginByte c t (s.eng.byteIdx + 1) s
  | .hold => releaseTxn c t s
  | .highFirst => enterWire c t .highSecond s
  | .highSecond => endTxn c t s

/-- One `clk` edge of a transaction: its counter runs, or finds 0 and the wait ends. -/
def wireTick (c : Command) (t : Txn) (w : Wire) (s : State) : State :=
  match w with
  | .gap =>
    if s.eng.gapCnt = 0 then wireEdge c t .gap s
    else { s with eng := { s.eng with gapCnt := s.eng.gapCnt - 1 } }
  | w =>
    if s.eng.halfCnt = 0 then wireEdge c t w s
    else { s with eng := { s.eng with halfCnt := s.eng.halfCnt - 1 } }

/-- One `clk` edge of the sequencer (10_state.md R37): an accepted command's first transaction starts at the edge
after its accept (60_exceptions.md R112). -/
def tick (s : State) : State :=
  match s.seq with
  | .idle => s
  | .run c .start => beginTxn c (firstTxn c) s
  | .run c (.txn t w) => wireTick c t w s
  | .run c .settle =>
    if s.eng.settleCnt = 0 then endSettle c s
    else { s with eng := { s.eng with settleCnt := s.eng.settleCnt - 1 } }

/-- `k` edges of the sequencer with no host access. -/
def ticks : Nat → State → State
  | 0, s => s
  | k + 1, s => ticks k (tick s)

end Sys2Proof.Machine
end

