-- ==== Sys2Proof/Machine/Exchange.lean ====
section
/-! DEFINITION. Machine/Exchange.lean: `SpiTxn` at the value level (41_spi_transceiver.md R79): all answers at once,
the pins as the transaction leaves them (R84). -/

namespace Sys2Proof.Machine

/-- `SpiTxn(out)` (R79): `in[i]` is the answer to `out[i]`. Afterwards `NCS` is high in automatic mode and as before
in manual mode, SCLK is idle, MOSI is 0 and `Txn(out, in)` is recorded (R84). -/
def spiTxn (out : List Byte) (s : State) : List Byte × State :=
  let inn := s.answerList out.length
  let s := driveNcs true (dropAnswers out.length s)
  (inn, record (.txn out inn) { s with sclk := s.cpol, mosi := false, eng := Engine.idle })

/-- The bytes `TXBUF[0 .. LEN)` for transmission; an unwritten byte is any value (93_implementation_defined.md S2). -/
def txOperand (s : State) : List Byte × State :=
  let p := txBytes s.mem txBase s.count s.draws
  (p.1, { s with draws := p.2 })

end Sys2Proof.Machine
end

