-- ==== Sys2Proof/Machine/Bus.lean ====
section
/-! DEFINITION. Machine/Bus.lean: the host address map (20_memory.md R42), what a host read and a host write do at
each address (40_host_bus.md R73-R77), one `clk` cycle with a host access, and the meanings of `BUS_RD` and
`BUS_WR`. -/

namespace Sys2Proof.Machine

/-- The rows of the host address map (20_memory.md R42); a lane or an index says which byte. -/
inductive Region where
  | ctrl | status | cmd | addr
  | len (lane : Nat)
  | clkdiv (lane : Nat)
  | gap (lane : Nat)
  | settle (lane : Nat)
  | motion (i : Nat)
  | txbuf (i : Nat)
  | rxbuf (i : Nat)
  | frame (k : Nat)
  | reserved
  deriving DecidableEq, Repr

/-- The row of the map an address decodes to (R42). -/
def regionAt (a : Nat) : Region :=
  if a = 0x000 then .ctrl
  else if a = 0x001 then .status
  else if a = 0x002 then .cmd
  else if a = 0x003 then .addr
  else if a < 0x006 then .len (a - 0x004)
  else if a < 0x008 then .clkdiv (a - 0x006)
  else if a < 0x00A then .gap (a - 0x008)
  else if a < 0x00D then .settle (a - 0x00A)
  else if a < 0x010 then .reserved
  else if a < 0x017 then .motion (a - 0x010)
  else if a < 0x100 then .reserved
  else if a < 0x200 then .txbuf (a - 0x100)
  else if a < 0x300 then .rxbuf (a - 0x200)
  else if a < 0x400 then .reserved
  else if a < 0x784 then .frame (a - 0x400)
  else .reserved

/-- The host address of `CMD` (10_state.md R23). -/
def cmdAddr : HostAddr := 0x002#12

/-- The host address of `STATUS` (10_state.md R22). -/
def statusAddr : HostAddr := 0x001#12

/-- Motion result register `i`, at 0x010 + i (10_state.md R30). -/
def motionReg (m : Motion) (i : Nat) : Byte :=
  match i with
  | 0 => m.status
  | 1 => m.rawDx
  | 2 => m.rawDy
  | 3 => m.squal
  | 4 => m.dx
  | 5 => m.dy
  | _ => m.flags

/-- The value a host read answers at a row of the map (40_host_bus.md R73), and the state with the draw that an
unwritten buffer byte takes. -/
def regionRead (r : Region) (s : State) : Byte × State :=
  match r with
  | .ctrl => (ctrlRead s.ctrl, s)
  | .status => (statusRead s.status, s)
  | .cmd => (0x00#8, s)
  | .addr => (s.addr, s)
  | .len i => (byteLane s.len i, s)
  | .clkdiv i => (byteLane s.clkdiv i, s)
  | .gap i => (byteLane s.gap i, s)
  | .settle i => (byteLane s.settle i, s)
  | .motion i => (motionReg s.mot i, s)
  | .txbuf i => readBuffer (txBase + i) s
  | .rxbuf i => readBuffer (rxBase + i) s
  | .frame k => readBuffer (frameBase + k) s
  | .reserved => (0x00#8, s)

/-- The host access of `BUS_RD` (R73): `bus_rdata` takes the value, which is recorded. -/
def busRead (a : HostAddr) (s : State) : State :=
  let p := regionRead (regionAt a.toNat) s
  record (.busRd a p.1) { p.2 with busRdata := p.1 }

/-- `CtrlWrite(d)` (40_host_bus.md R75). -/
def ctrlWrite (d : Byte) (s : State) : State :=
  if s.busy then
    if d.getLsbD 0 then s else abort s
  else updatePins { s with ctrl := ctrlWritten d }

/-- Writes an operand register or a `TXBUF` byte only while `BUSY` = 0 (40_host_bus.md R76). -/
def storeIdle (f : State → State) (s : State) : State := if s.busy then s else f s

/-- What a host write of `d` does at a row of the map (40_host_bus.md R74). -/
def regionWrite (r : Region) (d : Byte) (s : State) : State :=
  match r with
  | .ctrl => ctrlWrite d s
  | .status => { s with status := statusW1c s.status d }
  | .cmd => accept d s
  | .addr => storeIdle (fun s => { s with addr := d }) s
  | .len i => storeIdle (fun s => { s with len := setByteLane s.len i d }) s
  | .clkdiv i => storeIdle (fun s => { s with clkdiv := setByteLane s.clkdiv i d }) s
  | .gap i => storeIdle (fun s => { s with gap := setByteLane s.gap i d }) s
  | .settle i => storeIdle (fun s => { s with settle := setByteLane s.settle i d }) s
  | .motion _ => s
  | .txbuf i => storeIdle (fun s => { s with mem := Memory.writeBlock s.mem (txBase + i) [d] }) s
  | .rxbuf _ => s
  | .frame _ => s
  | .reserved => s

/-- The host access of `BUS_WR` (R74): recorded, then done. -/
def busWrite (a : HostAddr) (d : Byte) (s : State) : State :=
  regionWrite (regionAt a.toNat) d (record (.busWr a d) s)

/-- One `clk` cycle with a host access: the access acts on the values at the start of the cycle, and the sequencer's
update comes at the same edge after it, so that a sequencer set wins over a host clear and an abort over a commit
(40_host_bus.md R71, R72). A command accepted in this cycle starts at the next edge (60_exceptions.md R112).
An abort leaves the sequencer no update at its own edge: a byte, gap, wait or transaction whose last cycle ends there is
cut unfinished. DESIGN CHOICE: R77 does not settle that tie (notes/assumptions/12.md). -/
def hostCycle (access : State → State) (s : State) : State :=
  match s.seq with
  | .idle => access s
  | .run _ _ => tick (access s)

/-- `BUS_RD a` (40_host_bus.md R73): one `clk` cycle. -/
def execBusRd (a : HostAddr) (s : State) : Host.Outcome State Fault Refusal := .next (hostCycle (busRead a) s)

/-- `BUS_WR a, d` (40_host_bus.md R74): one `clk` cycle. -/
def execBusWr (a : HostAddr) (d : Byte) (s : State) : Host.Outcome State Fault Refusal :=
  .next (hostCycle (busWrite a d) s)

/-- A command as one instruction: the host writes `d` to `CMD`, and if the command is accepted the sequencer runs it
to its commit with no host access (60_exceptions.md R112; notes/assumptions/6.md). A rejected write takes its cycle
and sets its error bit. -/
def commandRun (d : Byte) (body : State → State) (s : State) : State :=
  match admission d s with
  | .error _ => hostCycle (busWrite cmdAddr d) s
  | .ok _ => body (hostCycle (busWrite cmdAddr d) s)

end Sys2Proof.Machine
end

