-- ==== Sys2Proof/Machine/FrameCapture.lean ====
section
/-! DEFINITION. Machine/FrameCapture.lean: `FRAME`: arm, settle, read by one of two methods, and reassembly
(44_frame.md R105-R107). -/

namespace Sys2Proof.Machine

/-- `n` single-pixel reads from pixel `k` on, each pixel written to its cell of `FRAME_SH` (R106). -/
def frameSingle : Nat → Nat → State → State
  | 0, _, s => s
  | n + 1, k, s =>
    let q := spiTxn (readFraming Config.frameCapture 1) s
    frameSingle n (k + 1) (keepPixel k q.1 q.2)

/-- The bulk read of all pixels in one transaction (R107). -/
def frameBulkRead (s : State) : State :=
  let q := spiTxn (bulkFraming Config.nPix) s
  { q.2 with frameSh := bulkPixels q.1 }

/-- `FRAME` from its accept to its commit (R105). -/
def runFrame (s : State) : State :=
  let armed := (spiTxn (writeFraming Config.frameCapture [Config.frameArm]) s).2
  let settled := record (.wait armed.settle.toNat) armed
  commit .frame (if settled.frameBulk then frameBulkRead settled else frameSingle Config.nPix 0 settled)

/-- `FRAME` (R105). -/
def execFrame (s : State) : Host.Outcome State Fault Refusal := .next (commandRun (opByte .frame) runFrame s)

end Sys2Proof.Machine
end

