-- ==== Sys2Proof/Machine/MotionBurst.lean ====
section
/-! DEFINITION. Machine/MotionBurst.lean: `MOTION`, the motion-burst read and its decode (43_motion.md R100). -/

namespace Sys2Proof.Machine

/-- `MOTION` from its accept to its commit (R100). -/
def runMotion (s : State) : State :=
  let q := spiTxn (readFraming Config.motionBurst Config.motionLen) s
  commit .motion { q.2 with motSh := motionParse q.1 }

/-- `MOTION` (R100). -/
def execMotion (s : State) : Host.Outcome State Fault Refusal := .next (commandRun (opByte .motion) runMotion s)

end Sys2Proof.Machine
end

