-- ==== Sys2Proof/Machine/RegAccess.lean ====
section
/-! DEFINITION. Machine/RegAccess.lean: `RDREG` and `WRREG`, the framed accesses to a sensor register
(42_register_access.md R93, R95). -/

namespace Sys2Proof.Machine

/-- `RDREG` from its accept to its commit: the leading answer is stripped (R93). -/
def runRdreg (s : State) : State :=
  let q := spiTxn (readFraming s.addr s.count) s
  commit .rdreg { q.2 with rxSh := q.1.drop 1 }

/-- `RDREG` (R93). -/
def execRdreg (s : State) : Host.Outcome State Fault Refusal := .next (commandRun (opByte .rdreg) runRdreg s)

/-- `WRREG` from its accept to its commit: the answers are discarded (R95). -/
def runWrreg (s : State) : State :=
  let p := txOperand s
  let q := spiTxn (writeFraming s.addr p.1) p.2
  commit .wrreg q.2

/-- `WRREG` (R95). -/
def execWrreg (s : State) : Host.Outcome State Fault Refusal := .next (commandRun (opByte .wrreg) runWrreg s)

end Sys2Proof.Machine
end

