-- ==== Sys2Proof/Machine/Transfer.lean ====
section
/-! DEFINITION. Machine/Transfer.lean: `XFER`, the raw full-duplex exchange (41_spi_transceiver.md R88). -/

namespace Sys2Proof.Machine

/-- `XFER` from its accept to its commit (R88). -/
def runXfer (s : State) : State :=
  let p := txOperand s
  let q := spiTxn p.1 p.2
  commit .xfer { q.2 with rxSh := q.1 }

/-- `XFER` (R88). -/
def execXfer (s : State) : Host.Outcome State Fault Refusal := .next (commandRun (opByte .xfer) runXfer s)

end Sys2Proof.Machine
end

