-- ==== Sys2Proof/Machine/Dispatch.lean ====
section
/-! DEFINITION. Machine/Dispatch.lean: the meaning of every instruction. -/

namespace Sys2Proof.Machine

def exec (i : Instr) (s : State) : Host.Outcome State Fault Refusal :=
  match i with
  | .busRd a => Sys2Proof.Machine.execBusRd a s
  | .busWr a d => Sys2Proof.Machine.execBusWr a d s
  | .xfer => Sys2Proof.Machine.execXfer s
  | .rdreg => Sys2Proof.Machine.execRdreg s
  | .wrreg => Sys2Proof.Machine.execWrreg s
  | .motion => Sys2Proof.Machine.execMotion s
  | .frame => Sys2Proof.Machine.execFrame s

end Sys2Proof.Machine
end

