-- ==== Sys2Proof/Machine/Ports.lean ====
section
/-! DEFINITION. Machine/Ports.lean: what a host item does that is not an instruction: a cycle with no access, a cycle
in reset (70_reset_and_hazards.md R125), a cycle with both strobes (40_host_bus.md R71, R78), a word that decodes to
no instruction (30_encoding.md R59, R61); a pass of `poll` (R70); and where a step fetches. -/

namespace Sys2Proof.Machine

/-- A `clk` cycle with no host access. -/
def idleCycle (s : State) : State := hostCycle (fun s => s) s

/-- A `clk` edge with `rst_n` = 0 (70_reset_and_hazards.md R125, R126): every register and internal state at its
reset value, the buffers unspecified, a running command cut as by an abort, its sequencer with no update at this edge
(DESIGN CHOICE, as at an abort, notes/assumptions/12.md). The inputs to come, the free-value
counters and the history are not the block's and stay. -/
def resetEdge (s : State) : State :=
  let h := (recordCut s).events
  { State.reset with
    host := s.host, answers := s.answers, sensorDraws := s.sensorDraws, draws := s.draws, events := h }

/-- A host access while `rst_n` = 0: a read answers 0x00, a write has no effect (R125). It is recorded after the events
of the cut of the same cycle (DESIGN CHOICE: the spec gives them no order, notes/assumptions/9.md). -/
def resetAccess (p : PortCycle) (s : State) : State :=
  if p.re then record (.busRd p.addr 0x00#8) { s with busRdata := 0x00#8 }
  else if p.we then record (.busWr p.addr p.wdata) s
  else s

/-- One `clk` cycle as the ports give it (10_state.md R19, 40_host_bus.md R71). In a cycle in reset that cuts a command
and has a host access, `TxnAbort` and `CmdAbort` are recorded before that access: DESIGN CHOICE, the spec gives no order
(00_scope.md R13, 70_reset_and_hazards.md R125; notes/assumptions/9.md). -/
def portCycle (p : PortCycle) (s : State) : Host.Outcome State Fault Refusal :=
  if p.re && p.we then .refused .bothStrobes
  else if !p.rstN then .next (resetAccess p (resetEdge s))
  else if p.re then execBusRd p.addr s
  else if p.we then execBusWr p.addr p.wdata s
  else .next (idleCycle s)

/-- A word that decodes to no instruction: an illegal `CMD8` byte is still a host write to `CMD`, which sets its
error bit (30_encoding.md R61, 60_exceptions.md R112); a `BUSOP24` word that is no bus operation has no step (R59). -/
def rejectedWord (w : HostWord) (e : DecodeError) (s : State) : Host.Outcome State Fault Refusal :=
  match w with
  | .cmd8 d => .next (hostCycle (busWrite cmdAddr d) s)
  | .busop24 _ => .refused (.invalidBusop e)

/-- The state with a host item placed where the next step takes it. -/
def placeItem (h : HostItem) (s : State) : State := { s with host := h :: s.host }

/-- One pass of the loop `poll` (30_encoding.md R70): a read of `STATUS`; the loop goes on while bit 0 of the value read
is 1. -/
def pollCycle (s : State) : Host.Outcome State Fault Refusal :=
  let t := hostCycle (busRead statusAddr) s
  .next (if t.busRdata.getLsbD 0 then placeItem .poll t else t)

/-- The host item a step takes, and the state with it taken; `none` when the host has no operation left. -/
def fetch (s : State) : Option (HostItem × State) :=
  match s.host with
  | [] => none
  | h :: rest => some (h, { s with host := rest })

end Sys2Proof.Machine
end

