-- ==== Sys2Proof/Machine/Step.lean ====
section
/-! DEFINITION. Machine/Step.lean: one step: the next host item is fetched, decoded and run; with no item left the
block runs a cycle with no host access (notes/assumptions/5.md). -/

namespace Sys2Proof.Machine

/-- Runs one host item. -/
def runItem (h : HostItem) (s : State) : Host.Outcome State Fault Refusal :=
  match h with
  | .ports p => portCycle p s
  | .poll => pollCycle s
  | .word w =>
    match decode w with
    | .ok i => exec i s
    | .error e => rejectedWord w e s

/-- One step of the machine. -/
def step (s : State) : Host.Outcome State Fault Refusal :=
  match fetch s with
  | none => .next (idleCycle s)
  | some (h, s) => runItem h s

/-- `s` with the table word `w` of `nbits` bits placed where `step` fetches its next instruction. -/
def State.withFetchWord (s : State) (nbits w : Nat) : State :=
  match tableWord nbits w with
  | some hw => placeItem (.word hw) s
  | none => s

end Sys2Proof.Machine
end

