-- ==== Sys2Proof/Machine/Run.lean ====
section
/-! DEFINITION. Machine/Run.lean: a run under fuel (30_encoding.md R70) and where it ends (00_scope.md R15). -/

namespace Sys2Proof.Machine

/-- A run has ended: the host has no operation left and no command is pending (00_scope.md R15). -/
def runEnded (s : State) : Bool := s.host.isEmpty && !s.busy

/-- The state after at most `k` steps: fewer when the run has ended, none when a step does not go on. -/
def run : Nat → State → Option State
  | 0, s => some s
  | k + 1, s =>
    if runEnded s then some s
    else
      match step s with
      | .next t => run k t
      | .fault _ => none
      | .refused _ => none

end Sys2Proof.Machine
end

