-- ==== Sys2Proof/Machine/Script.lean ====
section
/-! DEFINITION. Machine/Script.lean: the host-script syntax (30_encoding.md R69) and its pseudo-operations (R70), as
lists of host items. -/

namespace Sys2Proof.Machine.Script

/-- `wr addr, data`: `0x800000 | addr << 8 | data` (R69). -/
def wr (a : HostAddr) (d : Byte) : HostItem :=
  .word (.busop24 (0x800000#24 ||| (a.setWidth 24 <<< 8) ||| d.setWidth 24))

/-- `rd addr`: `addr << 8` (R69). -/
def rd (a : HostAddr) : HostItem := .word (.busop24 (a.setWidth 24 <<< 8))

/-- `poll` (R70): the loop that reads `STATUS` until bit 0 of the value is 0. It has no bound of its own; its fuel is
that of the run it stands in (`Machine.run`). -/
def poll : HostItem := .poll

/-- `setlen n` (R70). -/
def setlen (n : BitVec 16) : List HostItem := [wr 0x004#12 (byteLane n 0), wr 0x005#12 (byteLane n 1)]

/-- `setdiv d` (R70). -/
def setdiv (d : BitVec 16) : List HostItem := [wr 0x006#12 (byteLane d 0), wr 0x007#12 (byteLane d 1)]

/-- `setgap g` (R70). -/
def setgap (g : BitVec 16) : List HostItem := [wr 0x008#12 (byteLane g 0), wr 0x009#12 (byteLane g 1)]

/-- `setsettle s` (R70). -/
def setsettle (s : BitVec 24) : List HostItem :=
  [wr 0x00A#12 (byteLane s 0), wr 0x00B#12 (byteLane s 1), wr 0x00C#12 (byteLane s 2)]

/-- `txb i, v` (R70). -/
def txb (i : Byte) (v : Byte) : HostItem := wr (0x100#12 + i.setWidth 12) v

/-- `clr` (R70): every W1C bit of `STATUS`. -/
def clr : HostItem := wr 0x001#12 0x7E#8

/-- `xfer n` (R70). -/
def xfer (n : BitVec 16) : List HostItem := setlen n ++ [wr cmdAddr (opByte .xfer), poll]

/-- `rdreg a, n` (R70). -/
def rdreg (a : Byte) (n : BitVec 16) : List HostItem :=
  [wr 0x003#12 a] ++ setlen n ++ [wr cmdAddr (opByte .rdreg), poll]

/-- `wrreg a, n` (R70). -/
def wrreg (a : Byte) (n : BitVec 16) : List HostItem :=
  [wr 0x003#12 a] ++ setlen n ++ [wr cmdAddr (opByte .wrreg), poll]

/-- `motion` (R70). -/
def motion : List HostItem := [wr cmdAddr (opByte .motion), poll]

/-- `frame` (R70). -/
def frame : List HostItem := [wr cmdAddr (opByte .frame), poll]

end Sys2Proof.Machine.Script
end

