-- ==== Sys2Proof/Machine/Timing.lean ====
section
/-! DEFINITION. Machine/Timing.lean: the durations the spec derives, in cycles of `clk` (41_spi_transceiver.md R87,
44_frame.md R111, 70_reset_and_hazards.md R137). No meaning depends on them. -/

namespace Sys2Proof.Machine

/-- `T(m)`, the cycles of a transaction of `m` bytes (R87). -/
def State.txnCycles (s : State) (m : Nat) : Nat :=
  s.halfPeriod * (1 + 16 * m + s.gap.toNat * (m - 1) + 1 + 2)

/-- The cycles of a command: `T` of R111 and R137, the sum of the waits of its rule. R111 counts it "from accept to
commit", read as from the `clk` edge at which the accepted command starts, which R112 of 60_exceptions.md puts one edge
after the edge of the `CMD` write (DEDUCED, notes/assumptions/8.md). -/
def State.commandCycles (s : State) (c : Command) : Nat :=
  match c with
  | .xfer => s.txnCycles s.count
  | .rdreg => s.txnCycles (s.count + 1)
  | .wrreg => s.txnCycles (s.count + 1)
  | .motion => s.txnCycles 5
  | .frame =>
    s.txnCycles 2 + s.settle.toNat +
      (if s.frameBulk then s.txnCycles (2 * Config.nPix) else Config.nPix * s.txnCycles 2)

end Sys2Proof.Machine
end

