-- ==== Sys2Proof/Safety.lean ====
section
/-! DEFINITION. Safety.lean: the terms claims use: what is unchanged between two states, what every reachable state
satisfies, what a host and an integrator owe the sensor (70_reset_and_hazards.md R128-R135) and which host items leave a
running command alone. -/

namespace Sys2Proof.Machine

/-! ## What is unchanged -/

/-- The configuration registers `CTRL`, `ADDR`, `LEN`, `CLKDIV`, `GAP`, `SETTLE` are unchanged. -/
def SameConfig (s t : State) : Prop :=
  t.ctrl = s.ctrl ∧ t.addr = s.addr ∧ t.len = s.len ∧ t.clkdiv = s.clkdiv ∧ t.gap = s.gap ∧ t.settle = s.settle

/-- Every byte of `TXBUF`, `RXBUF` and `FRAME` reads as before. -/
def SameBuffers (s t : State) : Prop := ∀ a, Memory.lookup t.mem a = Memory.lookup s.mem a

/-- Every buffer byte reads as before except the `n` bytes from `base`. -/
def SameBuffersExcept (base n : Nat) (s t : State) : Prop :=
  ∀ a, ¬(base ≤ a ∧ a < base + n) → Memory.lookup t.mem a = Memory.lookup s.mem a

/-- The pins are unchanged. -/
def SamePins (s t : State) : Prop := t.ncs = s.ncs ∧ t.sclk = s.sclk ∧ t.mosi = s.mosi

/-- The sequencer, the shift engine and the shadow results are unchanged. -/
def SameSequencer (s t : State) : Prop :=
  t.seq = s.seq ∧ t.eng = s.eng ∧ t.rxSh = s.rxSh ∧ t.frameSh = s.frameSh ∧ t.motSh = s.motSh

/-- The host's and the sensor's inputs to come are unchanged. -/
def SameInputs (s t : State) : Prop :=
  t.host = s.host ∧ t.answers = s.answers ∧ t.sensorDraws = s.sensorDraws

/-! ## The address map in claims -/

/-- Addresses that read as zero and ignore writes (20_memory.md R42). -/
def reservedAddr (a : Nat) : Prop :=
  (0x00D ≤ a ∧ a ≤ 0x00F) ∨ (0x017 ≤ a ∧ a ≤ 0x0FF) ∨ (0x300 ≤ a ∧ a ≤ 0x3FF) ∨ (0x784 ≤ a ∧ a ≤ 0xFFF)

/-- Addresses whose storage the host can only read (R42). -/
def readOnlyAddr (a : Nat) : Prop :=
  (0x010 ≤ a ∧ a ≤ 0x016) ∨ (0x200 ≤ a ∧ a ≤ 0x2FF) ∨ (0x400 ≤ a ∧ a ≤ 0x783)

/-! ## The invariant -/

/-- The transactions a command runs (30_encoding.md R66). -/
def txnLegal (c : Command) (t : Txn) (s : State) : Prop :=
  match t with
  | .single => c ≠ .frame
  | .arm => c = .frame
  | .read k => c = .frame ∧ if s.frameBulk then k = 0 else k < Config.nPix

/-- The bytes of a transaction (30_encoding.md R66). -/
def txnLength (c : Command) (t : Txn) (s : State) : Nat :=
  match c with
  | .xfer => s.count
  | .rdreg => s.count + 1
  | .wrreg => s.count + 1
  | .motion => 5
  | .frame =>
    match t with
    | .read _ => if s.frameBulk then 2 * Config.nPix else 2
    | .arm => 2
    | .single => 2

/-- The counters and lists of the shift engine at a place of a transaction (10_state.md R37). -/
def engineLegal (c : Command) (t : Txn) (w : Wire) (s : State) : Prop :=
  s.eng.out.length = txnLength c t s ∧ s.eng.bitCnt ≤ 7 ∧ s.eng.halfCnt ≤ s.clkdiv.toNat ∧
  match w with
  | .setup => s.eng.inn = []
  | .bitFirst => s.eng.byteIdx < s.eng.out.length ∧ s.eng.inn.length = s.eng.byteIdx
  | .bitSecond => s.eng.byteIdx < s.eng.out.length ∧ s.eng.inn.length = s.eng.byteIdx
  | .gap =>
    s.eng.byteIdx + 1 < s.eng.out.length ∧ s.eng.inn.length = s.eng.byteIdx + 1 ∧ s.eng.gapCnt < s.gapCycles
  | .hold => s.eng.inn.length = s.eng.out.length
  | .highFirst => s.eng.inn.length = s.eng.out.length
  | .highSecond => s.eng.inn.length = s.eng.out.length

/-- The phase of a running command, its counters and the cells of `FRAME_SH` so far (10_state.md R37). -/
def phaseLegal (c : Command) (ph : Phase) (s : State) : Prop :=
  match ph with
  | .start => s.frameSh = []
  | .settle => c = .frame ∧ s.eng.settleCnt < s.settle.toNat ∧ s.frameSh = []
  | .txn t w =>
    txnLegal c t s ∧ engineLegal c t w s ∧
      match t with
      | .read k => s.frameSh.length = k
      | .arm => s.frameSh = []
      | .single => s.frameSh = []

/-- The sequencer, the shift engine and the shadow results: at rest when IDLE; when running, a command whose
arguments are legal (10_state.md R39) in a legal phase. -/
def runLegal (s : State) : Prop :=
  match s.seq with
  | .idle => s.eng = Engine.idle ∧ s.rxSh = [] ∧ s.frameSh = [] ∧ s.motSh = Motion.zero
  | .run c ph =>
    argsOk c s = true ∧ s.rxSh = [] ∧ s.motSh = Motion.zero ∧ (∀ b ∈ s.frameSh, b.toNat ≤ 63) ∧ phaseLegal c ph s

/-- The level of SCLK at a place of a transaction (41_spi_transceiver.md R84, R85). -/
def wireSclk (w : Wire) (s : State) : Bool :=
  match w with
  | .setup => s.cpol
  | .bitFirst => if s.cpha then !s.cpol else s.cpol
  | .bitSecond => if s.cpha then s.cpol else !s.cpol
  | .gap => s.cpol
  | .hold => s.cpol
  | .highFirst => s.cpol
  | .highSecond => s.cpol

/-- The level of `NCS` at a place of a transaction (41_spi_transceiver.md R82, R84). -/
def wireNcs (w : Wire) (s : State) : Bool :=
  if s.csManual then !s.csAssert
  else
    match w with
    | .setup => false
    | .bitFirst => false
    | .bitSecond => false
    | .gap => false
    | .hold => false
    | .highFirst => true
    | .highSecond => true

/-- MOSI at a place of a transaction (41_spi_transceiver.md R84, R85): the bit of `tx_sr` while a byte is clocked, 0
before the first byte and after the hold wait, the last bit between bytes and in the hold wait. -/
def wireMosi (w : Wire) (s : State) : Prop :=
  match w with
  | .setup => s.mosi = false
  | .bitFirst => s.mosi = s.eng.txSr.getLsbD 7
  | .bitSecond => s.mosi = s.eng.txSr.getLsbD 7
  | .gap => True
  | .hold => True
  | .highFirst => s.mosi = false
  | .highSecond => s.mosi = false

/-- The pins: as `UpdatePins` leaves them when no transaction is on the wire (41_spi_transceiver.md R81), else as the
place of the transaction says. -/
def pinsLegal (s : State) : Prop :=
  match s.seq with
  | .run _ (.txn _ w) => s.sclk = wireSclk w s ∧ s.ncs = wireNcs w s ∧ wireMosi w s
  | .idle => s.sclk = s.cpol ∧ s.ncs = restNcs s ∧ s.mosi = false
  | .run _ .start => s.sclk = s.cpol ∧ s.ncs = restNcs s ∧ s.mosi = false
  | .run _ .settle => s.sclk = s.cpol ∧ s.ncs = restNcs s ∧ s.mosi = false

/-- What holds at reset and is kept by every step. -/
structure Inv (s : State) : Prop where
  /-- Memory is in canonical form. -/
  memWf : Memory.wf s.mem = true
  /-- Every `FRAME` cell is at most 63 (44_frame.md R109). -/
  frameCells : ∀ k b, k < Config.nPix → Memory.lookup s.mem (frameBase + k) = some b → b.toNat ≤ 63
  /-- `FRAME` is wholly unwritten or wholly written (10_state.md R34: "never partially updated"). -/
  frameWhole : (∀ k, k < Config.nPix → Memory.lookup s.mem (frameBase + k) = none) ∨
    (∀ k, k < Config.nPix → Memory.lookup s.mem (frameBase + k) ≠ none)
  /-- Bits 7:6 of `CTRL` are zero (10_state.md R21). -/
  ctrlReserved : ctrlRead s.ctrl = s.ctrl
  /-- Bit 7 of `STATUS` is zero (10_state.md R22). -/
  statusReserved : statusRead s.status = s.status
  /-- Bits 7:3 of `MOT_FLAGS` are zero (10_state.md R30). -/
  motReserved : s.mot.flags &&& 0xF8#8 = 0#8
  /-- "`STATUS.BUSY` = 1 exactly when `seq` ≠ `IDLE`" (10_state.md R37). -/
  busyIff : s.busy = true ↔ s.seq ≠ .idle
  /-- "`EN` = 0 and `BUSY` = 1 cannot hold together" (60_exceptions.md R114). -/
  busyEn : s.busy = true → s.en = true
  /-- The sequencer's internal state is legal. -/
  run : runLegal s
  /-- The pins are as the sequencer's place says. -/
  pins : pinsLegal s

/-! ## The host's and the integrator's duties -/

/-- Every item of the host's program is one the host may present (40_host_bus.md R78). -/
def hostInContract (s : State) : Prop := ∀ h ∈ s.host, h.wellFormed = true

/-- `ceil(1510e-6 × F_CLK)`, the least settle count the sensor needs (10_state.md R28, 70_reset_and_hazards.md R130). -/
def settleMin : Nat := (1510 * Config.fClk + 999999) / 1000000

/-- The integrator's duty on `SETTLE_DEFAULT` (00_scope.md R7). -/
def settleDefaultOk : Prop := settleMin ≤ Config.settleDefault.toNat

/-- The sensor duties that are conditions on the block's registers: `f_SCLK ≤ SCLK_MAX`, the sensor's clock mode, its
inter-byte time and its settle time (70_reset_and_hazards.md R128, R130). The block checks none of them. A gap lasts
`GAP × H` cycles of `clk` (41_spi_transceiver.md R86) and is compared with `SENSOR_GAP` in nanoseconds, the model's unit
(DESIGN CHOICE, notes/assumptions/3.md). -/
def sensorDuties (s : State) : Prop :=
  Config.fClk ≤ Config.sclkMax * (2 * s.halfPeriod) ∧
  2 * (if s.cpol then 1 else 0) + (if s.cpha then 1 else 0) = Config.sensorMode ∧
  Config.sensorGap * Config.fClk ≤ s.gapCycles * 1000000000 ∧ settleMin ≤ s.settle.toNat

/-- A `CTRL` write that keeps the host's duties of 70_reset_and_hazards.md R135: the clock mode changes only while `NCS`
is high, and `CS_ASSERT` = 1 is written only once the clock mode is set, never in the write that changes it. -/
def ctrlWriteSafe (d : Byte) (s : State) : Prop :=
  (d.getLsbD 1 = s.cpol ∧ d.getLsbD 2 = s.cpha) ∨ (s.ncs = true ∧ d.getLsbD 4 = false)

/-- A host item that leaves a running command to go on: one the host may present that neither writes `EN` = 0 to `CTRL`
(40_host_bus.md R77) nor resets the block (70_reset_and_hazards.md R125). -/
def keepsCommand (h : HostItem) : Bool :=
  h.wellFormed &&
  match h with
  | .word (.busop24 w) => !(busopW w && busopA w == 0x000#12 && !(busopD w).getLsbD 0)
  | .word (.cmd8 _) => true
  | .ports p => p.rstN && !(p.we && p.addr == 0x000#12 && !p.wdata.getLsbD 0)
  | .poll => true

/-! ## Observations (00_scope.md R13) -/

/-- Is the event one of the wire-level observation? -/
def Event.onWire : Event → Bool
  | .txn _ _ => true
  | .txnAbort _ _ => true
  | .busRd _ _ => false
  | .busWr _ _ => false
  | .cmdAccept _ => false
  | .cmdReject _ _ => false
  | .wait _ => false
  | .cmdDone _ => false
  | .cmdAbort _ => false

/-- The wire-level observation of a run: its `Txn` and `TxnAbort` events, in order. -/
def wireLog (s : State) : List Event := s.events.filter Event.onWire

/-- The value of a `BusRd` event. -/
def Event.readValue : Event → Option Byte
  | .busRd _ v => some v
  | .busWr _ _ => none
  | .cmdAccept _ => none
  | .cmdReject _ _ => none
  | .txn _ _ => none
  | .txnAbort _ _ => none
  | .wait _ => none
  | .cmdDone _ => none
  | .cmdAbort _ => none

/-- The host-level observation of a run: its `BusRd` values, in order. -/
def hostLog (s : State) : List Byte := s.events.filterMap Event.readValue

end Sys2Proof.Machine
end

