-- ==== Sys2Proof/Certificates/Slice0/Obligations.lean ====
section
/-! DEFINITION. Certificates/Slice0/Obligations.lean: the statements about the model, made from the spec's numbered
rules. -/

open Sys2Proof Sys2Proof.Machine

/-! ## Encodings -/

/-- Decoding the word of an instruction gives the instruction back, for every operand (30_encoding.md R59, R60). -/
def Obligations.DecodeOfEncodeIsTheInstruction : Prop :=
  ∀ i : Instr, decode (encode i) = .ok i

/-- The decoder accepts exactly the words R59 and R60 call valid, and each accepted word is the one its instruction
encodes to, so no two words mean the same (30_encoding.md R59-R61). -/
def Obligations.DecoderAcceptsExactlyTheValidWords : Prop :=
  (∀ w : HostWord, (∃ i, decode w = .ok i) ↔ w.wellFormed = true) ∧
  (∀ (w : HostWord) (i : Instr), decode w = .ok i → encode i = w)

/-- Words written out from the encodings decode to the instructions they stand for (30_encoding.md R59, R60;
95_test_vectors.md). -/
def Obligations.SampleWordsDecodeRight : Prop :=
  decode (.busop24 0b100000000000001000000100#24) = .ok (.busWr 0x002#12 0x04#8) ∧
  decode (.busop24 0b000001111000001100000000#24) = .ok (.busRd 0x783#12) ∧
  decode (.busop24 0b100100000000000000000000#24) = .error .busopZ ∧
  decode (.busop24 0b000000100000000000000001#24) = .error .busopReadData ∧
  decode (.cmd8 0b00000001#8) = .ok .xfer ∧ decode (.cmd8 0b00000010#8) = .ok .rdreg ∧
  decode (.cmd8 0b00000011#8) = .ok .wrreg ∧ decode (.cmd8 0b00000100#8) = .ok .motion ∧
  decode (.cmd8 0b00000101#8) = .ok .frame ∧ decode (.cmd8 0b00000000#8) = .error .illegalCommand

/-- The host-script lines `wr addr, data` and `rd addr` are the words that decode to `BUS_WR` and `BUS_RD` with those
operands (30_encoding.md R69). -/
def Obligations.ScriptLinesAreBusOperations : Prop :=
  (∀ (a : HostAddr) (d : Byte), ∃ w, Script.wr a d = .word w ∧ decode w = .ok (.busWr a d)) ∧
  (∀ a : HostAddr, ∃ w, Script.rd a = .word w ∧ decode w = .ok (.busRd a))

/-- The address byte: `EncRead` sends the address unchanged, `EncWrite` sets bit 7; `DecAddr` inverts both for an
address with bit 7 clear; `EncWrite` forgets bit 7 of its argument (30_encoding.md R63). -/
def Obligations.AddressByteDecodesBack : Prop :=
  (∀ a : Byte, a.getLsbD 7 = false →
    decAddr (encRead a) = (false, a.extractLsb' 0 7) ∧ decAddr (encWrite a) = (true, a.extractLsb' 0 7)) ∧
  (∀ a : Byte, a.getLsbD 7 = true → encWrite a = encWrite (a &&& 0x7F#8)) ∧
  (∀ b : Byte, decAddr b = (b.getLsbD 7, b.extractLsb' 0 7))

/-! ## The step -/

/-- When the word at the head of the host's program decodes to an instruction, a step is that instruction run on the
state with the word taken. -/
def Obligations.StepRunsTheDecodedInstruction : Prop :=
  ∀ (s : State) (w : HostWord) (rest : List HostItem) (i : Instr),
    s.host = .word w :: rest → decode w = .ok i → step s = exec i { s with host := rest }

/-- The other steps: with no item left a cycle without access; an illegal `CMD8` byte is a host write of it to `CMD`;
a word that is no bus operation and a cycle with both strobes are refused by name (30_encoding.md R59, R61;
40_host_bus.md R71, R78). -/
def Obligations.StepWithoutAnInstruction : Prop :=
  (∀ s : State, s.host = [] → step s = .next (idleCycle s)) ∧
  (∀ (s : State) (d : Byte) (rest : List HostItem), s.host = .word (.cmd8 d) :: rest → ¬(1 ≤ d.toNat ∧ d.toNat ≤ 5) →
    step s = exec (.busWr 0x002#12 d) { s with host := rest }) ∧
  (∀ (s : State) (w : BitVec 24) (rest : List HostItem), s.host = .word (.busop24 w) :: rest →
    (HostWord.busop24 w).wellFormed = false → ∃ e, step s = .refused (.invalidBusop e)) ∧
  (∀ (s : State) (p : PortCycle) (rest : List HostItem), s.host = .ports p :: rest → p.re = true → p.we = true →
    step s = .refused .bothStrobes)

/-- A raw port cycle out of reset is the host operation its strobes name, or a cycle without access
(10_state.md R19, 40_host_bus.md R71). -/
def Obligations.PortCycleIsTheBusOperation : Prop :=
  ∀ (s : State) (a : HostAddr) (d : Byte) (rest : List HostItem),
    (s.host = .ports ⟨true, true, false, a, d⟩ :: rest → step s = exec (.busRd a) { s with host := rest }) ∧
    (s.host = .ports ⟨true, false, true, a, d⟩ :: rest → step s = exec (.busWr a d) { s with host := rest }) ∧
    (s.host = .ports ⟨true, false, false, a, d⟩ :: rest → step s = .next (idleCycle { s with host := rest }))

/-- A host that keeps its contract never stops the machine: no address faults, no command traps, in any state
(20_memory.md R42, 60_exceptions.md R117). -/
def Obligations.EveryContractStepGoesOn : Prop :=
  ∀ s : State, (∀ h, s.host.head? = some h → h.wellFormed = true) → ∃ t, step s = .next t

/-! ## Host reads -/

/-- `BUS_RD a` answers the value of the map at `a`, whether or not a command runs: each register, the byte listed in a
buffer, a free value for a buffer byte that nothing has written, 0x00 elsewhere (40_host_bus.md R73). -/
def Obligations.BusRdAnswersTheMapValue : Prop :=
  ∀ (s : State) (a : HostAddr), ∃ t, exec (.busRd a) s = .next t ∧
    (a = 0x000#12 → t.busRdata = s.ctrl &&& 0x3F#8) ∧
    (a = 0x001#12 → t.busRdata = s.status &&& 0x7F#8) ∧
    (a = 0x002#12 → t.busRdata = 0x00#8) ∧
    (a = 0x003#12 → t.busRdata = s.addr) ∧
    (a = 0x004#12 → t.busRdata = s.len.extractLsb' 0 8) ∧
    (a = 0x005#12 → t.busRdata = s.len.extractLsb' 8 8) ∧
    (a = 0x006#12 → t.busRdata = s.clkdiv.extractLsb' 0 8) ∧
    (a = 0x007#12 → t.busRdata = s.clkdiv.extractLsb' 8 8) ∧
    (a = 0x008#12 → t.busRdata = s.gap.extractLsb' 0 8) ∧
    (a = 0x009#12 → t.busRdata = s.gap.extractLsb' 8 8) ∧
    (a = 0x00A#12 → t.busRdata = s.settle.extractLsb' 0 8) ∧
    (a = 0x00B#12 → t.busRdata = s.settle.extractLsb' 8 8) ∧
    (a = 0x00C#12 → t.busRdata = s.settle.extractLsb' 16 8) ∧
    (a = 0x010#12 → t.busRdata = s.mot.status) ∧
    (a = 0x011#12 → t.busRdata = s.mot.rawDx) ∧
    (a = 0x012#12 → t.busRdata = s.mot.rawDy) ∧
    (a = 0x013#12 → t.busRdata = s.mot.squal) ∧
    (a = 0x014#12 → t.busRdata = s.mot.dx) ∧
    (a = 0x015#12 → t.busRdata = s.mot.dy) ∧
    (a = 0x016#12 → t.busRdata = s.mot.flags) ∧
    ((0x100 ≤ a.toNat ∧ a.toNat ≤ 0x2FF) ∨ (0x400 ≤ a.toNat ∧ a.toNat ≤ 0x783) →
      t.busRdata = (Memory.lookup s.mem a.toNat).getD (Config.unwrittenByte s.draws)) ∧
    (reservedAddr a.toNat → t.busRdata = 0x00#8) ∧
    t.events.take (s.events.length + 1) = s.events ++ [.busRd a t.busRdata]

/-- A read has no side effect at any address: in any state `BUS_RD` is a cycle without access but for the read port, the
history and the draw it takes where it reads a byte that nothing has written (20_memory.md R50,
93_implementation_defined.md S1). -/
def Obligations.BusRdHasNoSideEffect : Prop :=
  ∀ (s : State) (a : HostAddr) (d : Nat),
    d = (if bufferAddr a.toNat = true ∧ Memory.lookup s.mem a.toNat = none then s.draws + 1 else s.draws) →
    ∃ t, exec (.busRd a) s = .next t ∧
      t = { idleCycle { s with draws := d } with
        busRdata := t.busRdata
        events := s.events ++ .busRd a t.busRdata :: (idleCycle { s with draws := d }).events.drop s.events.length }

/-! ## Host writes -/

/-- `BUS_WR` to an operand register with no command running stores the byte in its lane, little-endian, and changes
nothing else (40_host_bus.md R74, 20_memory.md R44). -/
def Obligations.BusWrStoresOperandRegisters : Prop :=
  ∀ (s : State) (d : Byte), s.seq = .idle → s.busy = false →
    exec (.busWr 0x003#12 d) s = .next { s with addr := d, events := s.events ++ [.busWr 0x003#12 d] } ∧
    exec (.busWr 0x004#12 d) s =
      .next { s with len := s.len.extractLsb' 8 8 ++ d, events := s.events ++ [.busWr 0x004#12 d] } ∧
    exec (.busWr 0x005#12 d) s =
      .next { s with len := d ++ s.len.extractLsb' 0 8, events := s.events ++ [.busWr 0x005#12 d] } ∧
    exec (.busWr 0x006#12 d) s =
      .next { s with clkdiv := s.clkdiv.extractLsb' 8 8 ++ d, events := s.events ++ [.busWr 0x006#12 d] } ∧
    exec (.busWr 0x007#12 d) s =
      .next { s with clkdiv := d ++ s.clkdiv.extractLsb' 0 8, events := s.events ++ [.busWr 0x007#12 d] } ∧
    exec (.busWr 0x008#12 d) s =
      .next { s with gap := s.gap.extractLsb' 8 8 ++ d, events := s.events ++ [.busWr 0x008#12 d] } ∧
    exec (.busWr 0x009#12 d) s =
      .next { s with gap := d ++ s.gap.extractLsb' 0 8, events := s.events ++ [.busWr 0x009#12 d] } ∧
    exec (.busWr 0x00A#12 d) s =
      .next { s with settle := s.settle.extractLsb' 8 16 ++ d, events := s.events ++ [.busWr 0x00A#12 d] } ∧
    exec (.busWr 0x00B#12 d) s =
      .next { s with
        settle := s.settle.extractLsb' 16 8 ++ d ++ s.settle.extractLsb' 0 8
        events := s.events ++ [.busWr 0x00B#12 d] } ∧
    exec (.busWr 0x00C#12 d) s =
      .next { s with settle := d ++ s.settle.extractLsb' 0 16, events := s.events ++ [.busWr 0x00C#12 d] }

/-- `BUS_WR` to `TXBUF` with no command running stores the byte there; every other buffer byte reads as before and
nothing else changes (40_host_bus.md R74, 10_state.md R32). -/
def Obligations.BusWrStoresTxbufBytes : Prop :=
  ∀ (s : State) (a : HostAddr) (d : Byte), s.seq = .idle → s.busy = false → 0x100 ≤ a.toNat → a.toNat ≤ 0x1FF →
    ∃ t, exec (.busWr a d) s = .next t ∧ Memory.lookup t.mem a.toNat = some d ∧
      SameBuffersExcept a.toNat 1 s t ∧ t = { s with mem := t.mem, events := s.events ++ [.busWr a d] }

/-- While `BUSY` = 1, a host write to `ADDR`, `LEN`, `CLKDIV`, `GAP`, `SETTLE` or `TXBUF` is a cycle without access, but
for its place in the history; a write to `CTRL` has effect only through bit 0; writes to `STATUS` and `CMD` still act
(40_host_bus.md R76). -/
def Obligations.BusWrIgnoredWhileBusy : Prop :=
  ∀ (s : State) (d : Byte), s.busy = true →
    (∀ a : HostAddr, (0x003 ≤ a.toNat ∧ a.toNat ≤ 0x00C) ∨ (0x100 ≤ a.toNat ∧ a.toNat ≤ 0x1FF) →
      exec (.busWr a d) s = .next (idleCycle { s with events := s.events ++ [.busWr a d] })) ∧
    (∀ d' : Byte, d.getLsbD 0 = d'.getLsbD 0 → ∃ t u, exec (.busWr 0x000#12 d) s = .next t ∧
      exec (.busWr 0x000#12 d') s = .next u ∧ u = { t with events := u.events }) ∧
    exec (.busWr 0x001#12 d) s =
      .next (idleCycle { s with
        status := s.status &&& ~~~(d &&& 0x7E#8), events := s.events ++ [.busWr 0x001#12 d] }) ∧
    exec (.busWr 0x002#12 d) s =
      .next (idleCycle { s with
        status := s.status ||| 0x10#8, events := s.events ++ [.busWr 0x002#12 d, .cmdReject d .busy] })

/-- A host write to a read-only or reserved address has no effect in any state: it is a cycle without access, but for
its place in the history (20_memory.md R42). -/
def Obligations.BusWrToReadOnlyOrReservedDropped : Prop :=
  ∀ (s : State) (a : HostAddr) (d : Byte), readOnlyAddr a.toNat ∨ reservedAddr a.toNat →
    exec (.busWr a d) s = .next (idleCycle { s with events := s.events ++ [.busWr a d] })

/-- A host write to `STATUS` with no command running clears each of bits 6:1 written with 1 and nothing else
(40_host_bus.md R74, 10_state.md R22). -/
def Obligations.StatusWriteClearsTheOnesWritten : Prop :=
  ∀ (s : State) (d : Byte), s.seq = .idle →
    exec (.busWr 0x001#12 d) s =
      .next { s with status := s.status &&& ~~~(d &&& 0x7E#8), events := s.events ++ [.busWr 0x001#12 d] }

/-- `CtrlWrite(d)`: with `BUSY` = 0 it stores bits 5:0 and sets the pins as `UpdatePins` says; with `BUSY` = 1 and
bit 0 = 1 it has no effect, and with bit 0 = 0 it is `Abort()`, whatever bits 5:1 are (40_host_bus.md R75). What the
abort does is `Obligations.AbortCutsTheCommand`. -/
def Obligations.CtrlWriteStoresOrAborts : Prop :=
  (∀ (s : State) (d : Byte), s.seq = .idle → s.busy = false →
    exec (.busWr 0x000#12 d) s =
      .next { s with
        ctrl := d &&& 0x3F#8, sclk := d.getLsbD 1, mosi := false
        ncs := if d.getLsbD 0 then (if d.getLsbD 3 then !d.getLsbD 4 else true) else true
        events := s.events ++ [.busWr 0x000#12 d] }) ∧
  (∀ (s : State) (d : Byte), s.busy = true → d.getLsbD 0 = true →
    exec (.busWr 0x000#12 d) s = .next (idleCycle { s with events := s.events ++ [.busWr 0x000#12 d] })) ∧
  (∀ (s : State) (d : Byte), s.busy = true → d.getLsbD 0 = false →
    exec (.busWr 0x000#12 d) s = .next (abort { s with events := s.events ++ [.busWr 0x000#12 d] }))

/-- `Abort()`: the transaction on the wire is cut with the bytes begun and the answers completed, the command ends
with `EN` = 0, `BUSY` = 0, `ABORTED` = 1 and the other bits of `STATUS` as they were, nothing is committed, and the
pins go to rest at the same edge (40_host_bus.md R77). That a transaction is on the wire from its setup wait to the end
of its `NCS`-high time, and a byte begun from its first bit on, is the model's reading, and that a byte or a transaction
whose last cycle ends at the abort's own edge is not completed is its choice (DEDUCED, DESIGN CHOICE,
notes/assumptions/12.md). -/
def Obligations.AbortCutsTheCommand : Prop :=
  ∀ (s : State) (c : Command) (ph : Phase) (d : Byte), s.seq = .run c ph → s.busy = true → d.getLsbD 0 = false →
    ∃ t, exec (.busWr 0x000#12 d) s = .next t ∧ t =
      { s with
        ctrl := s.ctrl &&& 0xFE#8, status := (s.status &&& 0xFE#8) ||| 0x40#8
        seq := .idle, eng := t.eng, rxSh := t.rxSh, frameSh := t.frameSh, motSh := t.motSh
        ncs := true, sclk := s.ctrl.getLsbD 1, mosi := false
        events := s.events ++ .busWr 0x000#12 d ::
          match ph with
          | .start => [.cmdAbort c]
          | .settle => [.cmdAbort c]
          | .txn _ w =>
            [.txnAbort (if w = .setup then [] else s.eng.out.take (s.eng.byteIdx + 1)) s.eng.inn, .cmdAbort c] }

/-- The two collisions at one edge: in the cycle in which a command commits, a W1C write of `STATUS` clears what it is
written to clear but `DONE` ends at 1, with the results committed, and a `CTRL` write of `EN` = 0 aborts with nothing
committed. They are the only two: a `CMD` write sets another bit, and any other write finds its register frozen
(40_host_bus.md R72). -/
def Obligations.CollisionsAtTheCommitEdge : Prop :=
  ∀ (s : State) (d : Byte), s.seq ≠ .idle → s.busy = true → (idleCycle s).seq = .idle →
    (∃ t, exec (.busWr 0x001#12 d) s = .next t ∧ t.seq = .idle ∧
      t.status = ((s.status &&& ~~~(d &&& 0x7E#8)) ||| 0x02#8) &&& 0xFE#8 ∧
      t.mem = (idleCycle s).mem ∧ t.mot = (idleCycle s).mot) ∧
    (d.getLsbD 0 = false → ∃ t, exec (.busWr 0x000#12 d) s = .next t ∧ t.seq = .idle ∧
      t.status = (s.status &&& 0xFE#8) ||| 0x40#8 ∧ t.mem = s.mem ∧ t.mot = s.mot) ∧
    (∃ t, exec (.busWr 0x002#12 d) s = .next t ∧ t.seq = .idle ∧
      t.status = ((s.status ||| 0x10#8) ||| 0x02#8) &&& 0xFE#8 ∧
      t.mem = (idleCycle s).mem ∧ t.mot = (idleCycle s).mot) ∧
    (∀ a : HostAddr, 0x003 ≤ a.toNat →
      exec (.busWr a d) s = .next (idleCycle { s with events := s.events ++ [.busWr a d] }))

/-! ## Accepting a command -/

/-- A rejected `CMD` write sets exactly one `ERR_*` bit, the first that applies of `ERR_BUSY`, `ERR_DISABLED`,
`ERR_ILLEGAL`, `ERR_ARG`, and changes nothing else; a command in progress is not disturbed
(60_exceptions.md R112-R114). -/
def Obligations.RejectedCmdWriteSetsOneErrorBit : Prop :=
  ∀ (s : State) (d : Byte),
    (s.busy = true →
      exec (.busWr 0x002#12 d) s =
        .next (idleCycle { s with
          status := s.status ||| 0x10#8, events := s.events ++ [.busWr 0x002#12 d, .cmdReject d .busy] })) ∧
    (s.seq = .idle → s.busy = false → s.en = false →
      exec (.busWr 0x002#12 d) s =
        .next { s with
          status := s.status ||| 0x20#8, events := s.events ++ [.busWr 0x002#12 d, .cmdReject d .disabled] }) ∧
    (s.seq = .idle → s.busy = false → s.en = true → ¬(1 ≤ d.toNat ∧ d.toNat ≤ 5) →
      exec (.busWr 0x002#12 d) s =
        .next { s with
          status := s.status ||| 0x08#8, events := s.events ++ [.busWr 0x002#12 d, .cmdReject d .illegal] }) ∧
    (s.seq = .idle → s.busy = false → s.en = true →
      (((d = 0x01#8 ∨ d = 0x02#8 ∨ d = 0x03#8) ∧ ¬(1 ≤ s.len.toNat ∧ s.len.toNat ≤ 256)) ∨
        (d = 0x02#8 ∧ s.addr.getLsbD 7 = true)) →
      exec (.busWr 0x002#12 d) s =
        .next { s with
          status := s.status ||| 0x04#8, events := s.events ++ [.busWr 0x002#12 d, .cmdReject d .arg] })

/-- The conditions under which a command is accepted: `BUSY` = 0, `EN` = 1 and its arguments legal
(60_exceptions.md R112, R113), with the sequencer IDLE. -/
def CommandReady (c : Command) (s : State) : Prop :=
  s.seq = .idle ∧ s.busy = false ∧ s.en = true ∧
  match c with
  | .xfer => 1 ≤ s.len.toNat ∧ s.len.toNat ≤ 256
  | .rdreg => (1 ≤ s.len.toNat ∧ s.len.toNat ≤ 256) ∧ s.addr.getLsbD 7 = false
  | .wrreg => 1 ≤ s.len.toNat ∧ s.len.toNat ≤ 256
  | .motion => True
  | .frame => True

/-- An accepted `CMD` write sets `BUSY`, clears `DONE` and `ABORTED`, puts the sequencer at the command's first phase
and changes nothing else; its first transaction starts at the next edge, where `NCS` falls in automatic mode
(60_exceptions.md R112, R113; 41_spi_transceiver.md R84). -/
def Obligations.AcceptedCmdWriteStartsTheCommand : Prop :=
  ∀ (s : State) (c : Command), CommandReady c s →
    ∃ t x, exec (.busWr 0x002#12 (opByte c)) s = .next t ∧ t =
        { s with
          status := (s.status ||| 0x01#8) &&& 0xBD#8, seq := .run c .start
          events := s.events ++ [.busWr 0x002#12 (opByte c), .cmdAccept c] } ∧
      (idleCycle t).seq = .run c (.txn x .setup) ∧ (idleCycle t).ncs = (if s.csManual then s.ncs else false)

/-- A command that is not accepted has none of its effect: as an instruction it is the host write of its byte to
`CMD` (60_exceptions.md R112). -/
def Obligations.TurnedAwayCommandIsItsCmdWrite : Prop :=
  ∀ (s : State) (c : Command), s.seq = .idle ∨ s.busy = true → ¬CommandReady c s →
    exec (commandInstr c) s = exec (.busWr 0x002#12 (opByte c)) s

/-- The `ERR_*` bits are sticky: an instruction that answers a next state leaves each one that was 1 at 1, unless it
is a host write of 1 to that bit of `STATUS`, and so does a cycle without access (60_exceptions.md R116). -/
def Obligations.ErrorBitsAreSticky : Prop :=
  (∀ (i : Instr) (s t : State) (j : Nat), exec i s = .next t → 2 ≤ j → j ≤ 5 → s.status.getLsbD j = true →
    (∀ d, i = .busWr 0x001#12 d → d.getLsbD j = false) → t.status.getLsbD j = true) ∧
  (∀ (s : State) (j : Nat), 2 ≤ j → j ≤ 5 → s.status.getLsbD j = true → (idleCycle s).status.getLsbD j = true)

/-- What a running command takes its operands from is the same in both states: `CTRL` bits 5:1, `ADDR`, `LEN`,
`CLKDIV`, `GAP`, `SETTLE`, `TXBUF`. -/
def SameOperands (s t : State) : Prop :=
  (∀ j, 1 ≤ j → j ≤ 5 → t.ctrl.getLsbD j = s.ctrl.getLsbD j) ∧ t.addr = s.addr ∧ t.len = s.len ∧
  t.clkdiv = s.clkdiv ∧ t.gap = s.gap ∧ t.settle = s.settle ∧
  ∀ k, k < 256 → Memory.lookup t.mem (0x100 + k) = Memory.lookup s.mem (0x100 + k)

/-- `ABORTED` is sticky: an instruction that answers a next state leaves it at 1 if it was 1, unless it is a host
write of 1 to bit 6 of `STATUS` or a command that is accepted, and so does a cycle without access (60_exceptions.md R116).
That an accept clears it is 10_state.md R22 and R36 and 60_exceptions.md R112, against the words of R116 (DEDUCED,
notes/assumptions/13.md). -/
def Obligations.AbortedIsSticky : Prop :=
  (∀ (i : Instr) (s t : State), s.seq = .idle ∨ s.busy = true → exec i s = .next t → s.status.getLsbD 6 = true →
    (∀ d, i = .busWr 0x001#12 d → d.getLsbD 6 = false) →
    (∀ c, CommandReady c s → i ≠ commandInstr c ∧ i ≠ .busWr 0x002#12 (opByte c)) → t.status.getLsbD 6 = true) ∧
  (∀ s : State, s.status.getLsbD 6 = true → (idleCycle s).status.getLsbD 6 = true)

/-- While `BUSY` = 1, no host operation and no edge of the sequencer changes `CTRL` bits 5:1, `ADDR`, `LEN`,
`CLKDIV`, `GAP`, `SETTLE` or a byte of `TXBUF` (10_state.md R39). -/
def Obligations.OperandsFrozenWhileBusy : Prop :=
  (∀ (i : Instr) (s t : State), s.busy = true → exec i s = .next t → SameOperands s t) ∧
  (∀ s : State, s.busy = true → SameOperands s (idleCycle s))

/-! ## The commands -/

/-- What every completed command leaves, beside its own results: the configuration registers and the host's items as
before; `m` answers of the sensor taken (the model's list, notes/assumptions/1.md); `STATUS` with `BUSY` 0, `DONE` 1,
`ABORTED` 0 and the other bits as before; the sequencer IDLE; SCLK idle, MOSI 0, `NCS` high in automatic mode and as
before in manual mode (10_state.md R36; 41_spi_transceiver.md R82, R84). -/
def CommandLeaves (m : Nat) (s t : State) : Prop :=
  SameConfig s t ∧ t.host = s.host ∧
  t.answers = s.answers.drop m ∧ t.sensorDraws = s.sensorDraws + (m - s.answers.length) ∧
  t.status = (s.status ||| 0x02#8) &&& 0xBE#8 ∧
  t.seq = .idle ∧ t.sclk = s.cpol ∧ t.mosi = false ∧ t.ncs = (if s.csManual then s.ncs else true)

/-- The `n` bytes a command sends from `TXBUF`: those written are sent as written; one never written is any value
(41_spi_transceiver.md R88). -/
def SendsTxbuf (s : State) (n : Nat) (out : List Byte) : Prop :=
  out.length = n ∧ ∀ i b, i < n → Memory.lookup s.mem (0x100 + i) = some b → out[i]? = some b

/-- `XFER` accepted: one transaction of `TXBUF[0 .. n)`; `RXBUF[i]` is the answer to byte `i`; every other buffer
byte, the motion registers and the configuration are unchanged (41_spi_transceiver.md R88). -/
def Obligations.XferExchangesTxbufForRxbuf : Prop :=
  ∀ s : State, CommandReady .xfer s → ∃ t out, exec .xfer s = .next t ∧ SendsTxbuf s s.len.toNat out ∧
    t.events = s.events ++
      [.busWr 0x002#12 0x01#8, .cmdAccept .xfer, .txn out (s.answerList s.len.toNat), .cmdDone .xfer] ∧
    (∀ i, i < s.len.toNat → Memory.lookup t.mem (0x200 + i) = some (s.answer i)) ∧
    SameBuffersExcept 0x200 s.len.toNat s t ∧ t.mot = s.mot ∧ CommandLeaves s.len.toNat s t

/-- `RDREG` accepted: one transaction of the address byte unchanged and `n` fill bytes 0xFF; exactly one leading
answer is discarded and `RXBUF[i]` is the answer to byte `i` + 1; every other buffer byte, the motion registers and
the configuration are unchanged (42_register_access.md R93). -/
def Obligations.RdregStripsOneDummyByte : Prop :=
  ∀ s : State, CommandReady .rdreg s → ∃ t, exec .rdreg s = .next t ∧
    t.events = s.events ++
      [.busWr 0x002#12 0x02#8, .cmdAccept .rdreg,
        .txn (s.addr :: List.replicate s.len.toNat 0xFF#8) (s.answerList (s.len.toNat + 1)), .cmdDone .rdreg] ∧
    (∀ i, i < s.len.toNat → Memory.lookup t.mem (0x200 + i) = some (s.answer (i + 1))) ∧
    SameBuffersExcept 0x200 s.len.toNat s t ∧ t.mot = s.mot ∧ t.draws = s.draws ∧
    CommandLeaves (s.len.toNat + 1) s t

/-- An `XFER` of `a` and `n` fill bytes puts the same bytes on MOSI as `RDREG` of `a` and `n`; `XFER` keeps the dummy
byte in `RXBUF[0]` and `RDREG` strips it (41_spi_transceiver.md R89). -/
def Obligations.XferOfAReadFramingMatchesRdreg : Prop :=
  ∀ (s : State) (n : Nat), CommandReady .xfer s → s.len.toNat = n + 1 → 1 ≤ n → s.addr.getLsbD 7 = false →
    Memory.lookup s.mem 0x100 = some s.addr → (∀ i, 1 ≤ i → i ≤ n → Memory.lookup s.mem (0x100 + i) = some 0xFF#8) →
    ∃ t u inn, exec .xfer s = .next t ∧ exec .rdreg { s with len := BitVec.ofNat 16 n } = .next u ∧
      wireLog t = wireLog s ++ [.txn (s.addr :: List.replicate n 0xFF#8) inn] ∧ wireLog u = wireLog t ∧
      Memory.lookup t.mem 0x200 = inn[0]? ∧
      ∀ i, i < n → Memory.lookup u.mem (0x200 + i) = Memory.lookup t.mem (0x200 + (i + 1))

/-- `WRREG` accepted: one transaction of the address byte with bit 7 set and `TXBUF[0 .. n)` in order; no buffer byte
and no motion register changes (42_register_access.md R95). -/
def Obligations.WrregSendsTheWriteFraming : Prop :=
  ∀ s : State, CommandReady .wrreg s → ∃ t out, exec .wrreg s = .next t ∧ SendsTxbuf s s.len.toNat out ∧
    t.events = s.events ++
      [.busWr 0x002#12 0x03#8, .cmdAccept .wrreg,
        .txn ((s.addr ||| 0x80#8) :: out) (s.answerList (s.len.toNat + 1)), .cmdDone .wrreg] ∧
    SameBuffers s t ∧ t.mot = s.mot ∧ CommandLeaves (s.len.toNat + 1) s t

/-- `MOTION` accepted: one transaction of 0x50 and four fill bytes; all seven motion registers take the sample of
answers 1 to 4, whatever the flags; no buffer byte changes (43_motion.md R100, R101). -/
def Obligations.MotionCommitsAllSevenRegisters : Prop :=
  ∀ s : State, CommandReady .motion s → ∃ t, exec .motion s = .next t ∧
    t.events = s.events ++
      [.busWr 0x002#12 0x04#8, .cmdAccept .motion,
        .txn [0x50#8, 0xFF#8, 0xFF#8, 0xFF#8, 0xFF#8] (s.answerList 5), .cmdDone .motion] ∧
    t.mot.status = s.answer 1 ∧ t.mot.rawDx = s.answer 2 ∧ t.mot.rawDy = s.answer 3 ∧ t.mot.squal = s.answer 4 ∧
    t.mot.dx = (if (s.answer 2).getLsbD 7 then s.answer 2 + 1#8 else s.answer 2) ∧
    t.mot.dy = (if (s.answer 3).getLsbD 7 then s.answer 3 + 1#8 else s.answer 3) ∧
    t.mot.flags.getLsbD 0 = ((s.answer 1).getLsbD 7 && !(s.answer 1).getLsbD 4) ∧
    t.mot.flags.getLsbD 1 = (s.answer 1).getLsbD 4 ∧ t.mot.flags.getLsbD 2 = (s.answer 1).getLsbD 7 ∧
    t.mot.flags &&& 0xF8#8 = 0#8 ∧
    SameBuffers s t ∧ t.draws = s.draws ∧ CommandLeaves 5 s t

/-- `FRAME` accepted: the arm transaction, the settle wait, then 900 single-pixel transactions (`FRAME_BULK` = 0) or
one of 1800 bytes (`FRAME_BULK` = 1); `FRAME[k]` is the answer to the fill byte of pair `k` masked to 6 bits; every
other buffer byte and the motion registers are unchanged (44_frame.md R105-R107). That the settle wait, and no other,
has an event is the model's choice (DEDUCED, notes/assumptions/7.md). -/
def Obligations.FrameReassemblesAllPixels : Prop :=
  ∀ s : State, CommandReady .frame s → ∃ t, exec .frame s = .next t ∧
    t.events = s.events ++
      [.busWr 0x002#12 0x05#8, .cmdAccept .frame, .txn [0x93#8, 0x83#8] (s.answerList 2), .wait s.settle.toNat] ++
      (if s.frameBulk then
        [.txn (List.replicate 900 [0x13#8, 0xFF#8]).flatten ((List.range 1800).map fun i => s.answer (2 + i))]
      else (List.range 900).map fun k => .txn [0x13#8, 0xFF#8] [s.answer (2 * k + 2), s.answer (2 * k + 3)]) ++
      [.cmdDone .frame] ∧
    (∀ k, k < 900 → Memory.lookup t.mem (0x400 + k) = some (s.answer (2 * k + 3) &&& 0x3F#8)) ∧
    SameBuffersExcept 0x400 900 s t ∧ t.mot = s.mot ∧ t.draws = s.draws ∧ CommandLeaves 1802 s t

/-- The frame is row-major: after `FRAME`, the cell of row `r`, column `c` is at 0x400 + 30 `r` + `c` and holds the
pixel of that number in the stream (20_memory.md R47, 44_frame.md R110). -/
def Obligations.FrameIsRowMajor : Prop :=
  ∀ s : State, CommandReady .frame s → ∃ t, exec .frame s = .next t ∧
    ∀ r c, r < 30 → c < 30 → pixelRow (30 * r + c) = r ∧ pixelColumn (30 * r + c) = c ∧
      Memory.lookup t.mem (0x400 + (30 * r + c)) = some (s.answer (2 * (30 * r + c) + 3) &&& 0x3F#8)

/-- The two frame methods give the same frame for the same answers: in both, `FRAME[k]` is the answer to the fill byte
of pair `k` masked to 6 bits, and nothing else of what the host can read differs (44_frame.md R108). -/
def Obligations.FrameMethodsAgree : Prop :=
  ∀ s : State, CommandReady .frame s →
    ∃ t u, exec .frame { s with ctrl := s.ctrl &&& 0xDF#8 } = .next t ∧
      exec .frame { s with ctrl := s.ctrl ||| 0x20#8 } = .next u ∧
      (∀ k, k < 900 → Memory.lookup t.mem (0x400 + k) = some (s.answer (2 * k + 3) &&& 0x3F#8) ∧
        Memory.lookup u.mem (0x400 + k) = some (s.answer (2 * k + 3) &&& 0x3F#8)) ∧
      (∀ a, Memory.lookup t.mem a = Memory.lookup u.mem a) ∧ t.mot = u.mot ∧ t.status = u.status ∧
      t.answers = u.answers

/-- `MOTION` and `FRAME` ignore `ADDR` and `LEN` and do not change them: with no command running, the outcome is the
same but for those two registers, which keep their values (43_motion.md R100, 44_frame.md R105). -/
def Obligations.MotionAndFrameIgnoreAddrAndLen : Prop :=
  ∀ (s t : State) (a : Byte) (n : BitVec 16), s.seq = .idle →
    (exec .motion s = .next t → t.addr = s.addr ∧ t.len = s.len ∧
      exec .motion { s with addr := a, len := n } = .next { t with addr := a, len := n }) ∧
    (exec .frame s = .next t → t.addr = s.addr ∧ t.len = s.len ∧
      exec .frame { s with addr := a, len := n } = .next { t with addr := a, len := n })

/-- Dummy-byte stripping: after an accepted `RDREG`, `RXBUF[i]` is answer `i` + 1; and the dummy byte appears nowhere in
host-visible state: two runs of `RDREG`, or of `MOTION`, whose sensors differ only in the first answer end with the
same registers, flags and buffers (42_register_access.md R94, 43_motion.md R100). -/
def Obligations.DummyAnswerNeverReachesTheHost : Prop :=
  (∀ s : State, CommandReady .rdreg s → ∃ t inn, exec .rdreg s = .next t ∧
    wireLog t = wireLog s ++ [.txn (s.addr :: List.replicate s.len.toNat 0xFF#8) inn] ∧
    inn.length = s.len.toNat + 1 ∧
    ∀ i, i < s.len.toNat → Memory.lookup t.mem (0x200 + i) = inn[i + 1]?) ∧
  (∀ (s : State) (b b' : Byte) (rest : List Byte) (i : Instr), s.seq = .idle → i = .rdreg ∨ i = .motion →
    ∃ t u, exec i { s with answers := b :: rest } = .next t ∧ exec i { s with answers := b' :: rest } = .next u ∧
      SameConfig t u ∧ t.status = u.status ∧ t.mot = u.mot ∧ t.mem = u.mem ∧ t.busRdata = u.busRdata)

/-- The answers to `WRREG` are discarded: its outcome does not depend on them but in the history and in the answers
still to come (42_register_access.md R95). -/
def Obligations.WrregDiscardsTheAnswers : Prop :=
  ∀ (s : State) (as : List Byte) (k : Nat), s.seq = .idle →
    ∃ t u, exec .wrreg s = .next t ∧ exec .wrreg { s with answers := as, sensorDraws := k } = .next u ∧
      u = { t with answers := u.answers, sensorDraws := u.sensorDraws, events := u.events }

/-! ## Decoding a motion sample -/

/-- The delta conversion: the value of a raw byte is the byte below 128 and the byte less 255 from 128 on, within
−127..127, one more than its two's-complement value from 128 on; `Delta8` stores it as a two's-complement byte, that is
modulo 256 (43_motion.md R98). -/
def Obligations.DeltaIsTheMinus255Rule : Prop :=
  ∀ v : Byte, delta v = (if v.toNat < 128 then (v.toNat : Int) else (v.toNat : Int) - 255) ∧
    -127 ≤ delta v ∧ delta v ≤ 127 ∧ (128 ≤ v.toNat → delta v = v.toInt + 1) ∧
    ((delta8 v).toNat : Int) = delta v % 256 ∧ (delta8 v).toInt = delta v ∧
    delta8 v = (if v.getLsbD 7 then v + 1#8 else v)

/-- The flags of a motion sample, by the four cases of the status byte's bits 7 and 4 (43_motion.md R99). -/
def Obligations.MotionFlagsByTruthTable : Prop :=
  ∀ s : Byte, motionFlags s =
    match s.getLsbD 7, s.getLsbD 4 with
    | false, false => 0x00#8
    | false, true => 0x02#8
    | true, false => 0x05#8
    | true, true => 0x06#8

/-! ## The sequencer, cycle by cycle -/

/-- A command as one instruction is its `CMD` write followed by cycles of the sequencer without access: the commit
comes 1 + `T` cycles after the accept, with `T` the duration of 41_spi_transceiver.md R87, and the value-level meaning
is what the shift engine does edge by edge (41_spi_transceiver.md R79, R84-R86). That a `CMD8` word stands for the
whole command, and that the first transaction starts one edge after the accept, are the model's choices (DEDUCED,
notes/assumptions/6.md, 8.md). -/
def Obligations.CommandIsItsCyclesOnTheWire : Prop :=
  ∀ (s s₁ : State) (c : Command), CommandReady c s → c ≠ .frame → exec (.busWr 0x002#12 (opByte c)) s = .next s₁ →
    exec (commandInstr c) s = .next (ticks (1 + s.commandCycles c) s₁)

/-- The same for `FRAME`, by either method (44_frame.md R105-R107): the commit comes 1 + `T` cycles after the accept,
with `T` the sum of 44_frame.md R111. R111 counts `T` "from accept to commit"; that this is from the edge at which the
accepted command starts, one after the edge of the `CMD` write (60_exceptions.md R112), that a `CMD8` word stands for
the whole command, and that the settle wait has an event are the model's choices (DEDUCED, notes/assumptions/8.md, 6.md,
7.md). -/
def Obligations.FrameIsItsCyclesOnTheWire : Prop :=
  ∀ s s₁ : State, CommandReady .frame s → exec (.busWr 0x002#12 0x05#8) s = .next s₁ →
    exec .frame s = .next (ticks (1 + s.commandCycles .frame) s₁)

/-- Commit is atomic: from its accept to its commit or abort a command shows the host nothing of its results. Whatever
the host does in a cycle of a running command, and in a cycle without access, `RXBUF`, `FRAME` and the motion
registers are as before if the command still runs after it, and if the cycle aborts it; and each command still runs,
with `BUSY` = 1 and `DONE` = 0, `T` cycles after its accept (10_state.md R38, 41_spi_transceiver.md R87, 44_frame.md
R111). The one cycle before the first transaction is the model's choice (DEDUCED, notes/assumptions/8.md). -/
def Obligations.NothingVisibleBeforeTheCommit : Prop :=
  (∀ (i : Instr) (s t : State), s.seq ≠ .idle → s.busy = true → exec i s = .next t →
    (t.seq ≠ .idle ∨ ∃ d, i = .busWr 0x000#12 d ∧ d.getLsbD 0 = false) → t.mem = s.mem ∧ t.mot = s.mot) ∧
  (∀ s : State, (idleCycle s).seq ≠ .idle → (idleCycle s).mem = s.mem ∧ (idleCycle s).mot = s.mot) ∧
  (∀ (s s₁ : State) (c : Command) (k : Nat), CommandReady c s →
    exec (.busWr 0x002#12 (opByte c)) s = .next s₁ → k ≤ s.commandCycles c →
    (ticks k s₁).seq ≠ .idle ∧ (ticks k s₁).busy = true ∧ (ticks k s₁).done = false ∧
      (ticks k s₁).mem = s.mem ∧ (ticks k s₁).mot = s.mot)

/-- An edge of the sequencer changes what the host can read only at a commit: while the command goes on, every
register, flag and buffer byte is as before; and the edge that ends a command sets `DONE`, clears `BUSY` and leaves
the other bits of `STATUS` and the configuration registers (20_memory.md R51, 10_state.md R36). -/
def Obligations.SequencerShowsOnlyItsCommit : Prop :=
  ∀ s : State, s.seq ≠ .idle →
    ((idleCycle s).seq ≠ .idle →
      SameConfig s (idleCycle s) ∧ (idleCycle s).status = s.status ∧ (idleCycle s).mot = s.mot ∧
      (idleCycle s).mem = s.mem) ∧
    ((idleCycle s).seq = .idle →
      SameConfig s (idleCycle s) ∧ (idleCycle s).status = (s.status ||| 0x02#8) &&& 0xFE#8)

/-- Chip select, in every state that meets the invariant: in automatic mode `NCS` is low exactly while a transaction is
on the wire up to the end of its hold wait; in manual mode it stays at `~CS_ASSERT` while a command runs, and no edge of
the sequencer changes it (41_spi_transceiver.md R82, R84). -/
def Obligations.ChipSelectFollowsItsMode : Prop :=
  (∀ s : State, Inv s → s.csManual = false →
    (s.ncs = false ↔ ∃ c t w, s.seq = .run c (.txn t w) ∧ w ≠ .highFirst ∧ w ≠ .highSecond)) ∧
  (∀ s : State, Inv s → s.csManual = true → s.seq ≠ .idle → s.ncs = !s.csAssert) ∧
  (∀ s : State, s.csManual = true → (idleCycle s).ncs = s.ncs)

/-- `ShiftByte`, edge by edge, in all four clock modes, for every byte `n` of a transaction: the first one after the
setup wait, a later one after the last cycle of its gap or back to back with the byte before it. Bit 7 is on MOSI for
the first `2 H` cycles, then bit 6, down to bit 0; in each bit SCLK is for `H` cycles at the level before the sampling
edge and for `H` cycles at the level after it; and the byte ends `16 H` cycles after it began with the sensor's byte
received, most significant bit first (41_spi_transceiver.md R85, R86, 20_memory.md R45). -/
def Obligations.ShiftByteMsbFirst : Prop :=
  ∀ (s : State) (c : Command) (t : Txn) (w : Wire) (n j i : Nat), s.seq = .run c (.txn t w) →
    (w = .setup ∧ n = 0 ∧ s.eng.halfCnt = 0 ∧ s.sclk = s.cpol) ∨
      (w = .gap ∧ n = s.eng.byteIdx + 1 ∧ s.eng.gapCnt = 0 ∧ s.sclk = s.cpol) ∨
      (w = .bitSecond ∧ n = s.eng.byteIdx + 1 ∧ n < s.eng.out.length ∧ s.eng.halfCnt = 0 ∧ s.eng.bitCnt = 0 ∧
        s.gap = 0x0000#16) →
    j < 8 → i < 2 * s.halfPeriod →
    (ticks 1 s).eng.byteIdx = n ∧
    (ticks (1 + 2 * s.halfPeriod * j + i) s).mosi = (s.eng.out.getD n 0#8).getLsbD (7 - j) ∧
    ((ticks (1 + 2 * s.halfPeriod * j + i) s).sclk =
      if i < s.halfPeriod then (if s.cpha then !s.cpol else s.cpol) else (if s.cpha then s.cpol else !s.cpol)) ∧
    (ticks (1 + 16 * s.halfPeriod) s).eng.inn = (ticks 1 s).eng.inn ++ [s.answer 0] ∧
    (w ≠ .bitSecond → (ticks 1 s).eng.inn = s.eng.inn) ∧
    (w = .bitSecond → (ticks 1 s).eng.inn = s.eng.inn ++ [s.eng.rxSr])

/-- A command that runs always reaches its commit unless aborted (or the block is reset): from any state that meets the
invariant, after finitely many cycles of the sequencer it is IDLE with `DONE` = 1; and whatever the host does in the
coming steps that neither aborts the command nor resets the block, the run comes in finitely many steps to the command's
commit, with `DONE` = 1, its event the last one, and no abort on the way (60_exceptions.md R117,
93_implementation_defined.md S9). -/
def Obligations.RunningCommandReachesItsCommit : Prop :=
  ∀ (s : State) (c : Command) (ph : Phase), Inv s → s.seq = .run c ph →
    (∃ k, (ticks k s).seq = .idle ∧ (ticks k s).done = true ∧ (ticks k s).aborted = s.aborted) ∧
    ((∀ h ∈ s.host, keepsCommand h = true) → ∃ k t, run k s = some t ∧ t.seq = .idle ∧ t.done = true ∧
      t.events.getLast? = some (.cmdDone c) ∧ (t.aborted = true → s.aborted = true) ∧
      ∀ j u, j < k → run j s = some u → ∃ ph', u.seq = .run c ph')

/-! ## Reset -/

/-- A `clk` edge with `rst_n` = 0 puts every register and internal state at the value of 10_state.md R40, in any state;
a running command is cut as by an abort and nothing is committed; every buffer byte is unspecified again; a host read
in that cycle answers 0x00 and a host write has no effect (70_reset_and_hazards.md R125, R126). That the history
records the cut and the access is the model's choice (notes/assumptions/9.md). -/
def Obligations.ResetEdgeGivesTheResetValues : Prop :=
  ∀ (s : State) (re we : Bool) (a : HostAddr) (d : Byte) (rest : List HostItem), ¬(re = true ∧ we = true) →
    s.host = .ports ⟨false, re, we, a, d⟩ :: rest → ∃ t, step s = .next t ∧
      t.ctrl = 0x00#8 ∧ t.status = 0x00#8 ∧ t.addr = 0x00#8 ∧ t.len = 0x0000#16 ∧ t.clkdiv = 0xFFFF#16 ∧
      t.gap = 0x0000#16 ∧ t.settle = Config.settleDefault ∧
      t.mot.status = 0x00#8 ∧ t.mot.rawDx = 0x00#8 ∧ t.mot.rawDy = 0x00#8 ∧ t.mot.squal = 0x00#8 ∧
      t.mot.dx = 0x00#8 ∧ t.mot.dy = 0x00#8 ∧ t.mot.flags = 0x00#8 ∧
      t.seq = .idle ∧ t.ncs = true ∧ t.sclk = false ∧ t.mosi = false ∧
      (∀ b, Memory.lookup t.mem b = none) ∧ (re = true → t.busRdata = 0x00#8) ∧ t.host = rest

/-- The state after reset (10_state.md R40). -/
def Obligations.ResetStateHasTheResetValues : Prop :=
  State.reset.ctrl = 0x00#8 ∧ State.reset.status = 0x00#8 ∧ State.reset.addr = 0x00#8 ∧
  State.reset.len = 0x0000#16 ∧ State.reset.clkdiv = 0xFFFF#16 ∧ State.reset.gap = 0x0000#16 ∧
  State.reset.settle = Config.settleDefault ∧
  State.reset.mot.status = 0x00#8 ∧ State.reset.mot.rawDx = 0x00#8 ∧ State.reset.mot.rawDy = 0x00#8 ∧
  State.reset.mot.squal = 0x00#8 ∧ State.reset.mot.dx = 0x00#8 ∧ State.reset.mot.dy = 0x00#8 ∧
  State.reset.mot.flags = 0x00#8 ∧ (∀ a, Memory.lookup State.reset.mem a = none) ∧
  State.reset.seq = .idle ∧ State.reset.ncs = true ∧ State.reset.sclk = false ∧ State.reset.mosi = false

/-! ## The invariant -/

/-- The invariant holds after reset. -/
def Obligations.ResetMeetsTheInvariant : Prop := Inv State.reset

/-- Every step keeps the invariant: memory in canonical form, `FRAME` cells at most 63 and never partly written,
reserved bits zero, `BUSY` exactly when the sequencer runs and only with `EN` = 1, the sequencer in a legal phase with
its counters in range, the pins as that phase says (10_state.md R34, R37; 44_frame.md R109; 60_exceptions.md R114;
41_spi_transceiver.md R81, R82, R84, R85). -/
def Obligations.EveryStepKeepsTheInvariant : Prop :=
  ∀ s t : State, Inv s → step s = .next t → Inv t

/-! ## Further rules -/

/-- The loop `poll`: each step is a read of `STATUS`, and the loop stays the host's next item exactly while the value
read has bit 0 = 1 (30_encoding.md R70). That the loop is an item of the host's list is the model's form
(notes/assumptions/5.md). -/
def Obligations.PollReadsStatusUntilNotBusy : Prop :=
  ∀ (s : State) (rest : List HostItem), s.host = .poll :: rest →
    ∃ t, exec (.busRd 0x001#12) { s with host := rest } = .next t ∧ t.host = rest ∧
      t.busRdata.getLsbD 0 = s.busy ∧ step s = .next { t with host := if s.busy then .poll :: rest else rest }

/-- The gap: between two bytes of a transaction the sequencer waits `GAP × H` cycles with SCLK idle and `NCS` and MOSI
unchanged, then starts the next byte; with `GAP` = 0 the next byte follows back to back, and after the last byte there
is no gap but the hold wait (41_spi_transceiver.md R84, R86). -/
def Obligations.GapBetweenBytes : Prop :=
  ∀ (s : State) (c : Command) (t : Txn) (k : Nat), s.seq = .run c (.txn t .bitSecond) →
    s.eng.halfCnt = 0 → s.eng.bitCnt = 0 →
    (s.eng.byteIdx + 1 < s.eng.out.length → k < s.gap.toNat * s.halfPeriod →
      (ticks (1 + k) s).seq = .run c (.txn t .gap) ∧ (ticks (1 + k) s).sclk = s.cpol ∧
      (ticks (1 + k) s).ncs = s.ncs ∧ (ticks (1 + k) s).mosi = s.mosi) ∧
    (s.eng.byteIdx + 1 < s.eng.out.length →
      (ticks (1 + s.gap.toNat * s.halfPeriod) s).seq = .run c (.txn t .bitFirst) ∧
      (ticks (1 + s.gap.toNat * s.halfPeriod) s).eng.byteIdx = s.eng.byteIdx + 1) ∧
    (¬ s.eng.byteIdx + 1 < s.eng.out.length →
      (ticks 1 s).seq = .run c (.txn t .hold) ∧ (ticks 1 s).sclk = s.cpol ∧ (ticks 1 s).ncs = s.ncs)

/-- A `CTRL` write that keeps the host's duties gives the sensor no clock edge: where it moves SCLK with no command
running, `NCS` is high before and after it (70_reset_and_hazards.md R135). -/
def Obligations.SafeCtrlWriteGivesNoClockEdge : Prop :=
  ∀ (s : State) (d : Byte), Inv s → s.seq = .idle → ctrlWriteSafe d s →
    ∃ t, exec (.busWr 0x000#12 d) s = .next t ∧ t.sclk = d.getLsbD 1 ∧
      (t.sclk ≠ s.sclk → s.ncs = true ∧ t.ncs = true)

/-- A completed command leaves the shift engine and the shadow results at their idle values and the read port as it was.
Those idle values, and that the read port holds its value, are the model's choices (DESIGN CHOICE,
notes/assumptions/11.md, 10.md). -/
def Obligations.CommandLeavesTheEngineIdle : Prop :=
  ∀ (s : State) (c : Command), CommandReady c s → ∃ t, exec (commandInstr c) s = .next t ∧
    t.eng = Engine.idle ∧ t.rxSh = [] ∧ t.frameSh = [] ∧ t.motSh = Motion.zero ∧ t.busRdata = s.busRdata
end

