-- ==== Sys2Proof/Laws/Flags.lean ====
section
/-! SUPPORT. Laws/Flags.lean: each bit of `CTRL` and `STATUS` after each operation on it. -/

namespace Sys2Proof.Machine

theorem getLsbD_oneBit (i j : Nat) (hi : i < 8) : (1#8 <<< i).getLsbD j = decide (j = i) := by
  rw [BitVec.getLsbD_shiftLeft, BitVec.getLsbD_one]
  by_cases h : j = i
  · simp [h, hi]
  · simp [h]; omega

theorem getLsbD_setBit (w : Byte) (i j : Nat) (hi : i < 8) :
    (setBit w i).getLsbD j = (w.getLsbD j || decide (j = i)) := by
  rw [setBit, BitVec.getLsbD_or, getLsbD_oneBit i j hi]

theorem getLsbD_clearBit (w : Byte) (i j : Nat) (hi : i < 8) :
    (clearBit w i).getLsbD j = (w.getLsbD j && !decide (j = i)) := by
  rw [clearBit, BitVec.getLsbD_and, BitVec.getLsbD_not, getLsbD_oneBit i j hi]
  by_cases hj : j < 8
  · simp [hj]
  · simp [BitVec.getLsbD_of_ge w j (by omega)]

/-- The accept: `BUSY` set, `DONE` and `ABORTED` cleared, every other bit as it was. -/
theorem getLsbD_statusAccept (st : Byte) (j : Nat) :
    (statusAccept st).getLsbD j =
      if j = 0 then true else if j = 1 ∨ j = 6 then false else st.getLsbD j := by
  rw [statusAccept, getLsbD_setBit _ _ _ (by omega), getLsbD_clearBit _ _ _ (by omega),
    getLsbD_clearBit _ _ _ (by omega)]
  by_cases h0 : j = 0
  · simp [h0]
  · by_cases h1 : j = 1
    · simp [h1]
    · by_cases h6 : j = 6 <;> simp [h0, h1, h6]

/-- The commit: `BUSY` cleared, `DONE` set, every other bit as it was. -/
theorem getLsbD_statusCommit (st : Byte) (j : Nat) :
    (statusCommit st).getLsbD j = if j = 0 then false else if j = 1 then true else st.getLsbD j := by
  rw [statusCommit, getLsbD_setBit _ _ _ (by omega), getLsbD_clearBit _ _ _ (by omega)]
  by_cases h0 : j = 0
  · simp [h0]
  · by_cases h1 : j = 1 <;> simp [h0, h1]

/-- The abort: `BUSY` cleared, `ABORTED` set, every other bit as it was. -/
theorem getLsbD_statusAbort (st : Byte) (j : Nat) :
    (statusAbort st).getLsbD j = if j = 0 then false else if j = 6 then true else st.getLsbD j := by
  rw [statusAbort, getLsbD_setBit _ _ _ (by omega), getLsbD_clearBit _ _ _ (by omega)]
  by_cases h0 : j = 0
  · simp [h0]
  · by_cases h6 : j = 6 <;> simp [h0, h6]

/-- A rejection: one `ERR_*` bit set, every other bit as it was. -/
theorem getLsbD_statusReject (st : Byte) (k : ErrKind) (j : Nat) :
    (statusReject st k).getLsbD j = (st.getLsbD j || decide (j = errBit k)) := by
  rw [statusReject, getLsbD_setBit _ _ _ (by cases k <;> decide)]

/-- A W1C write: bits 6:1 written with 1 are cleared, every other bit as it was. -/
theorem getLsbD_statusW1c (st d : Byte) (j : Nat) :
    (statusW1c st d).getLsbD j = (st.getLsbD j && !(decide (1 ≤ j ∧ j ≤ 6) && d.getLsbD j)) := by
  by_cases hj : j < 8
  · have h : ∀ j : Fin 8, (0x7E#8).getLsbD j.val = decide (1 ≤ j.val ∧ j.val ≤ 6) := by decide
    rw [statusW1c, BitVec.getLsbD_and, BitVec.getLsbD_not, BitVec.getLsbD_and, h ⟨j, hj⟩]
    simp [hj, Bool.and_comm]
  · simp [BitVec.getLsbD_of_ge _ j (by omega : 8 ≤ j)]

/-- Bits 7:6 of `CTRL` are zero exactly when reading it changes nothing. -/
theorem ctrlRead_eq_iff (c : Byte) : ctrlRead c = c ↔ c.getLsbD 6 = false ∧ c.getLsbD 7 = false := by
  revert c; decide

/-- Bit 7 of `STATUS` is zero exactly when reading it changes nothing. -/
theorem statusRead_eq_iff (st : Byte) : statusRead st = st ↔ st.getLsbD 7 = false := by
  revert st; decide

/-- The bits a host write of `d` leaves in `CTRL`. -/
theorem getLsbD_ctrlWritten (d : Byte) (j : Nat) :
    (ctrlWritten d).getLsbD j = (decide (j ≤ 5) && d.getLsbD j) := by
  by_cases hj : j < 8
  · have h : ∀ j : Fin 8, (0x3F#8).getLsbD j.val = decide (j.val ≤ 5) := by decide
    rw [ctrlWritten, BitVec.getLsbD_and, h ⟨j, hj⟩, Bool.and_comm]
  · simp [BitVec.getLsbD_of_ge _ j (by omega : 8 ≤ j)]

/-- A masked pixel is at most 63 (44_frame.md R109). -/
theorem pixel_le (b : Byte) : (pixel b).toNat ≤ 63 := by
  revert b; decide

/-- Bits 7:3 of the flags of a motion sample are zero (43_motion.md R99). -/
theorem motionFlags_reserved (st : Byte) : motionFlags st &&& 0xF8#8 = 0#8 := by
  revert st; decide

/-- The bits of a register after a write of one byte lane (20_memory.md R44). -/
theorem getLsbD_setByteLane {n : Nat} (w : BitVec n) (i : Nat) (d : Byte) (k : Nat) (hk : k < n) :
    (setByteLane w i d).getLsbD k = if 8 * i ≤ k ∧ k < 8 * i + 8 then d.getLsbD (k - 8 * i) else w.getLsbD k := by
  have hF : ∀ j, (0xFF#8).getLsbD j = decide (j < 8) := by
    intro j
    by_cases h : j < 8
    · interval_cases j <;> rfl
    · rw [BitVec.getLsbD_of_ge _ _ (by omega)]; simp [h]
  simp only [setByteLane, BitVec.getLsbD_or, BitVec.getLsbD_and, BitVec.getLsbD_not, BitVec.getLsbD_shiftLeft,
      BitVec.getLsbD_setWidth, hF]
  by_cases h1 : 8 * i ≤ k
  · by_cases h2 : k < 8 * i + 8
    · simp [h1, h2, hk, show ¬ k < 8 * i by omega, show k - 8 * i < 8 by omega, show k - 8 * i < n by omega]
    · simp [h1, h2, hk, show ¬ k - 8 * i < 8 by omega, BitVec.getLsbD_of_ge d (k - 8 * i) (by omega)]
  · simp [h1, show k < 8 * i by omega, hk]

end Sys2Proof.Machine
end

