-- ==== Sys2Proof/Laws/Memory.lean ====
section
/-! SUPPORT. Laws/Memory.lean: what a block write does to the byte at an address, and that it keeps the canonical
form. -/

namespace Sys2Proof.Machine

theorem lookup_append (m n : List Host.Cell) (a : Nat) :
    Memory.lookup (m ++ n) a = (Memory.lookup m a).or (Memory.lookup n a) := by
  induction m with
  | nil => simp [Memory.lookup]
  | cons c m ih => by_cases h : c.1 = a <;> simp [Memory.lookup, h, ih]

theorem lookup_cells (base : Nat) (bs : List Byte) (a : Nat) :
    Memory.lookup (Memory.cells base bs) a = if base ≤ a then bs[a - base]? else none := by
  induction bs generalizing base with
  | nil => simp [Memory.cells, Memory.lookup]
  | cons b bs ih =>
    simp only [Memory.cells, Memory.lookup, ih]
    by_cases h : base = a
    · simp [h]
    · by_cases h2 : base ≤ a
      · rw [if_neg h, if_pos (by omega), if_pos h2, show a - base = (a - (base + 1)) + 1 by omega]
        simp
      · rw [if_neg h, if_neg (by omega), if_neg h2]

theorem lookup_filter {p : Nat → Bool} (m : List Host.Cell) (a : Nat) :
    Memory.lookup (m.filter (fun c => p c.1)) a = if p a then Memory.lookup m a else none := by
  induction m with
  | nil => simp [Memory.lookup]
  | cons c m ih =>
    by_cases h : c.1 = a
    · subst h
      cases hp : p c.1 <;> simp [hp, Memory.lookup, ih]
    · cases hp : p c.1 <;> simp [hp, Memory.lookup, ih, h]

/-- A read after a block write: the written byte inside the block, the old one outside. -/
theorem lookup_writeBlock (m : List Host.Cell) (base : Nat) (bs : List Byte) (a : Nat) :
    Memory.lookup (Memory.writeBlock m base bs) a =
      if base ≤ a ∧ a < base + bs.length then bs[a - base]? else Memory.lookup m a := by
  unfold Memory.writeBlock
  rw [lookup_append, lookup_append, lookup_cells,
    lookup_filter (p := fun x => decide (x < base)), lookup_filter (p := fun x => decide (base + bs.length ≤ x))]
  by_cases h1 : base ≤ a
  · by_cases h2 : a < base + bs.length
    · have : a - base < bs.length := by omega
      simp [h1, h2, List.getElem?_eq_getElem this, show ¬a < base by omega]
    · have : bs.length ≤ a - base := by omega
      simp [h1, h2, List.getElem?_eq_none this, show ¬a < base by omega, show base + bs.length ≤ a by omega]
  · simp [h1, show a < base by omega, show ¬(base + bs.length ≤ a) by omega]

theorem lookup_writeBlock_outside {m : List Host.Cell} {base : Nat} {bs : List Byte} {a : Nat}
    (h : ¬(base ≤ a ∧ a < base + bs.length)) :
    Memory.lookup (Memory.writeBlock m base bs) a = Memory.lookup m a := by
  rw [lookup_writeBlock, if_neg h]

theorem lookup_writeBlock_inside {m : List Host.Cell} {base : Nat} {bs : List Byte} {i : Nat}
    (h : i < bs.length) :
    Memory.lookup (Memory.writeBlock m base bs) (base + i) = some bs[i] := by
  rw [lookup_writeBlock, if_pos (by omega), Nat.add_sub_cancel_left, List.getElem?_eq_getElem h]

theorem lookup_writeByte (m : List Host.Cell) (a : Nat) (d : Byte) (b : Nat) :
    Memory.lookup (Memory.writeBlock m a [d]) b = if b = a then some d else Memory.lookup m b := by
  rw [lookup_writeBlock]
  by_cases h : b = a
  · simp [h]
  · rw [if_neg (by simp; omega), if_neg h]

theorem wf_iff (m : List Host.Cell) :
    Memory.wf m = true ↔ m.Pairwise (fun c d => c.1 < d.1) ∧ ∀ c ∈ m, bufferAddr c.1 = true := by
  simp [Memory.wf]

theorem mem_cells {base : Nat} {bs : List Byte} {c : Host.Cell} (h : c ∈ Memory.cells base bs) :
    base ≤ c.1 ∧ c.1 < base + bs.length := by
  induction bs generalizing base with
  | nil => simp [Memory.cells] at h
  | cons b bs ih =>
    simp only [Memory.cells, List.mem_cons] at h
    rcases h with rfl | h
    · simp
    · have := ih h
      simp only [List.length_cons]; omega

theorem pairwise_cells (base : Nat) (bs : List Byte) :
    (Memory.cells base bs).Pairwise (fun c d => c.1 < d.1) := by
  induction bs generalizing base with
  | nil => simp [Memory.cells]
  | cons b bs ih =>
    simp only [Memory.cells, List.pairwise_cons]
    exact ⟨fun c hc => (mem_cells hc).1, ih (base + 1)⟩

/-- A block write into a buffer keeps the canonical form. -/
theorem wf_writeBlock {m : List Host.Cell} {base : Nat} {bs : List Byte} (h : Memory.wf m = true)
    (hb : ∀ i, i < bs.length → bufferAddr (base + i) = true) : Memory.wf (Memory.writeBlock m base bs) = true := by
  rw [wf_iff] at h ⊢
  obtain ⟨hp, ha⟩ := h
  refine ⟨?_, ?_⟩
  · unfold Memory.writeBlock
    rw [List.pairwise_append, List.pairwise_append]
    refine ⟨⟨hp.filter _, pairwise_cells base bs, ?_⟩, hp.filter _, ?_⟩
    · intro c hc d hd
      have := (mem_cells hd).1
      simp at hc; omega
    · intro c hc d hd
      simp only [List.mem_filter, decide_eq_true_eq] at hd
      rcases List.mem_append.mp hc with hc | hc
      · simp at hc; omega
      · have := (mem_cells hc).2; omega
  · intro c hc
    simp only [Memory.writeBlock, List.mem_append, List.mem_filter, decide_eq_true_eq] at hc
    rcases hc with (hc | hc) | hc
    · exact ha c hc.1
    · have h2 := mem_cells hc
      have := hb (c.1 - base) (by omega)
      rwa [show base + (c.1 - base) = c.1 by omega] at this
    · exact ha c hc.1

theorem bufferAddr_tx {i : Nat} (h : i < Config.nBuf) : bufferAddr (txBase + i) = true := by
  simp only [bufferAddr, decide_eq_true_eq]; omega

theorem bufferAddr_rx {i : Nat} (h : i < Config.nBuf) : bufferAddr (rxBase + i) = true := by
  simp only [bufferAddr, decide_eq_true_eq]; omega

theorem bufferAddr_frame {k : Nat} (h : k < Config.nPix) : bufferAddr (frameBase + k) = true := by
  simp only [bufferAddr, decide_eq_true_eq]; omega

/-- The buffers' addresses, as numbers (20_memory.md R42). -/
theorem bufferAddr_iff (a : Nat) :
    bufferAddr a = true ↔ (0x100 ≤ a ∧ a < 0x300) ∨ (0x400 ≤ a ∧ a < 0x784) := by
  unfold bufferAddr
  rw [decide_eq_true_eq]
  simp only [txBase, rxBase, frameBase, Config.nBuf, Config.nPix]
  omega

end Sys2Proof.Machine
end

