-- ==== Sys2Proof/Laws/State.lean ====
section
/-! SUPPORT. Laws/State.lean: every field of the state after each shared operation, one lemma a field. -/

namespace Sys2Proof.Machine

/-! ## `record` -/

@[simp] theorem record_ctrl (e : Event) (s : State) : (record e s).ctrl = s.ctrl := rfl
@[simp] theorem record_status (e : Event) (s : State) : (record e s).status = s.status := rfl
@[simp] theorem record_addr (e : Event) (s : State) : (record e s).addr = s.addr := rfl
@[simp] theorem record_len (e : Event) (s : State) : (record e s).len = s.len := rfl
@[simp] theorem record_clkdiv (e : Event) (s : State) : (record e s).clkdiv = s.clkdiv := rfl
@[simp] theorem record_gap (e : Event) (s : State) : (record e s).gap = s.gap := rfl
@[simp] theorem record_settle (e : Event) (s : State) : (record e s).settle = s.settle := rfl
@[simp] theorem record_mot (e : Event) (s : State) : (record e s).mot = s.mot := rfl
@[simp] theorem record_mem (e : Event) (s : State) : (record e s).mem = s.mem := rfl
@[simp] theorem record_seq (e : Event) (s : State) : (record e s).seq = s.seq := rfl
@[simp] theorem record_eng (e : Event) (s : State) : (record e s).eng = s.eng := rfl
@[simp] theorem record_rxSh (e : Event) (s : State) : (record e s).rxSh = s.rxSh := rfl
@[simp] theorem record_frameSh (e : Event) (s : State) : (record e s).frameSh = s.frameSh := rfl
@[simp] theorem record_motSh (e : Event) (s : State) : (record e s).motSh = s.motSh := rfl
@[simp] theorem record_ncs (e : Event) (s : State) : (record e s).ncs = s.ncs := rfl
@[simp] theorem record_sclk (e : Event) (s : State) : (record e s).sclk = s.sclk := rfl
@[simp] theorem record_mosi (e : Event) (s : State) : (record e s).mosi = s.mosi := rfl
@[simp] theorem record_busRdata (e : Event) (s : State) : (record e s).busRdata = s.busRdata := rfl
@[simp] theorem record_host (e : Event) (s : State) : (record e s).host = s.host := rfl
@[simp] theorem record_answers (e : Event) (s : State) : (record e s).answers = s.answers := rfl
@[simp] theorem record_sensorDraws (e : Event) (s : State) : (record e s).sensorDraws = s.sensorDraws := rfl
@[simp] theorem record_draws (e : Event) (s : State) : (record e s).draws = s.draws := rfl
@[simp] theorem record_events (e : Event) (s : State) : (record e s).events = s.events ++ [e] := rfl

/-! ## `seqRest` -/

@[simp] theorem seqRest_ctrl (s : State) : (seqRest s).ctrl = s.ctrl := rfl
@[simp] theorem seqRest_status (s : State) : (seqRest s).status = s.status := rfl
@[simp] theorem seqRest_addr (s : State) : (seqRest s).addr = s.addr := rfl
@[simp] theorem seqRest_len (s : State) : (seqRest s).len = s.len := rfl
@[simp] theorem seqRest_clkdiv (s : State) : (seqRest s).clkdiv = s.clkdiv := rfl
@[simp] theorem seqRest_gap (s : State) : (seqRest s).gap = s.gap := rfl
@[simp] theorem seqRest_settle (s : State) : (seqRest s).settle = s.settle := rfl
@[simp] theorem seqRest_mot (s : State) : (seqRest s).mot = s.mot := rfl
@[simp] theorem seqRest_mem (s : State) : (seqRest s).mem = s.mem := rfl
@[simp] theorem seqRest_seq (s : State) : (seqRest s).seq = .idle := rfl
@[simp] theorem seqRest_eng (s : State) : (seqRest s).eng = Engine.idle := rfl
@[simp] theorem seqRest_rxSh (s : State) : (seqRest s).rxSh = [] := rfl
@[simp] theorem seqRest_frameSh (s : State) : (seqRest s).frameSh = [] := rfl
@[simp] theorem seqRest_motSh (s : State) : (seqRest s).motSh = Motion.zero := rfl
@[simp] theorem seqRest_ncs (s : State) : (seqRest s).ncs = s.ncs := rfl
@[simp] theorem seqRest_sclk (s : State) : (seqRest s).sclk = s.sclk := rfl
@[simp] theorem seqRest_mosi (s : State) : (seqRest s).mosi = s.mosi := rfl
@[simp] theorem seqRest_busRdata (s : State) : (seqRest s).busRdata = s.busRdata := rfl
@[simp] theorem seqRest_host (s : State) : (seqRest s).host = s.host := rfl
@[simp] theorem seqRest_answers (s : State) : (seqRest s).answers = s.answers := rfl
@[simp] theorem seqRest_sensorDraws (s : State) : (seqRest s).sensorDraws = s.sensorDraws := rfl
@[simp] theorem seqRest_draws (s : State) : (seqRest s).draws = s.draws := rfl
@[simp] theorem seqRest_events (s : State) : (seqRest s).events = s.events := rfl

/-! ## `updatePins` -/

@[simp] theorem updatePins_ctrl (s : State) : (updatePins s).ctrl = s.ctrl := rfl
@[simp] theorem updatePins_status (s : State) : (updatePins s).status = s.status := rfl
@[simp] theorem updatePins_addr (s : State) : (updatePins s).addr = s.addr := rfl
@[simp] theorem updatePins_len (s : State) : (updatePins s).len = s.len := rfl
@[simp] theorem updatePins_clkdiv (s : State) : (updatePins s).clkdiv = s.clkdiv := rfl
@[simp] theorem updatePins_gap (s : State) : (updatePins s).gap = s.gap := rfl
@[simp] theorem updatePins_settle (s : State) : (updatePins s).settle = s.settle := rfl
@[simp] theorem updatePins_mot (s : State) : (updatePins s).mot = s.mot := rfl
@[simp] theorem updatePins_mem (s : State) : (updatePins s).mem = s.mem := rfl
@[simp] theorem updatePins_seq (s : State) : (updatePins s).seq = s.seq := rfl
@[simp] theorem updatePins_eng (s : State) : (updatePins s).eng = s.eng := rfl
@[simp] theorem updatePins_rxSh (s : State) : (updatePins s).rxSh = s.rxSh := rfl
@[simp] theorem updatePins_frameSh (s : State) : (updatePins s).frameSh = s.frameSh := rfl
@[simp] theorem updatePins_motSh (s : State) : (updatePins s).motSh = s.motSh := rfl
@[simp] theorem updatePins_ncs (s : State) : (updatePins s).ncs = restNcs s := rfl
@[simp] theorem updatePins_sclk (s : State) : (updatePins s).sclk = s.cpol := rfl
@[simp] theorem updatePins_mosi (s : State) : (updatePins s).mosi = false := rfl
@[simp] theorem updatePins_busRdata (s : State) : (updatePins s).busRdata = s.busRdata := rfl
@[simp] theorem updatePins_host (s : State) : (updatePins s).host = s.host := rfl
@[simp] theorem updatePins_answers (s : State) : (updatePins s).answers = s.answers := rfl
@[simp] theorem updatePins_sensorDraws (s : State) : (updatePins s).sensorDraws = s.sensorDraws := rfl
@[simp] theorem updatePins_draws (s : State) : (updatePins s).draws = s.draws := rfl
@[simp] theorem updatePins_events (s : State) : (updatePins s).events = s.events := rfl

/-! ## `rejectCommand` -/

@[simp] theorem rejectCommand_ctrl (k : ErrKind) (d : Byte) (s : State) : (rejectCommand k d s).ctrl = s.ctrl := rfl
@[simp] theorem rejectCommand_status (k : ErrKind) (d : Byte) (s : State) :
    (rejectCommand k d s).status = statusReject s.status k := rfl
@[simp] theorem rejectCommand_addr (k : ErrKind) (d : Byte) (s : State) : (rejectCommand k d s).addr = s.addr := rfl
@[simp] theorem rejectCommand_len (k : ErrKind) (d : Byte) (s : State) : (rejectCommand k d s).len = s.len := rfl
@[simp] theorem rejectCommand_clkdiv (k : ErrKind) (d : Byte) (s : State) : (rejectCommand k d s).clkdiv = s.clkdiv :=
  rfl
@[simp] theorem rejectCommand_gap (k : ErrKind) (d : Byte) (s : State) : (rejectCommand k d s).gap = s.gap := rfl
@[simp] theorem rejectCommand_settle (k : ErrKind) (d : Byte) (s : State) : (rejectCommand k d s).settle = s.settle :=
  rfl
@[simp] theorem rejectCommand_mot (k : ErrKind) (d : Byte) (s : State) : (rejectCommand k d s).mot = s.mot := rfl
@[simp] theorem rejectCommand_mem (k : ErrKind) (d : Byte) (s : State) : (rejectCommand k d s).mem = s.mem := rfl
@[simp] theorem rejectCommand_seq (k : ErrKind) (d : Byte) (s : State) : (rejectCommand k d s).seq = s.seq := rfl
@[simp] theorem rejectCommand_eng (k : ErrKind) (d : Byte) (s : State) : (rejectCommand k d s).eng = s.eng := rfl
@[simp] theorem rejectCommand_rxSh (k : ErrKind) (d : Byte) (s : State) : (rejectCommand k d s).rxSh = s.rxSh := rfl
@[simp] theorem rejectCommand_frameSh (k : ErrKind) (d : Byte) (s : State) :
    (rejectCommand k d s).frameSh = s.frameSh := rfl
@[simp] theorem rejectCommand_motSh (k : ErrKind) (d : Byte) (s : State) : (rejectCommand k d s).motSh = s.motSh := rfl
@[simp] theorem rejectCommand_ncs (k : ErrKind) (d : Byte) (s : State) : (rejectCommand k d s).ncs = s.ncs := rfl
@[simp] theorem rejectCommand_sclk (k : ErrKind) (d : Byte) (s : State) : (rejectCommand k d s).sclk = s.sclk := rfl
@[simp] theorem rejectCommand_mosi (k : ErrKind) (d : Byte) (s : State) : (rejectCommand k d s).mosi = s.mosi := rfl
@[simp] theorem rejectCommand_busRdata (k : ErrKind) (d : Byte) (s : State) :
    (rejectCommand k d s).busRdata = s.busRdata := rfl
@[simp] theorem rejectCommand_host (k : ErrKind) (d : Byte) (s : State) : (rejectCommand k d s).host = s.host := rfl
@[simp] theorem rejectCommand_answers (k : ErrKind) (d : Byte) (s : State) :
    (rejectCommand k d s).answers = s.answers := rfl
@[simp] theorem rejectCommand_sensorDraws (k : ErrKind) (d : Byte) (s : State) :
    (rejectCommand k d s).sensorDraws = s.sensorDraws := rfl
@[simp] theorem rejectCommand_draws (k : ErrKind) (d : Byte) (s : State) : (rejectCommand k d s).draws = s.draws := rfl
@[simp] theorem rejectCommand_events (k : ErrKind) (d : Byte) (s : State) :
    (rejectCommand k d s).events = s.events ++ [.cmdReject d k] := rfl

/-! ## `startCommand` -/

@[simp] theorem startCommand_ctrl (c : Command) (s : State) : (startCommand c s).ctrl = s.ctrl := rfl
@[simp] theorem startCommand_status (c : Command) (s : State) : (startCommand c s).status = statusAccept s.status := rfl
@[simp] theorem startCommand_addr (c : Command) (s : State) : (startCommand c s).addr = s.addr := rfl
@[simp] theorem startCommand_len (c : Command) (s : State) : (startCommand c s).len = s.len := rfl
@[simp] theorem startCommand_clkdiv (c : Command) (s : State) : (startCommand c s).clkdiv = s.clkdiv := rfl
@[simp] theorem startCommand_gap (c : Command) (s : State) : (startCommand c s).gap = s.gap := rfl
@[simp] theorem startCommand_settle (c : Command) (s : State) : (startCommand c s).settle = s.settle := rfl
@[simp] theorem startCommand_mot (c : Command) (s : State) : (startCommand c s).mot = s.mot := rfl
@[simp] theorem startCommand_mem (c : Command) (s : State) : (startCommand c s).mem = s.mem := rfl
@[simp] theorem startCommand_seq (c : Command) (s : State) : (startCommand c s).seq = .run c .start := rfl
@[simp] theorem startCommand_eng (c : Command) (s : State) : (startCommand c s).eng = s.eng := rfl
@[simp] theorem startCommand_rxSh (c : Command) (s : State) : (startCommand c s).rxSh = s.rxSh := rfl
@[simp] theorem startCommand_frameSh (c : Command) (s : State) : (startCommand c s).frameSh = s.frameSh := rfl
@[simp] theorem startCommand_motSh (c : Command) (s : State) : (startCommand c s).motSh = s.motSh := rfl
@[simp] theorem startCommand_ncs (c : Command) (s : State) : (startCommand c s).ncs = s.ncs := rfl
@[simp] theorem startCommand_sclk (c : Command) (s : State) : (startCommand c s).sclk = s.sclk := rfl
@[simp] theorem startCommand_mosi (c : Command) (s : State) : (startCommand c s).mosi = s.mosi := rfl
@[simp] theorem startCommand_busRdata (c : Command) (s : State) : (startCommand c s).busRdata = s.busRdata := rfl
@[simp] theorem startCommand_host (c : Command) (s : State) : (startCommand c s).host = s.host := rfl
@[simp] theorem startCommand_answers (c : Command) (s : State) : (startCommand c s).answers = s.answers := rfl
@[simp] theorem startCommand_sensorDraws (c : Command) (s : State) : (startCommand c s).sensorDraws = s.sensorDraws :=
  rfl
@[simp] theorem startCommand_draws (c : Command) (s : State) : (startCommand c s).draws = s.draws := rfl
@[simp] theorem startCommand_events (c : Command) (s : State) :
    (startCommand c s).events = s.events ++ [.cmdAccept c] := rfl

/-! ## `dropAnswers` -/

@[simp] theorem dropAnswers_ctrl (m : Nat) (s : State) : (dropAnswers m s).ctrl = s.ctrl := rfl
@[simp] theorem dropAnswers_status (m : Nat) (s : State) : (dropAnswers m s).status = s.status := rfl
@[simp] theorem dropAnswers_addr (m : Nat) (s : State) : (dropAnswers m s).addr = s.addr := rfl
@[simp] theorem dropAnswers_len (m : Nat) (s : State) : (dropAnswers m s).len = s.len := rfl
@[simp] theorem dropAnswers_clkdiv (m : Nat) (s : State) : (dropAnswers m s).clkdiv = s.clkdiv := rfl
@[simp] theorem dropAnswers_gap (m : Nat) (s : State) : (dropAnswers m s).gap = s.gap := rfl
@[simp] theorem dropAnswers_settle (m : Nat) (s : State) : (dropAnswers m s).settle = s.settle := rfl
@[simp] theorem dropAnswers_mot (m : Nat) (s : State) : (dropAnswers m s).mot = s.mot := rfl
@[simp] theorem dropAnswers_mem (m : Nat) (s : State) : (dropAnswers m s).mem = s.mem := rfl
@[simp] theorem dropAnswers_seq (m : Nat) (s : State) : (dropAnswers m s).seq = s.seq := rfl
@[simp] theorem dropAnswers_eng (m : Nat) (s : State) : (dropAnswers m s).eng = s.eng := rfl
@[simp] theorem dropAnswers_rxSh (m : Nat) (s : State) : (dropAnswers m s).rxSh = s.rxSh := rfl
@[simp] theorem dropAnswers_frameSh (m : Nat) (s : State) : (dropAnswers m s).frameSh = s.frameSh := rfl
@[simp] theorem dropAnswers_motSh (m : Nat) (s : State) : (dropAnswers m s).motSh = s.motSh := rfl
@[simp] theorem dropAnswers_ncs (m : Nat) (s : State) : (dropAnswers m s).ncs = s.ncs := rfl
@[simp] theorem dropAnswers_sclk (m : Nat) (s : State) : (dropAnswers m s).sclk = s.sclk := rfl
@[simp] theorem dropAnswers_mosi (m : Nat) (s : State) : (dropAnswers m s).mosi = s.mosi := rfl
@[simp] theorem dropAnswers_busRdata (m : Nat) (s : State) : (dropAnswers m s).busRdata = s.busRdata := rfl
@[simp] theorem dropAnswers_host (m : Nat) (s : State) : (dropAnswers m s).host = s.host := rfl
@[simp] theorem dropAnswers_answers (m : Nat) (s : State) : (dropAnswers m s).answers = s.answers.drop m := rfl
@[simp] theorem dropAnswers_sensorDraws (m : Nat) (s : State) :
    (dropAnswers m s).sensorDraws = s.sensorDraws + (m - s.answers.length) := rfl
@[simp] theorem dropAnswers_draws (m : Nat) (s : State) : (dropAnswers m s).draws = s.draws := rfl
@[simp] theorem dropAnswers_events (m : Nat) (s : State) : (dropAnswers m s).events = s.events := rfl

/-! ## `driveNcs` -/

@[simp] theorem driveNcs_ctrl (b : Bool) (s : State) : (driveNcs b s).ctrl = s.ctrl := rfl
@[simp] theorem driveNcs_status (b : Bool) (s : State) : (driveNcs b s).status = s.status := rfl
@[simp] theorem driveNcs_addr (b : Bool) (s : State) : (driveNcs b s).addr = s.addr := rfl
@[simp] theorem driveNcs_len (b : Bool) (s : State) : (driveNcs b s).len = s.len := rfl
@[simp] theorem driveNcs_clkdiv (b : Bool) (s : State) : (driveNcs b s).clkdiv = s.clkdiv := rfl
@[simp] theorem driveNcs_gap (b : Bool) (s : State) : (driveNcs b s).gap = s.gap := rfl
@[simp] theorem driveNcs_settle (b : Bool) (s : State) : (driveNcs b s).settle = s.settle := rfl
@[simp] theorem driveNcs_mot (b : Bool) (s : State) : (driveNcs b s).mot = s.mot := rfl
@[simp] theorem driveNcs_mem (b : Bool) (s : State) : (driveNcs b s).mem = s.mem := rfl
@[simp] theorem driveNcs_seq (b : Bool) (s : State) : (driveNcs b s).seq = s.seq := rfl
@[simp] theorem driveNcs_eng (b : Bool) (s : State) : (driveNcs b s).eng = s.eng := rfl
@[simp] theorem driveNcs_rxSh (b : Bool) (s : State) : (driveNcs b s).rxSh = s.rxSh := rfl
@[simp] theorem driveNcs_frameSh (b : Bool) (s : State) : (driveNcs b s).frameSh = s.frameSh := rfl
@[simp] theorem driveNcs_motSh (b : Bool) (s : State) : (driveNcs b s).motSh = s.motSh := rfl
@[simp] theorem driveNcs_ncs (b : Bool) (s : State) : (driveNcs b s).ncs = if s.csManual then s.ncs else b := rfl
@[simp] theorem driveNcs_sclk (b : Bool) (s : State) : (driveNcs b s).sclk = s.sclk := rfl
@[simp] theorem driveNcs_mosi (b : Bool) (s : State) : (driveNcs b s).mosi = s.mosi := rfl
@[simp] theorem driveNcs_busRdata (b : Bool) (s : State) : (driveNcs b s).busRdata = s.busRdata := rfl
@[simp] theorem driveNcs_host (b : Bool) (s : State) : (driveNcs b s).host = s.host := rfl
@[simp] theorem driveNcs_answers (b : Bool) (s : State) : (driveNcs b s).answers = s.answers := rfl
@[simp] theorem driveNcs_sensorDraws (b : Bool) (s : State) : (driveNcs b s).sensorDraws = s.sensorDraws := rfl
@[simp] theorem driveNcs_draws (b : Bool) (s : State) : (driveNcs b s).draws = s.draws := rfl
@[simp] theorem driveNcs_events (b : Bool) (s : State) : (driveNcs b s).events = s.events := rfl

/-! ## `enterWire` -/

@[simp] theorem enterWire_ctrl (c : Command) (t : Txn) (w : Wire) (s : State) : (enterWire c t w s).ctrl = s.ctrl := rfl
@[simp] theorem enterWire_status (c : Command) (t : Txn) (w : Wire) (s : State) :
    (enterWire c t w s).status = s.status := rfl
@[simp] theorem enterWire_addr (c : Command) (t : Txn) (w : Wire) (s : State) : (enterWire c t w s).addr = s.addr := rfl
@[simp] theorem enterWire_len (c : Command) (t : Txn) (w : Wire) (s : State) : (enterWire c t w s).len = s.len := rfl
@[simp] theorem enterWire_clkdiv (c : Command) (t : Txn) (w : Wire) (s : State) :
    (enterWire c t w s).clkdiv = s.clkdiv := rfl
@[simp] theorem enterWire_gap (c : Command) (t : Txn) (w : Wire) (s : State) : (enterWire c t w s).gap = s.gap := rfl
@[simp] theorem enterWire_settle (c : Command) (t : Txn) (w : Wire) (s : State) :
    (enterWire c t w s).settle = s.settle := rfl
@[simp] theorem enterWire_mot (c : Command) (t : Txn) (w : Wire) (s : State) : (enterWire c t w s).mot = s.mot := rfl
@[simp] theorem enterWire_mem (c : Command) (t : Txn) (w : Wire) (s : State) : (enterWire c t w s).mem = s.mem := rfl
@[simp] theorem enterWire_seq (c : Command) (t : Txn) (w : Wire) (s : State) :
    (enterWire c t w s).seq = .run c (.txn t w) := rfl
@[simp] theorem enterWire_eng (c : Command) (t : Txn) (w : Wire) (s : State) :
    (enterWire c t w s).eng = { s.eng with halfCnt := s.clkdiv.toNat } := rfl
@[simp] theorem enterWire_rxSh (c : Command) (t : Txn) (w : Wire) (s : State) : (enterWire c t w s).rxSh = s.rxSh := rfl
@[simp] theorem enterWire_frameSh (c : Command) (t : Txn) (w : Wire) (s : State) :
    (enterWire c t w s).frameSh = s.frameSh := rfl
@[simp] theorem enterWire_motSh (c : Command) (t : Txn) (w : Wire) (s : State) : (enterWire c t w s).motSh = s.motSh :=
  rfl
@[simp] theorem enterWire_ncs (c : Command) (t : Txn) (w : Wire) (s : State) : (enterWire c t w s).ncs = s.ncs := rfl
@[simp] theorem enterWire_sclk (c : Command) (t : Txn) (w : Wire) (s : State) : (enterWire c t w s).sclk = s.sclk := rfl
@[simp] theorem enterWire_mosi (c : Command) (t : Txn) (w : Wire) (s : State) : (enterWire c t w s).mosi = s.mosi := rfl
@[simp] theorem enterWire_busRdata (c : Command) (t : Txn) (w : Wire) (s : State) :
    (enterWire c t w s).busRdata = s.busRdata := rfl
@[simp] theorem enterWire_host (c : Command) (t : Txn) (w : Wire) (s : State) : (enterWire c t w s).host = s.host := rfl
@[simp] theorem enterWire_answers (c : Command) (t : Txn) (w : Wire) (s : State) :
    (enterWire c t w s).answers = s.answers := rfl
@[simp] theorem enterWire_sensorDraws (c : Command) (t : Txn) (w : Wire) (s : State) :
    (enterWire c t w s).sensorDraws = s.sensorDraws := rfl
@[simp] theorem enterWire_draws (c : Command) (t : Txn) (w : Wire) (s : State) : (enterWire c t w s).draws = s.draws :=
  rfl
@[simp] theorem enterWire_events (c : Command) (t : Txn) (w : Wire) (s : State) :
    (enterWire c t w s).events = s.events := rfl

/-! ## `beginBit` -/

@[simp] theorem beginBit_ctrl (s : State) : (beginBit s).ctrl = s.ctrl := rfl
@[simp] theorem beginBit_status (s : State) : (beginBit s).status = s.status := rfl
@[simp] theorem beginBit_addr (s : State) : (beginBit s).addr = s.addr := rfl
@[simp] theorem beginBit_len (s : State) : (beginBit s).len = s.len := rfl
@[simp] theorem beginBit_clkdiv (s : State) : (beginBit s).clkdiv = s.clkdiv := rfl
@[simp] theorem beginBit_gap (s : State) : (beginBit s).gap = s.gap := rfl
@[simp] theorem beginBit_settle (s : State) : (beginBit s).settle = s.settle := rfl
@[simp] theorem beginBit_mot (s : State) : (beginBit s).mot = s.mot := rfl
@[simp] theorem beginBit_mem (s : State) : (beginBit s).mem = s.mem := rfl
@[simp] theorem beginBit_seq (s : State) : (beginBit s).seq = s.seq := rfl
@[simp] theorem beginBit_eng (s : State) : (beginBit s).eng = s.eng := rfl
@[simp] theorem beginBit_rxSh (s : State) : (beginBit s).rxSh = s.rxSh := rfl
@[simp] theorem beginBit_frameSh (s : State) : (beginBit s).frameSh = s.frameSh := rfl
@[simp] theorem beginBit_motSh (s : State) : (beginBit s).motSh = s.motSh := rfl
@[simp] theorem beginBit_ncs (s : State) : (beginBit s).ncs = s.ncs := rfl
@[simp] theorem beginBit_sclk (s : State) : (beginBit s).sclk = if s.cpha then !s.cpol else s.sclk := rfl
@[simp] theorem beginBit_mosi (s : State) : (beginBit s).mosi = s.eng.txSr.getLsbD 7 := rfl
@[simp] theorem beginBit_busRdata (s : State) : (beginBit s).busRdata = s.busRdata := rfl
@[simp] theorem beginBit_host (s : State) : (beginBit s).host = s.host := rfl
@[simp] theorem beginBit_answers (s : State) : (beginBit s).answers = s.answers := rfl
@[simp] theorem beginBit_sensorDraws (s : State) : (beginBit s).sensorDraws = s.sensorDraws := rfl
@[simp] theorem beginBit_draws (s : State) : (beginBit s).draws = s.draws := rfl
@[simp] theorem beginBit_events (s : State) : (beginBit s).events = s.events := rfl

/-! ## `endBit` -/

@[simp] theorem endBit_ctrl (s : State) : (endBit s).ctrl = s.ctrl := rfl
@[simp] theorem endBit_status (s : State) : (endBit s).status = s.status := rfl
@[simp] theorem endBit_addr (s : State) : (endBit s).addr = s.addr := rfl
@[simp] theorem endBit_len (s : State) : (endBit s).len = s.len := rfl
@[simp] theorem endBit_clkdiv (s : State) : (endBit s).clkdiv = s.clkdiv := rfl
@[simp] theorem endBit_gap (s : State) : (endBit s).gap = s.gap := rfl
@[simp] theorem endBit_settle (s : State) : (endBit s).settle = s.settle := rfl
@[simp] theorem endBit_mot (s : State) : (endBit s).mot = s.mot := rfl
@[simp] theorem endBit_mem (s : State) : (endBit s).mem = s.mem := rfl
@[simp] theorem endBit_seq (s : State) : (endBit s).seq = s.seq := rfl
@[simp] theorem endBit_eng (s : State) : (endBit s).eng = { s.eng with txSr := s.eng.txSr <<< 1 } := rfl
@[simp] theorem endBit_rxSh (s : State) : (endBit s).rxSh = s.rxSh := rfl
@[simp] theorem endBit_frameSh (s : State) : (endBit s).frameSh = s.frameSh := rfl
@[simp] theorem endBit_motSh (s : State) : (endBit s).motSh = s.motSh := rfl
@[simp] theorem endBit_ncs (s : State) : (endBit s).ncs = s.ncs := rfl
@[simp] theorem endBit_sclk (s : State) : (endBit s).sclk = s.cpol := rfl
@[simp] theorem endBit_mosi (s : State) : (endBit s).mosi = s.mosi := rfl
@[simp] theorem endBit_busRdata (s : State) : (endBit s).busRdata = s.busRdata := rfl
@[simp] theorem endBit_host (s : State) : (endBit s).host = s.host := rfl
@[simp] theorem endBit_answers (s : State) : (endBit s).answers = s.answers := rfl
@[simp] theorem endBit_sensorDraws (s : State) : (endBit s).sensorDraws = s.sensorDraws := rfl
@[simp] theorem endBit_draws (s : State) : (endBit s).draws = s.draws := rfl
@[simp] theorem endBit_events (s : State) : (endBit s).events = s.events := rfl

@[simp] theorem sampleBit_seq (s : State) : (sampleBit s).seq = s.seq := rfl
@[simp] theorem sampleBit_ctrl (s : State) : (sampleBit s).ctrl = s.ctrl := rfl
@[simp] theorem sampleBit_clkdiv (s : State) : (sampleBit s).clkdiv = s.clkdiv := rfl

/-! ## `publish` -/

@[simp] theorem publish_ctrl (c : Command) (s : State) : (publish c s).ctrl = s.ctrl := by
  cases c <;> rfl
@[simp] theorem publish_status (c : Command) (s : State) : (publish c s).status = s.status := by
  cases c <;> rfl
@[simp] theorem publish_addr (c : Command) (s : State) : (publish c s).addr = s.addr := by
  cases c <;> rfl
@[simp] theorem publish_len (c : Command) (s : State) : (publish c s).len = s.len := by
  cases c <;> rfl
@[simp] theorem publish_clkdiv (c : Command) (s : State) : (publish c s).clkdiv = s.clkdiv := by
  cases c <;> rfl
@[simp] theorem publish_gap (c : Command) (s : State) : (publish c s).gap = s.gap := by
  cases c <;> rfl
@[simp] theorem publish_settle (c : Command) (s : State) : (publish c s).settle = s.settle := by
  cases c <;> rfl
@[simp] theorem publish_seq (c : Command) (s : State) : (publish c s).seq = s.seq := by
  cases c <;> rfl
@[simp] theorem publish_eng (c : Command) (s : State) : (publish c s).eng = s.eng := by
  cases c <;> rfl
@[simp] theorem publish_rxSh (c : Command) (s : State) : (publish c s).rxSh = s.rxSh := by
  cases c <;> rfl
@[simp] theorem publish_frameSh (c : Command) (s : State) : (publish c s).frameSh = s.frameSh := by
  cases c <;> rfl
@[simp] theorem publish_motSh (c : Command) (s : State) : (publish c s).motSh = s.motSh := by
  cases c <;> rfl
@[simp] theorem publish_ncs (c : Command) (s : State) : (publish c s).ncs = s.ncs := by
  cases c <;> rfl
@[simp] theorem publish_sclk (c : Command) (s : State) : (publish c s).sclk = s.sclk := by
  cases c <;> rfl
@[simp] theorem publish_mosi (c : Command) (s : State) : (publish c s).mosi = s.mosi := by
  cases c <;> rfl
@[simp] theorem publish_busRdata (c : Command) (s : State) : (publish c s).busRdata = s.busRdata := by
  cases c <;> rfl
@[simp] theorem publish_host (c : Command) (s : State) : (publish c s).host = s.host := by
  cases c <;> rfl
@[simp] theorem publish_answers (c : Command) (s : State) : (publish c s).answers = s.answers := by
  cases c <;> rfl
@[simp] theorem publish_sensorDraws (c : Command) (s : State) : (publish c s).sensorDraws = s.sensorDraws := by
  cases c <;> rfl
@[simp] theorem publish_draws (c : Command) (s : State) : (publish c s).draws = s.draws := by
  cases c <;> rfl
@[simp] theorem publish_events (c : Command) (s : State) : (publish c s).events = s.events := by
  cases c <;> rfl

/-! ## `recordCut` -/

@[simp] theorem recordCut_ctrl (s : State) : (recordCut s).ctrl = s.ctrl := by
  unfold recordCut; split <;> rfl
@[simp] theorem recordCut_status (s : State) : (recordCut s).status = s.status := by
  unfold recordCut; split <;> rfl
@[simp] theorem recordCut_addr (s : State) : (recordCut s).addr = s.addr := by
  unfold recordCut; split <;> rfl
@[simp] theorem recordCut_len (s : State) : (recordCut s).len = s.len := by
  unfold recordCut; split <;> rfl
@[simp] theorem recordCut_clkdiv (s : State) : (recordCut s).clkdiv = s.clkdiv := by
  unfold recordCut; split <;> rfl
@[simp] theorem recordCut_gap (s : State) : (recordCut s).gap = s.gap := by
  unfold recordCut; split <;> rfl
@[simp] theorem recordCut_settle (s : State) : (recordCut s).settle = s.settle := by
  unfold recordCut; split <;> rfl
@[simp] theorem recordCut_mot (s : State) : (recordCut s).mot = s.mot := by
  unfold recordCut; split <;> rfl
@[simp] theorem recordCut_mem (s : State) : (recordCut s).mem = s.mem := by
  unfold recordCut; split <;> rfl
@[simp] theorem recordCut_seq (s : State) : (recordCut s).seq = s.seq := by
  unfold recordCut; split <;> rfl
@[simp] theorem recordCut_eng (s : State) : (recordCut s).eng = s.eng := by
  unfold recordCut; split <;> rfl
@[simp] theorem recordCut_rxSh (s : State) : (recordCut s).rxSh = s.rxSh := by
  unfold recordCut; split <;> rfl
@[simp] theorem recordCut_frameSh (s : State) : (recordCut s).frameSh = s.frameSh := by
  unfold recordCut; split <;> rfl
@[simp] theorem recordCut_motSh (s : State) : (recordCut s).motSh = s.motSh := by
  unfold recordCut; split <;> rfl
@[simp] theorem recordCut_ncs (s : State) : (recordCut s).ncs = s.ncs := by
  unfold recordCut; split <;> rfl
@[simp] theorem recordCut_sclk (s : State) : (recordCut s).sclk = s.sclk := by
  unfold recordCut; split <;> rfl
@[simp] theorem recordCut_mosi (s : State) : (recordCut s).mosi = s.mosi := by
  unfold recordCut; split <;> rfl
@[simp] theorem recordCut_busRdata (s : State) : (recordCut s).busRdata = s.busRdata := by
  unfold recordCut; split <;> rfl
@[simp] theorem recordCut_host (s : State) : (recordCut s).host = s.host := by
  unfold recordCut; split <;> rfl
@[simp] theorem recordCut_answers (s : State) : (recordCut s).answers = s.answers := by
  unfold recordCut; split <;> rfl
@[simp] theorem recordCut_sensorDraws (s : State) : (recordCut s).sensorDraws = s.sensorDraws := by
  unfold recordCut; split <;> rfl
@[simp] theorem recordCut_draws (s : State) : (recordCut s).draws = s.draws := by
  unfold recordCut; split <;> rfl

/-! ## `commit` and `abort` -/

@[simp] theorem commit_ctrl (c : Command) (s : State) : (commit c s).ctrl = s.ctrl := by
  cases c <;> rfl
@[simp] theorem commit_status (c : Command) (s : State) : (commit c s).status = statusCommit s.status := by
  cases c <;> rfl
@[simp] theorem commit_addr (c : Command) (s : State) : (commit c s).addr = s.addr := by
  cases c <;> rfl
@[simp] theorem commit_len (c : Command) (s : State) : (commit c s).len = s.len := by
  cases c <;> rfl
@[simp] theorem commit_clkdiv (c : Command) (s : State) : (commit c s).clkdiv = s.clkdiv := by
  cases c <;> rfl
@[simp] theorem commit_gap (c : Command) (s : State) : (commit c s).gap = s.gap := by
  cases c <;> rfl
@[simp] theorem commit_settle (c : Command) (s : State) : (commit c s).settle = s.settle := by
  cases c <;> rfl
@[simp] theorem commit_mot (c : Command) (s : State) : (commit c s).mot = (publish c s).mot := rfl
@[simp] theorem commit_mem (c : Command) (s : State) : (commit c s).mem = (publish c s).mem := rfl
@[simp] theorem commit_seq (c : Command) (s : State) : (commit c s).seq = .idle := rfl
@[simp] theorem commit_eng (c : Command) (s : State) : (commit c s).eng = Engine.idle := rfl
@[simp] theorem commit_rxSh (c : Command) (s : State) : (commit c s).rxSh = [] := rfl
@[simp] theorem commit_frameSh (c : Command) (s : State) : (commit c s).frameSh = [] := rfl
@[simp] theorem commit_motSh (c : Command) (s : State) : (commit c s).motSh = Motion.zero := rfl
@[simp] theorem commit_ncs (c : Command) (s : State) : (commit c s).ncs = s.ncs := by
  cases c <;> rfl
@[simp] theorem commit_sclk (c : Command) (s : State) : (commit c s).sclk = s.sclk := by
  cases c <;> rfl
@[simp] theorem commit_mosi (c : Command) (s : State) : (commit c s).mosi = s.mosi := by
  cases c <;> rfl
@[simp] theorem commit_busRdata (c : Command) (s : State) : (commit c s).busRdata = s.busRdata := by
  cases c <;> rfl
@[simp] theorem commit_host (c : Command) (s : State) : (commit c s).host = s.host := by
  cases c <;> rfl
@[simp] theorem commit_answers (c : Command) (s : State) : (commit c s).answers = s.answers := by
  cases c <;> rfl
@[simp] theorem commit_sensorDraws (c : Command) (s : State) : (commit c s).sensorDraws = s.sensorDraws := by
  cases c <;> rfl
@[simp] theorem commit_draws (c : Command) (s : State) : (commit c s).draws = s.draws := by
  cases c <;> rfl
@[simp] theorem commit_events (c : Command) (s : State) : (commit c s).events = s.events ++ [.cmdDone c] := by
  cases c <;> rfl

@[simp] theorem abort_ctrl (s : State) : (abort s).ctrl = clearBit s.ctrl 0 := by
  simp [abort, State.cpol]
@[simp] theorem abort_status (s : State) : (abort s).status = statusAbort s.status := by
  simp [abort, State.cpol]
@[simp] theorem abort_addr (s : State) : (abort s).addr = s.addr := by
  simp [abort, State.cpol]
@[simp] theorem abort_len (s : State) : (abort s).len = s.len := by
  simp [abort, State.cpol]
@[simp] theorem abort_clkdiv (s : State) : (abort s).clkdiv = s.clkdiv := by
  simp [abort, State.cpol]
@[simp] theorem abort_gap (s : State) : (abort s).gap = s.gap := by
  simp [abort, State.cpol]
@[simp] theorem abort_settle (s : State) : (abort s).settle = s.settle := by
  simp [abort, State.cpol]
@[simp] theorem abort_mot (s : State) : (abort s).mot = s.mot := by
  simp [abort, State.cpol]
@[simp] theorem abort_mem (s : State) : (abort s).mem = s.mem := by
  simp [abort, State.cpol]
@[simp] theorem abort_seq (s : State) : (abort s).seq = .idle := rfl
@[simp] theorem abort_eng (s : State) : (abort s).eng = Engine.idle := rfl
@[simp] theorem abort_rxSh (s : State) : (abort s).rxSh = [] := rfl
@[simp] theorem abort_frameSh (s : State) : (abort s).frameSh = [] := rfl
@[simp] theorem abort_motSh (s : State) : (abort s).motSh = Motion.zero := rfl
@[simp] theorem abort_ncs (s : State) : (abort s).ncs = true := rfl
@[simp] theorem abort_sclk (s : State) : (abort s).sclk = s.cpol := by
  simp [abort, State.cpol]
@[simp] theorem abort_mosi (s : State) : (abort s).mosi = false := rfl
@[simp] theorem abort_busRdata (s : State) : (abort s).busRdata = s.busRdata := by
  simp [abort, State.cpol]
@[simp] theorem abort_host (s : State) : (abort s).host = s.host := by
  simp [abort, State.cpol]
@[simp] theorem abort_answers (s : State) : (abort s).answers = s.answers := by
  simp [abort, State.cpol]
@[simp] theorem abort_sensorDraws (s : State) : (abort s).sensorDraws = s.sensorDraws := by
  simp [abort, State.cpol]
@[simp] theorem abort_draws (s : State) : (abort s).draws = s.draws := by
  simp [abort, State.cpol]
@[simp] theorem abort_events (s : State) : (abort s).events = (recordCut s).events := rfl

/-! ## The results of each command -/

@[simp] theorem publish_xfer_mem (s : State) : (publish .xfer s).mem = Memory.writeBlock s.mem rxBase s.rxSh := rfl
@[simp] theorem publish_rdreg_mem (s : State) : (publish .rdreg s).mem = Memory.writeBlock s.mem rxBase s.rxSh := rfl
@[simp] theorem publish_wrreg_mem (s : State) : (publish .wrreg s).mem = s.mem := rfl
@[simp] theorem publish_motion_mem (s : State) : (publish .motion s).mem = s.mem := rfl
@[simp] theorem publish_frame_mem (s : State) :
    (publish .frame s).mem = Memory.writeBlock s.mem frameBase s.frameSh := rfl
@[simp] theorem publish_xfer_mot (s : State) : (publish .xfer s).mot = s.mot := rfl
@[simp] theorem publish_rdreg_mot (s : State) : (publish .rdreg s).mot = s.mot := rfl
@[simp] theorem publish_wrreg_mot (s : State) : (publish .wrreg s).mot = s.mot := rfl
@[simp] theorem publish_motion_mot (s : State) : (publish .motion s).mot = s.motSh := rfl
@[simp] theorem publish_frame_mot (s : State) : (publish .frame s).mot = s.mot := rfl

end Sys2Proof.Machine
end

