-- ==== Sys2Proof/Laws/Bus.lean ====
section
/-! SUPPORT. Laws/Bus.lean: the rows of the host address map, and what a host access is in an idle and in a running
cycle. -/

namespace Sys2Proof.Machine

/-! ## The map (20_memory.md R42), row by row -/

theorem regionAt_len {a : Nat} (h : 0x004 ≤ a ∧ a < 0x006) : regionAt a = .len (a - 0x004) := by
  unfold regionAt; repeat rw [if_neg (by omega)]
  rw [if_pos (by omega)]

theorem regionAt_clkdiv {a : Nat} (h : 0x006 ≤ a ∧ a < 0x008) : regionAt a = .clkdiv (a - 0x006) := by
  unfold regionAt; repeat rw [if_neg (by omega)]
  rw [if_pos (by omega)]

theorem regionAt_gap {a : Nat} (h : 0x008 ≤ a ∧ a < 0x00A) : regionAt a = .gap (a - 0x008) := by
  unfold regionAt; repeat rw [if_neg (by omega)]
  rw [if_pos (by omega)]

theorem regionAt_settle {a : Nat} (h : 0x00A ≤ a ∧ a < 0x00D) : regionAt a = .settle (a - 0x00A) := by
  unfold regionAt; repeat rw [if_neg (by omega)]
  rw [if_pos (by omega)]

theorem regionAt_motion {a : Nat} (h : 0x010 ≤ a ∧ a < 0x017) : regionAt a = .motion (a - 0x010) := by
  unfold regionAt; repeat rw [if_neg (by omega)]
  rw [if_pos (by omega)]

theorem regionAt_txbuf {a : Nat} (h : 0x100 ≤ a ∧ a < 0x200) : regionAt a = .txbuf (a - 0x100) := by
  unfold regionAt; repeat rw [if_neg (by omega)]
  rw [if_pos (by omega)]

theorem regionAt_rxbuf {a : Nat} (h : 0x200 ≤ a ∧ a < 0x300) : regionAt a = .rxbuf (a - 0x200) := by
  unfold regionAt; repeat rw [if_neg (by omega)]
  rw [if_pos (by omega)]

theorem regionAt_frame {a : Nat} (h : 0x400 ≤ a ∧ a < 0x784) : regionAt a = .frame (a - 0x400) := by
  unfold regionAt; repeat rw [if_neg (by omega)]
  rw [if_pos (by omega)]

theorem regionAt_reserved {a : Nat} (h : reservedAddr a) : regionAt a = .reserved := by
  rcases h with h | h | h | h <;> unfold regionAt <;> (repeat rw [if_neg (by omega)]) <;>
    first | rfl | rw [if_pos (by omega)]

/-- Every row of the map with its addresses (20_memory.md R42). -/
theorem regionAt_cases (a : Nat) :
    (a = 0x000 ∧ regionAt a = .ctrl) ∨ (a = 0x001 ∧ regionAt a = .status) ∨ (a = 0x002 ∧ regionAt a = .cmd) ∨
    (a = 0x003 ∧ regionAt a = .addr) ∨ ((0x004 ≤ a ∧ a < 0x006) ∧ regionAt a = .len (a - 0x004)) ∨
    ((0x006 ≤ a ∧ a < 0x008) ∧ regionAt a = .clkdiv (a - 0x006)) ∨
    ((0x008 ≤ a ∧ a < 0x00A) ∧ regionAt a = .gap (a - 0x008)) ∨
    ((0x00A ≤ a ∧ a < 0x00D) ∧ regionAt a = .settle (a - 0x00A)) ∨
    ((0x010 ≤ a ∧ a < 0x017) ∧ regionAt a = .motion (a - 0x010)) ∨
    ((0x100 ≤ a ∧ a < 0x200) ∧ regionAt a = .txbuf (a - 0x100)) ∨
    ((0x200 ≤ a ∧ a < 0x300) ∧ regionAt a = .rxbuf (a - 0x200)) ∨
    ((0x400 ≤ a ∧ a < 0x784) ∧ regionAt a = .frame (a - 0x400)) ∨
    ((reservedAddr a ∨ 0x1000 ≤ a) ∧ regionAt a = .reserved) := by
  by_cases h0 : a = 0
  · exact .inl ⟨h0, by rw [h0]; rfl⟩
  refine .inr ?_
  by_cases h1 : a = 1
  · exact .inl ⟨h1, by rw [h1]; rfl⟩
  refine .inr ?_
  by_cases h2 : a = 2
  · exact .inl ⟨h2, by rw [h2]; rfl⟩
  refine .inr ?_
  by_cases h3 : a = 3
  · exact .inl ⟨h3, by rw [h3]; rfl⟩
  refine .inr ?_
  by_cases h4 : 0x004 ≤ a ∧ a < 0x006
  · exact .inl ⟨h4, regionAt_len h4⟩
  refine .inr ?_
  by_cases h5 : 0x006 ≤ a ∧ a < 0x008
  · exact .inl ⟨h5, regionAt_clkdiv h5⟩
  refine .inr ?_
  by_cases h6 : 0x008 ≤ a ∧ a < 0x00A
  · exact .inl ⟨h6, regionAt_gap h6⟩
  refine .inr ?_
  by_cases h7 : 0x00A ≤ a ∧ a < 0x00D
  · exact .inl ⟨h7, regionAt_settle h7⟩
  refine .inr ?_
  by_cases h8 : 0x010 ≤ a ∧ a < 0x017
  · exact .inl ⟨h8, regionAt_motion h8⟩
  refine .inr ?_
  by_cases h9 : 0x100 ≤ a ∧ a < 0x200
  · exact .inl ⟨h9, regionAt_txbuf h9⟩
  refine .inr ?_
  by_cases h10 : 0x200 ≤ a ∧ a < 0x300
  · exact .inl ⟨h10, regionAt_rxbuf h10⟩
  refine .inr ?_
  by_cases h11 : 0x400 ≤ a ∧ a < 0x784
  · exact .inl ⟨h11, regionAt_frame h11⟩
  refine .inr ?_
  by_cases h12 : reservedAddr a
  · exact ⟨.inl h12, regionAt_reserved h12⟩
  · unfold reservedAddr at h12
    refine ⟨.inr (by omega), ?_⟩
    unfold regionAt
    iterate 15 rw [if_neg (by omega)]

/-- `STATUS` is at one address. -/
theorem regionAt_status {a : Nat} (h : regionAt a = .status) : a = 1 := by
  rcases regionAt_cases a with ⟨_, e⟩ | ⟨h1, _⟩ | ⟨_, e⟩ | ⟨_, e⟩ | ⟨_, e⟩ | ⟨_, e⟩ | ⟨_, e⟩ | ⟨_, e⟩ | ⟨_, e⟩ |
    ⟨_, e⟩ | ⟨_, e⟩ | ⟨_, e⟩ | ⟨_, e⟩
  all_goals first
    | exact h1
    | (rw [e] at h; exact absurd h (by simp))

/-- An index of `TXBUF` is below its size. -/
theorem regionAt_txbuf_lt {a : Nat} {i : Nat} (h : regionAt a = .txbuf i) : i < Config.nBuf := by
  rcases regionAt_cases a with ⟨_, e⟩ | ⟨_, e⟩ | ⟨_, e⟩ | ⟨_, e⟩ | ⟨_, e⟩ | ⟨_, e⟩ | ⟨_, e⟩ | ⟨_, e⟩ | ⟨_, e⟩ |
    ⟨hr, e⟩ | ⟨_, e⟩ | ⟨_, e⟩ | ⟨_, e⟩ <;> rw [e] at h
  all_goals first
    | (have := Region.txbuf.inj h; simp only [Config.nBuf]; omega)
    | (exact absurd h (by simp))

/-! ## Host reads -/

/-- The value of a buffer byte read: the listed byte, else the next free value. -/
theorem readBuffer_fst (a : Nat) (s : State) :
    (readBuffer a s).1 = (Memory.lookup s.mem a).getD (Memory.unlisted s.draws) := by
  unfold readBuffer; split <;> rename_i h <;> simp [h]

/-- A read of any row changes nothing but the draw counter. -/
theorem regionRead_snd (r : Region) (s : State) :
    (regionRead r s).2 = { s with draws := (regionRead r s).2.draws } := by
  have key : ∀ a, (readBuffer a s).2 = { s with draws := (readBuffer a s).2.draws } := by
    intro a; unfold readBuffer; split <;> rfl
  cases r <;> first | rfl | exact key _

/-- The draw a buffer read takes. -/
theorem readBuffer_draws (a : Nat) (s : State) :
    (readBuffer a s).2.draws = if Memory.lookup s.mem a = none then s.draws + 1 else s.draws := by
  unfold readBuffer
  split <;> rename_i h <;> simp [h]

/-- The draw a host read takes: one where it reads a buffer byte that nothing has written, else none. -/
theorem regionRead_draws (a : HostAddr) (s : State) : (regionRead (regionAt a.toNat) s).2.draws =
    if bufferAddr a.toNat = true ∧ Memory.lookup s.mem a.toNat = none then s.draws + 1 else s.draws := by
  have hb := bufferAddr_iff a.toNat
  rcases regionAt_cases a.toNat with ⟨h, e⟩ | ⟨h, e⟩ | ⟨h, e⟩ | ⟨h, e⟩ | ⟨h, e⟩ | ⟨h, e⟩ | ⟨h, e⟩ | ⟨h, e⟩ | ⟨h, e⟩ |
    ⟨h, e⟩ | ⟨h, e⟩ | ⟨h, e⟩ | ⟨h, e⟩ <;> rw [e]
  all_goals try
    (have : bufferAddr a.toNat ≠ true := by rw [Ne, hb]; omega
     rw [if_neg (by simp [this])]; rfl)
  · have : bufferAddr a.toNat = true := by rw [hb]; omega
    simp only [regionRead, readBuffer_draws, this, true_and]
    rw [show txBase + (a.toNat - 256) = a.toNat by unfold txBase; omega]
  · have : bufferAddr a.toNat = true := by rw [hb]; omega
    simp only [regionRead, readBuffer_draws, this, true_and]
    rw [show rxBase + (a.toNat - 512) = a.toNat by unfold rxBase; omega]
  · have : bufferAddr a.toNat = true := by rw [hb]; omega
    simp only [regionRead, readBuffer_draws, this, true_and]
    rw [show frameBase + (a.toNat - 1024) = a.toNat by unfold frameBase; omega]
  · have : bufferAddr a.toNat ≠ true := by rw [Ne, hb]; unfold reservedAddr at h; omega
    rw [if_neg (by simp [this])]; rfl

/-! ## Host writes -/

theorem storeIdle_busy (f : State → State) {s : State} (h : s.busy = true) : storeIdle f s = s := by
  rw [storeIdle, if_pos h]

theorem storeIdle_idle (f : State → State) {s : State} (h : s.busy = false) : storeIdle f s = f s := by
  rw [storeIdle, h]; rfl

/-! ## Cycles -/

theorem hostCycle_idle {s : State} (h : s.seq = .idle) (f : State → State) : hostCycle f s = f s := by
  simp [hostCycle, h]

theorem hostCycle_run {s : State} (h : s.seq ≠ .idle) (f : State → State) : hostCycle f s = tick (f s) := by
  unfold hostCycle
  split
  · contradiction
  · rfl

theorem idleCycle_eq_tick (s : State) : idleCycle s = tick s := by
  cases h : s.seq <;> simp [idleCycle, hostCycle, tick, h]

/-- A write the block drops is a cycle with no access, but for its place in the history. -/
theorem hostCycle_record (e : Event) (s : State) : hostCycle (record e) s = idleCycle (record e s) := by
  cases h : s.seq <;> simp [idleCycle, hostCycle, h]

/-- A cycle whose access leaves the sequencer's phase alone is that access, then a cycle without one. -/
theorem hostCycle_eq_idleCycle (f : State → State) (s : State) (h : (f s).seq = s.seq) :
    hostCycle f s = idleCycle (f s) := by
  rw [idleCycle_eq_tick]
  by_cases hs : s.seq = .idle
  · rw [hostCycle_idle hs]; unfold tick; rw [h, hs]
  · rw [hostCycle_run hs]

/-- While `BUSY` = 1, a write past `CMD` is dropped (40_host_bus.md R76). -/
theorem busWrite_busy {s : State} (hb : s.busy = true) (a : HostAddr) (d : Byte) (h3 : 3 ≤ a.toNat) :
    busWrite a d s = record (.busWr a d) s := by
  have hb' : (record (.busWr a d) s).busy = true := hb
  unfold busWrite
  rcases regionAt_cases a.toNat with ⟨h, e⟩ | ⟨h, e⟩ | ⟨h, e⟩ | ⟨h, e⟩ | ⟨h, e⟩ | ⟨h, e⟩ | ⟨h, e⟩ | ⟨h, e⟩ | ⟨h, e⟩ |
    ⟨h, e⟩ | ⟨h, e⟩ | ⟨h, e⟩ | ⟨h, e⟩ <;> rw [e] <;>
    first | rfl | (simp only [regionWrite]; exact storeIdle_busy _ hb') | (exfalso; omega)

/-- While `BUSY` = 1, a `CMD` write sets `ERR_BUSY` (60_exceptions.md R112). -/
theorem busWrite_cmd_busy {s : State} (hb : s.busy = true) (d : Byte) :
    busWrite 0x002#12 d s = { s with
      status := s.status ||| 0x10#8, events := s.events ++ [.busWr 0x002#12 d, .cmdReject d .busy] } := by
  change accept d (record (.busWr 0x002#12 d) s) = _
  have hb' : (record (.busWr 0x002#12 d) s).busy = true := hb
  simp only [accept, admission, hb', if_true]
  simp [rejectCommand, record, statusReject, setBit, errBit]

/-! ## Accepting a command (60_exceptions.md R112) -/

theorem admission_record (e : Event) (d : Byte) (s : State) : admission d (record e s) = admission d s := rfl

theorem commandOf_opByte (c : Command) : commandOf (opByte c) = some c := by cases c <;> decide

theorem commandOf_some {d : Byte} {c : Command} (h : commandOf d = some c) : d = opByte c := by
  revert h; unfold commandOf
  repeat' split
  all_goals intro h; cases h
  all_goals assumption

/-- What an accepted `CMD` write needs. -/
theorem admission_ok_iff (d : Byte) (c : Command) (s : State) :
    admission d s = .ok c ↔ s.busy = false ∧ s.en = true ∧ d = opByte c ∧ argsOk c s = true := by
  constructor
  · intro h
    unfold admission at h
    split at h
    · cases h
    · rename_i hb
      split at h
      · cases h
      · rename_i he
        split at h
        · cases h
        · rename_i c' hc
          split at h
          · cases h
            exact ⟨by simpa using hb, by simpa using he, commandOf_some hc, ‹_›⟩
          · cases h
  · rintro ⟨hb, he, rfl, ha⟩
    simp [admission, hb, he, commandOf_opByte, ha]

/-- A command's cycle at the accept, from an idle sequencer. -/
theorem accept_cycle {s : State} {c : Command} (hi : s.seq = .idle) (h : admission (opByte c) s = .ok c) :
    hostCycle (busWrite cmdAddr (opByte c)) s = startCommand c (record (.busWr cmdAddr (opByte c)) s) := by
  rw [hostCycle_idle hi]
  have hr : regionAt cmdAddr.toNat = .cmd := by decide
  simp only [busWrite, hr, regionWrite, accept, admission_record, h]

/-- `1 ≤ LEN ≤ 256` (60_exceptions.md R113). -/
theorem lenOk_iff (s : State) : lenOk s = true ↔ 1 ≤ s.len.toNat ∧ s.len.toNat ≤ 256 := by
  rw [lenOk, decide_eq_true_eq]; exact Iff.rfl

/-! ## Abort -/

/-- A cycle in which the host closes the channel of a running command is that command's abort: no edge of the
sequencer follows (40_host_bus.md R72, R75). -/
theorem abort_cycle {s : State} {d : Byte} (hb : s.busy = true) (hd : d.getLsbD 0 = false) :
    hostCycle (busWrite 0x000#12 d) s = abort (record (.busWr 0x000#12 d) s) := by
  have hb' : (record (.busWr 0x000#12 d) s).busy = true := hb
  have h1 : busWrite 0x000#12 d s = abort (record (.busWr 0x000#12 d) s) := by
    change ctrlWrite d (record (.busWr 0x000#12 d) s) = _
    rw [ctrlWrite, hb', if_pos rfl, hd]; rfl
  unfold hostCycle
  split
  · exact h1
  · rw [h1, tick, abort_seq]

end Sys2Proof.Machine
end

