-- ==== Sys2Proof/Laws/Wire.lean ====
section
/-! SUPPORT. Laws/Wire.lean: the cycle-level shift engine carries out the value-level exchange: how many cycles a wait,
a bit, a byte and a transaction take, and what they leave (41_spi_transceiver.md R84-R87). -/

namespace Sys2Proof.Machine

theorem ticks_add (m n : Nat) (s : State) : ticks (m + n) s = ticks n (ticks m s) := by
  induction m generalizing s with
  | zero => simp [ticks]
  | succ m ih => rw [Nat.succ_add]; exact ih (tick s)

/-- The state at the edge that ends a half-period wait. -/
def atWire (c : Command) (t : Txn) (w : Wire) (s : State) : State :=
  { s with seq := .run c (.txn t w), eng := { s.eng with halfCnt := 0 } }

theorem ticks_half {c : Command} {t : Txn} {w : Wire} (hw : w ≠ .gap) (k : Nat) (s : State)
    (hs : s.seq = .run c (.txn t w)) (hk : s.eng.halfCnt = k) :
    ticks (k + 1) s = wireEdge c t w (atWire c t w s) := by
  induction k generalizing s with
  | zero =>
    have : atWire c t w s = s := by
      cases s; rename_i eng _ _ _ _ _ _ _ _ _ _ _ _ ; cases eng; simp_all [atWire]
    rw [this]
    cases w <;> simp_all [ticks, tick, wireTick]
  | succ k ih =>
    have h1 : tick s = { s with eng := { s.eng with halfCnt := k } } := by
      cases w <;> simp_all [tick, wireTick]
    change ticks (k + 1) (tick s) = _
    rw [h1, ih _ (by simpa using hs) rfl]
    rfl

theorem ticks_enterWire {c : Command} {t : Txn} {w : Wire} (hw : w ≠ .gap) (s : State) :
    ticks s.halfPeriod (enterWire c t w s) = wireEdge c t w (atWire c t w s) :=
  ticks_half hw _ _ rfl rfl

theorem ticks_gap {c : Command} {t : Txn} (k : Nat) (s : State)
    (hs : s.seq = .run c (.txn t .gap)) (hk : s.eng.gapCnt = k) :
    ticks (k + 1) s = wireEdge c t .gap { s with eng := { s.eng with gapCnt := 0 } } := by
  induction k generalizing s with
  | zero =>
    have : ({ s with eng := { s.eng with gapCnt := 0 } } : State) = s := by
      cases s; rename_i eng _ _ _ _ _ _ _ _ _ _ _ _ ; cases eng; simp_all
    rw [this]
    simp_all [ticks, tick, wireTick]
  | succ k ih =>
    have h1 : tick s = { s with eng := { s.eng with gapCnt := k } } := by
      simp_all [tick, wireTick]
    change ticks (k + 1) (tick s) = _
    rw [h1, ih _ (by simpa using hs) rfl]

/-- The answer bits from bit `j` down, shifted into a receive register. -/
def shiftIn (a : Byte) : Nat → Byte → Byte
  | 0, r => (r <<< 1) ||| (BitVec.ofBool (a.getLsbD 0)).setWidth 8
  | j + 1, r => shiftIn a j ((r <<< 1) ||| (BitVec.ofBool (a.getLsbD (j + 1))).setWidth 8)

theorem shiftIn_byte (a : Byte) : shiftIn a 7 0#8 = a := by
  revert a; decide

/-- The state a bit leaves: its answer bit shifted in, the next bit moved up, SCLK idle. -/
def afterBit (c : Command) (t : Txn) (s : State) : State :=
  { s with
    seq := .run c (.txn t .bitSecond), mosi := s.eng.txSr.getLsbD 7, sclk := s.cpol
    eng := { s.eng with
      halfCnt := 0, txSr := s.eng.txSr <<< 1
      rxSr := (s.eng.rxSr <<< 1) ||| (BitVec.ofBool (s.eng.miso.getLsbD s.eng.bitCnt)).setWidth 8 } }

theorem endBit_sampleBit (c : Command) (t : Txn) (s : State) :
    endBit (atWire c t .bitSecond (sampleBit (atWire c t .bitFirst (beginBit s)))) = afterBit c t s := by
  simp only [endBit, atWire, sampleBit, beginBit, afterBit, State.cpol]

theorem beginBit_enterWire (c : Command) (t : Txn) (w : Wire) (s : State) :
    beginBit (enterWire c t w s) = enterWire c t w (beginBit s) := rfl

theorem ticks_bit (c : Command) (t : Txn) (s : State) :
    ticks (2 * s.halfPeriod) (beginBit (enterWire c t .bitFirst s)) =
      if s.eng.bitCnt = 0 then endByte c t (afterBit c t s)
      else beginBit (enterWire c t .bitFirst
        { afterBit c t s with eng := { (afterBit c t s).eng with bitCnt := s.eng.bitCnt - 1 } }) := by
  have h1 := ticks_enterWire (c := c) (t := t) (w := .bitFirst) (by simp) (beginBit s)
  have h2 := ticks_enterWire (c := c) (t := t) (w := .bitSecond) (by simp)
    (sampleBit (atWire c t .bitFirst (beginBit s)))
  have e1 : (beginBit s).halfPeriod = s.halfPeriod := rfl
  have e2 : (sampleBit (atWire c t .bitFirst (beginBit s))).halfPeriod = s.halfPeriod := rfl
  have e3 : (afterBit c t s).eng.bitCnt = s.eng.bitCnt := rfl
  rw [e1] at h1
  rw [e2] at h2
  rw [Nat.two_mul, ticks_add, beginBit_enterWire, h1]
  simp only [wireEdge] at h2 ⊢
  rw [h2, endBit_sampleBit, e3]

theorem ticks_bits (c : Command) (t : Txn) (j : Nat) (s : State) (hj : s.eng.bitCnt = j) :
    ∃ e b, ticks (2 * s.halfPeriod * (j + 1)) (beginBit (enterWire c t .bitFirst s)) =
        endByte c t { s with seq := .run c (.txn t .bitSecond), eng := e, mosi := b, sclk := s.cpol } ∧
      e.out = s.eng.out ∧ e.inn = s.eng.inn ∧ e.byteIdx = s.eng.byteIdx ∧
      e.rxSr = shiftIn s.eng.miso j s.eng.rxSr := by
  induction j generalizing s with
  | zero =>
    refine ⟨(afterBit c t s).eng, (afterBit c t s).mosi, ?_, rfl, rfl, rfl, by simp [afterBit, shiftIn, hj]⟩
    rw [Nat.zero_add, Nat.mul_one, ticks_bit, if_pos hj]
    rfl
  | succ j ih =>
    obtain ⟨e, b, h, ho, hi, hb, hr⟩ := ih
      { afterBit c t s with eng := { (afterBit c t s).eng with bitCnt := s.eng.bitCnt - 1 } }
      (by simp [hj])
    refine ⟨e, b, ?_, ho, hi, hb, ?_⟩
    · rw [show 2 * s.halfPeriod * (j + 1 + 1) = 2 * s.halfPeriod + 2 * s.halfPeriod * (j + 1) by ring,
        ticks_add, ticks_bit, if_neg (by simp [hj])]
      exact h
    · simpa [afterBit, shiftIn, hj] using hr

theorem ticks_byte (c : Command) (t : Txn) (i : Nat) (s : State) :
    ∃ e b, ticks (16 * s.halfPeriod) (beginByte c t i s) =
        endByte c t { dropAnswers 1 s with seq := .run c (.txn t .bitSecond), eng := e, mosi := b, sclk := s.cpol } ∧
      e.out = s.eng.out ∧ e.inn = s.eng.inn ∧ e.byteIdx = i ∧ e.rxSr = s.answer 0 := by
  obtain ⟨e, b, h, ho, hi, hb, hr⟩ := ticks_bits c t 7
    { dropAnswers 1 s with
      eng := { s.eng with txSr := s.eng.out.getD i 0#8, rxSr := 0#8, bitCnt := 7, byteIdx := i, miso := s.answer 0 } }
    rfl
  refine ⟨e, b, ?_, ho, hi, hb, by simpa [shiftIn_byte] using hr⟩
  rw [show 16 * s.halfPeriod = 2 * s.halfPeriod * (7 + 1) by ring]
  exact h

theorem answer_dropAnswers (m i : Nat) (s : State) : (dropAnswers m s).answer i = s.answer (m + i) := by
  simp only [State.answer, dropAnswers, List.getElem?_drop, List.length_drop]
  by_cases h : m + i < s.answers.length
  · simp [List.getElem?_eq_getElem h]
  · rw [List.getElem?_eq_none (by omega)]
    congr 2; omega

theorem answerList_succ (m : Nat) (s : State) :
    s.answerList (m + 1) = s.answer 0 :: (dropAnswers 1 s).answerList m := by
  simp only [State.answerList, List.range_succ_eq_map, List.map_cons, List.map_map]
  congr 1
  apply List.map_congr_left
  intro i _
  simp [answer_dropAnswers, Nat.add_comm]

theorem dropAnswers_dropAnswers (m n : Nat) (s : State) :
    dropAnswers n (dropAnswers m s) = dropAnswers (m + n) s := by
  simp only [dropAnswers, List.drop_drop, List.length_drop]
  congr 1; omega

theorem dropAnswers_zero (s : State) : dropAnswers 0 s = s := by simp [dropAnswers]

/-- `s` with `n` answers taken and its sequencer, shift engine, SCLK and MOSI as given: what a transaction changes
before it ends. -/
def onWire (s : State) (n : Nat) (q : Seq) (e : Engine) (clk out : Bool) : State :=
  { dropAnswers n s with seq := q, eng := e, sclk := clk, mosi := out }

theorem onWire_gapCycles (s : State) (n q e clk out) : (onWire s n q e clk out).gapCycles = s.gapCycles := rfl
theorem onWire_halfPeriod (s : State) (n q e clk out) : (onWire s n q e clk out).halfPeriod = s.halfPeriod := rfl
theorem onWire_answer (s : State) (n q e clk out) (i : Nat) :
    (onWire s n q e clk out).answer i = s.answer (n + i) := answer_dropAnswers n i s
theorem onWire_onWire (s : State) (n q e clk out) (m q' e' clk' out') :
    ({ dropAnswers m (onWire s n q e clk out) with seq := q', eng := e', mosi := out', sclk := clk' } : State) =
      onWire s (n + m) q' e' clk' out' := by
  simp only [onWire, ← dropAnswers_dropAnswers]
  rfl

theorem ticks_byte_onWire (c : Command) (t : Txn) (i : Nat) (s : State) (n q e clk out)  :
    ∃ e' out', ticks (16 * s.halfPeriod) (beginByte c t i (onWire s n q e clk out)) =
        endByte c t (onWire s (n + 1) (.run c (.txn t .bitSecond)) e' s.cpol out') ∧
      e'.out = e.out ∧ e'.inn = e.inn ∧ e'.byteIdx = i ∧ e'.rxSr = s.answer n := by
  obtain ⟨e', b, h, ho, hi, hb, hr⟩ := ticks_byte c t i (onWire s n q e clk out)
  rw [onWire_onWire, onWire_halfPeriod] at h
  exact ⟨e', b, h, ho, hi, hb, by rw [hr, onWire_answer, Nat.add_zero]⟩

theorem endByte_onWire (c : Command) (t : Txn) (s : State) (n q e clk out) :
    endByte c t (onWire s n q e clk out) =
      if e.byteIdx + 1 < e.out.length then
        if s.gapCycles = 0 then
          beginByte c t (e.byteIdx + 1) (onWire s n q { e with inn := e.inn ++ [e.rxSr] } clk out)
        else onWire s n (.run c (.txn t .gap)) { e with inn := e.inn ++ [e.rxSr], gapCnt := s.gapCycles - 1 } clk out
      else enterWire c t .hold (onWire s n q { e with inn := e.inn ++ [e.rxSr] } clk out) := rfl

theorem ticks_bytes (c : Command) (t : Txn) (s : State) (d i n q e clk out)
    (hd : i + d + 1 = e.out.length) :
    ∃ q' e' out', ticks (16 * s.halfPeriod * (d + 1) + s.gapCycles * d) (beginByte c t i (onWire s n q e clk out)) =
        enterWire c t .hold (onWire s (n + d + 1) q' e' s.cpol out') ∧
      e'.out = e.out ∧ e'.inn = e.inn ++ (dropAnswers n s).answerList (d + 1) := by
  induction d generalizing i n q e clk out with
  | zero =>
    obtain ⟨e', b, h, ho, hi, hb, hr⟩ := ticks_byte_onWire c t i s n q e clk out
    rw [endByte_onWire, if_neg (by rw [ho, hb]; omega)] at h
    refine ⟨.run c (.txn t .bitSecond), { e' with inn := e'.inn ++ [e'.rxSr] }, b, ?_, ho, ?_⟩
    · rw [Nat.mul_zero, Nat.zero_add, Nat.add_zero, Nat.add_zero, Nat.mul_one, h]
    · simp [hi, hr, State.answerList, answer_dropAnswers]
  | succ d ih =>
    obtain ⟨e', b, h, ho, hi, hb, hr⟩ := ticks_byte_onWire c t i s n q e clk out
    rw [endByte_onWire, if_pos (by rw [ho, hb]; omega), hb, hi, hr] at h
    have ans : (dropAnswers n s).answerList (d + 1 + 1) =
        s.answer n :: (dropAnswers (n + 1) s).answerList (d + 1) := by
      rw [answerList_succ, answer_dropAnswers, dropAnswers_dropAnswers, Nat.add_zero]
    have hticks : ∃ q₁ e₁, ticks (16 * s.halfPeriod + s.gapCycles) (beginByte c t i (onWire s n q e clk out)) =
        beginByte c t (i + 1) (onWire s (n + 1) q₁ e₁ s.cpol b) ∧ e₁.out = e.out ∧ e₁.inn = e.inn ++ [s.answer n] := by
      rw [ticks_add, h]
      split
      · rename_i hz; rw [hz]; exact ⟨_, _, rfl, ho, rfl⟩
      · obtain ⟨k, hk⟩ := Nat.exists_eq_succ_of_ne_zero ‹_›
        rw [hk, Nat.succ_sub_one, ticks_gap k _ rfl rfl]
        exact ⟨.run c (.txn t .gap), { e' with
          rxSr := s.answer n, byteIdx := i, inn := e.inn ++ [s.answer n], gapCnt := 0 }, rfl, ho, rfl⟩
    obtain ⟨q₁, e₁, h₁, ho₁, hi₁⟩ := hticks
    obtain ⟨q₂, e₂, b₂, h₂, ho₂, hi₂⟩ := ih (i + 1) (n + 1) q₁ e₁ s.cpol b (by rw [ho₁]; omega)
    refine ⟨q₂, e₂, b₂, ?_, ho₂.trans ho₁, ?_⟩
    · rw [show 16 * s.halfPeriod * (d + 1 + 1) + s.gapCycles * (d + 1) =
          (16 * s.halfPeriod + s.gapCycles) + (16 * s.halfPeriod * (d + 1) + s.gapCycles * d) by ring,
        ticks_add, h₁, h₂, show n + 1 + d + 1 = n + (d + 1) + 1 by omega]
    · rw [hi₂, hi₁, ans, List.append_assoc]; rfl

theorem ticks_hold (c : Command) (t : Txn) (s : State) :
    ticks (3 * s.halfPeriod) (enterWire c t .hold s) =
      afterTxn c t s.eng.inn (record (.txn s.eng.out s.eng.inn)
        { driveNcs true s with mosi := false, seq := .run c (.txn t .highSecond), eng := Engine.idle }) := by
  have h2 := ticks_enterWire (c := c) (t := t) (w := .hold) (by simp) s
  have h3 := ticks_enterWire (c := c) (t := t) (w := .highFirst) (by simp)
    { driveNcs true (atWire c t .hold s) with mosi := false }
  have h4 := ticks_enterWire (c := c) (t := t) (w := .highSecond) (by simp)
    (atWire c t .highFirst { driveNcs true (atWire c t .hold s) with mosi := false })
  rw [show 3 * s.halfPeriod = s.halfPeriod + (s.halfPeriod + s.halfPeriod) by ring, ticks_add, h2, ticks_add]
  simp only [wireEdge, releaseTxn] at h3 h4 ⊢
  rw [show s.halfPeriod = ({ driveNcs true (atWire c t .hold s) with mosi := false } : State).halfPeriod from rfl, h3]
  exact h4

/-- A transaction from its start to its hold wait: its bytes are clocked and its answers are complete. -/
theorem ticks_toHold (c : Command) (t : Txn) (s : State) (h : (txnBytes c t s).1 ≠ []) :
    ∃ q e b, ticks (s.txnCycles (txnBytes c t s).1.length - 3 * s.halfPeriod) (beginTxn c t s) =
        enterWire c t .hold (onWire (driveNcs false { s with draws := (txnBytes c t s).2 })
          (txnBytes c t s).1.length q e s.cpol b) ∧
      e.out = (txnBytes c t s).1 ∧
      e.inn = State.answerList { s with draws := (txnBytes c t s).2 } (txnBytes c t s).1.length := by
  generalize hp : txnBytes c t s = p at h ⊢
  obtain ⟨m, hm⟩ : ∃ m, p.1.length = m + 1 :=
    ⟨p.1.length - 1, by have := List.length_pos_iff.mpr h; omega⟩
  generalize hs0 : driveNcs false { s with draws := p.2 } = s0
  have e0 : s0.halfPeriod = s.halfPeriod := by subst hs0; rfl
  have e1 : s0.gapCycles = s.gapCycles := by subst hs0; rfl
  have e2 : s0.cpol = s.cpol := by subst hs0; rfl
  have e3 : ∀ n, s0.answerList n = State.answerList { s with draws := p.2 } n := by intro n; subst hs0; rfl
  have h0 : ticks s.halfPeriod (beginTxn c t s) =
      beginByte c t 0 (onWire s0 0 (.run c (.txn t .setup)) { Engine.idle with out := p.1 } s.sclk s.mosi) := by
    have := ticks_enterWire (c := c) (t := t) (w := .setup) (by simp)
      (driveNcs false { s with draws := p.2, eng := { Engine.idle with out := p.1 } })
    simp only [beginTxn, hp]
    subst hs0
    simp only [wireEdge] at this
    simp only [onWire, dropAnswers_zero]
    exact this
  obtain ⟨q', e', b', h1, ho, hi⟩ := ticks_bytes c t s0 m 0 0
    (.run c (.txn t .setup)) { Engine.idle with out := p.1 } s.sclk s.mosi (by simp [hm])
  rw [dropAnswers_zero] at hi
  rw [e0, e1, e2, Nat.zero_add, ← hm] at h1
  refine ⟨q', e', b', ?_, ho, ?_⟩
  · rw [show s.txnCycles p.1.length - 3 * s.halfPeriod =
        s.halfPeriod + (16 * s.halfPeriod * p.1.length + s.gapCycles * m) by
      rw [hm, State.txnCycles, State.gapCycles, Nat.add_sub_cancel]
      have : s.halfPeriod * (1 + 16 * (m + 1) + s.gap.toNat * m + 1 + 2) =
        s.halfPeriod + (16 * s.halfPeriod * (m + 1) + s.gap.toNat * s.halfPeriod * m) + 3 * s.halfPeriod := by ring
      omega,
      ticks_add, h0, h1]
  · rw [hi, ← e3, ← hm]; rfl

/-- A transaction, edge by edge, is the value-level exchange and what the command does with its answers
(41_spi_transceiver.md R79, R84, R87). -/
theorem ticks_txn (c : Command) (t : Txn) (s : State) (h : (txnBytes c t s).1 ≠ []) :
    ticks (s.txnCycles (txnBytes c t s).1.length) (beginTxn c t s) =
      afterTxn c t (spiTxn (txnBytes c t s).1 { s with draws := (txnBytes c t s).2 }).1
        { (spiTxn (txnBytes c t s).1 { s with draws := (txnBytes c t s).2 }).2 with
          seq := .run c (.txn t .highSecond) } := by
  obtain ⟨q, e, b, h1, ho, hi⟩ := ticks_toHold c t s h
  generalize txnBytes c t s = p at h h1 ho hi ⊢
  have h2 := ticks_hold c t (onWire (driveNcs false { s with draws := p.2 }) p.1.length q e s.cpol b)
  have hH : (onWire (driveNcs false { s with draws := p.2 }) p.1.length q e s.cpol b).halfPeriod = s.halfPeriod := rfl
  rw [hH] at h2
  have hT : 3 * s.halfPeriod ≤ s.txnCycles p.1.length := by
    rw [State.txnCycles, Nat.mul_comm]; apply Nat.mul_le_mul_left; omega
  rw [show s.txnCycles p.1.length = s.txnCycles p.1.length - 3 * s.halfPeriod + 3 * s.halfPeriod by omega,
    ticks_add, h1, h2]
  have hs : record (.txn p.1 e.inn) { driveNcs true
        (onWire (driveNcs false { s with draws := p.2 }) p.1.length q e s.cpol b) with
        mosi := false, seq := .run c (.txn t .highSecond), eng := Engine.idle } =
      { (spiTxn p.1 { s with draws := p.2 }).2 with seq := .run c (.txn t .highSecond) } := by
    simp only [spiTxn, hi, record, driveNcs, onWire, dropAnswers, State.csManual, State.cpol]
    by_cases hz : s.ctrl.getLsbD 3 = true
    · simp only [hz, if_true]
    · simp only [hz]; rfl
  have he : (onWire (driveNcs false { s with draws := p.2 }) p.1.length q e s.cpol b).eng = e := rfl
  rw [he, ho, hs, hi]
  rfl

/-- Within a half-period wait only its counter runs. -/
theorem ticks_within_half {c : Command} {t : Txn} {w : Wire} (hw : w ≠ .gap) (k : Nat) (s : State)
    (hs : s.seq = .run c (.txn t w)) (hk : k ≤ s.eng.halfCnt) :
    ticks k s = { s with eng := { s.eng with halfCnt := s.eng.halfCnt - k } } := by
  induction k generalizing s with
  | zero => rfl
  | succ k ih =>
    have h1 : tick s = { s with eng := { s.eng with halfCnt := s.eng.halfCnt - 1 } } := by
      have : s.eng.halfCnt ≠ 0 := by omega
      cases w <;> simp_all [tick, wireTick]
    change ticks k (tick s) = _
    rw [h1, ih _ (by simpa using hs) (by simp only; omega)]
    simp only [Nat.sub_sub, Nat.add_comm 1 k]

theorem ticks_idle (k : Nat) (s : State) (h : s.seq = .idle) : ticks k s = s := by
  induction k with
  | zero => rfl
  | succ k ih => change ticks k (tick s) = s; rw [show tick s = s by simp [tick, h], ih]

/-- In every cycle before its end a transaction's command is running. -/
theorem ticks_txn_running (c : Command) (t : Txn) (s : State) (h : (txnBytes c t s).1 ≠ []) (k : Nat)
    (hk : k < s.txnCycles (txnBytes c t s).1.length) : (ticks k (beginTxn c t s)).seq ≠ .idle := by
  obtain ⟨q, e, b, h1, -, -⟩ := ticks_toHold c t s h
  generalize txnBytes c t s = p at h h1 hk ⊢
  generalize hv : onWire (driveNcs false { s with draws := p.2 }) p.1.length q e s.cpol b = v at h1
  have hH : v.halfPeriod = s.halfPeriod := by subst hv; rfl
  have hpos : 0 < s.halfPeriod := Nat.succ_pos _
  have hT : 3 * s.halfPeriod ≤ s.txnCycles p.1.length := by
    rw [State.txnCycles, Nat.mul_comm]; apply Nat.mul_le_mul_left; omega
  have h2 := ticks_enterWire (c := c) (t := t) (w := .hold) (by simp) v
  simp only [wireEdge, releaseTxn] at h2
  have h3 := ticks_enterWire (c := c) (t := t) (w := .highFirst) (by simp)
    { driveNcs true (atWire c t .hold v) with mosi := false }
  simp only [wireEdge] at h3
  generalize hu : atWire c t .highFirst { driveNcs true (atWire c t .hold v) with mosi := false } = u at h3
  have hU : u.halfPeriod = s.halfPeriod := by subst hu; exact hH
  have h4 := ticks_within_half (c := c) (t := t) (w := .highSecond) (by simp) (s.halfPeriod - 1)
    (enterWire c t .highSecond u) rfl (by rw [← hU]; exact Nat.le_refl _)
  have hlast : (ticks (s.txnCycles p.1.length - 1) (beginTxn c t s)).seq = .run c (.txn t .highSecond) := by
    rw [show s.txnCycles p.1.length - 1 = s.txnCycles p.1.length - 3 * s.halfPeriod +
        (s.halfPeriod + (s.halfPeriod + (s.halfPeriod - 1))) by omega, ticks_add, h1, ticks_add, ← hH, h2]
    have e : v.halfPeriod = State.halfPeriod { driveNcs true (atWire c t .hold v) with mosi := false } := rfl
    rw [ticks_add, e, h3, ← e, hH, h4]
    rfl
  intro hi
  have := ticks_idle (s.txnCycles p.1.length - 1 - k) _ hi
  rw [← ticks_add, show k + (s.txnCycles p.1.length - 1 - k) = s.txnCycles p.1.length - 1 by omega] at this
  rw [this, hi] at hlast
  cases hlast

/-! ## Inside a byte -/

/-- The first `j` bits of a byte: the next one begins, `j` places further (41_spi_transceiver.md R85). -/
theorem ticks_toBit (c : Command) (t : Txn) (j : Nat) (s : State) (hj : j ≤ s.eng.bitCnt) (hs : s.sclk = s.cpol) :
    ∃ v, ticks (2 * s.halfPeriod * j) (beginBit (enterWire c t .bitFirst s)) = beginBit (enterWire c t .bitFirst v) ∧
      v.eng.txSr = s.eng.txSr <<< j ∧ v.ctrl = s.ctrl ∧ v.halfPeriod = s.halfPeriod ∧ v.sclk = v.cpol := by
  induction j generalizing s with
  | zero => exact ⟨s, by rfl, by simp, rfl, rfl, hs⟩
  | succ j ih =>
    have h := ticks_bit c t s
    rw [if_neg (by omega)] at h
    generalize hu : ({ afterBit c t s with
      eng := { (afterBit c t s).eng with bitCnt := s.eng.bitCnt - 1 } } : State) = u at h
    have h1 : u.eng.bitCnt = s.eng.bitCnt - 1 := by subst hu; rfl
    have h2 : u.eng.txSr = s.eng.txSr <<< 1 := by subst hu; rfl
    have h3 : u.ctrl = s.ctrl := by subst hu; rfl
    have h4 : u.halfPeriod = s.halfPeriod := by subst hu; rfl
    have h5 : u.sclk = u.cpol := by subst hu; rfl
    obtain ⟨v, hv, v1, v2, v3, v4⟩ := ih u (by omega) h5
    refine ⟨v, ?_, ?_, v2.trans h3, v3.trans h4, v4⟩
    · rw [show 2 * s.halfPeriod * (j + 1) = 2 * s.halfPeriod + 2 * s.halfPeriod * j by ring, ticks_add, h, ← h4, hv]
    · rw [v1, h2, ← BitVec.shiftLeft_add, Nat.add_comm]

/-- The pins in cycle `i` of a bit (41_spi_transceiver.md R85). -/
theorem ticks_inBit (c : Command) (t : Txn) (i : Nat) (s : State) (hs : s.sclk = s.cpol) (hi : i < 2 * s.halfPeriod) :
    (ticks i (beginBit (enterWire c t .bitFirst s))).mosi = s.eng.txSr.getLsbD 7 ∧
    (ticks i (beginBit (enterWire c t .bitFirst s))).sclk =
      if i < s.halfPeriod then (if s.cpha then !s.cpol else s.cpol) else (if s.cpha then s.cpol else !s.cpol) := by
  have hH : s.halfPeriod = s.clkdiv.toNat + 1 := rfl
  by_cases h : i < s.halfPeriod
  · rw [ticks_within_half (c := c) (t := t) (w := .bitFirst) (by simp) i _ rfl (show i ≤ s.clkdiv.toNat by omega),
        if_pos h]
    refine ⟨rfl, ?_⟩
    show (if s.cpha then !s.cpol else s.sclk) = _
    rw [hs]
  · have h1 := ticks_enterWire (c := c) (t := t) (w := .bitFirst) (by simp) (beginBit s)
    rw [show (beginBit s).halfPeriod = s.halfPeriod from rfl] at h1
    rw [if_neg h, show i = s.halfPeriod + (i - s.halfPeriod) by omega, ticks_add, beginBit_enterWire, h1, wireEdge,
      ticks_within_half (c := c) (t := t) (w := .bitSecond) (by simp) _ _ rfl
        (show i - s.halfPeriod ≤ s.clkdiv.toNat by omega)]
    exact ⟨rfl, rfl⟩

theorem endByte_inn (c : Command) (t : Txn) (s : State) : (endByte c t s).eng.inn = s.eng.inn ++ [s.eng.rxSr] := by
  unfold endByte
  split
  · split <;> rfl
  · rfl

end Sys2Proof.Machine
end

