-- ==== Sys2Proof/Laws/Exchange.lean ====
section
/-! SUPPORT. Laws/Exchange.lean: the value-level exchange, the operands and answers of a command, and what the pixel
reads of `FRAME` leave (41_spi_transceiver.md R79, 44_frame.md R106, R107). -/

namespace Sys2Proof.Machine

/-! ## The value-level exchange, field by field -/

theorem spiTxn_fst (out : List Byte) (s : State) : (spiTxn out s).1 = s.answerList out.length := rfl

@[simp] theorem spiTxn_ctrl (out : List Byte) (s : State) : (spiTxn out s).2.ctrl = s.ctrl := rfl
@[simp] theorem spiTxn_status (out : List Byte) (s : State) : (spiTxn out s).2.status = s.status := rfl
@[simp] theorem spiTxn_addr (out : List Byte) (s : State) : (spiTxn out s).2.addr = s.addr := rfl
@[simp] theorem spiTxn_len (out : List Byte) (s : State) : (spiTxn out s).2.len = s.len := rfl
@[simp] theorem spiTxn_clkdiv (out : List Byte) (s : State) : (spiTxn out s).2.clkdiv = s.clkdiv := rfl
@[simp] theorem spiTxn_gap (out : List Byte) (s : State) : (spiTxn out s).2.gap = s.gap := rfl
@[simp] theorem spiTxn_settle (out : List Byte) (s : State) : (spiTxn out s).2.settle = s.settle := rfl
@[simp] theorem spiTxn_mot (out : List Byte) (s : State) : (spiTxn out s).2.mot = s.mot := rfl
@[simp] theorem spiTxn_mem (out : List Byte) (s : State) : (spiTxn out s).2.mem = s.mem := rfl
@[simp] theorem spiTxn_seq (out : List Byte) (s : State) : (spiTxn out s).2.seq = s.seq := rfl
@[simp] theorem spiTxn_eng (out : List Byte) (s : State) : (spiTxn out s).2.eng = Engine.idle := rfl
@[simp] theorem spiTxn_rxSh (out : List Byte) (s : State) : (spiTxn out s).2.rxSh = s.rxSh := rfl
@[simp] theorem spiTxn_frameSh (out : List Byte) (s : State) : (spiTxn out s).2.frameSh = s.frameSh := rfl
@[simp] theorem spiTxn_motSh (out : List Byte) (s : State) : (spiTxn out s).2.motSh = s.motSh := rfl
@[simp] theorem spiTxn_ncs (out : List Byte) (s : State) :
    (spiTxn out s).2.ncs = (if s.csManual then s.ncs else true) := rfl
@[simp] theorem spiTxn_sclk (out : List Byte) (s : State) : (spiTxn out s).2.sclk = s.cpol := rfl
@[simp] theorem spiTxn_mosi (out : List Byte) (s : State) : (spiTxn out s).2.mosi = false := rfl
@[simp] theorem spiTxn_busRdata (out : List Byte) (s : State) : (spiTxn out s).2.busRdata = s.busRdata := rfl
@[simp] theorem spiTxn_host (out : List Byte) (s : State) : (spiTxn out s).2.host = s.host := rfl
@[simp] theorem spiTxn_answers (out : List Byte) (s : State) : (spiTxn out s).2.answers = s.answers.drop out.length :=
  rfl
@[simp] theorem spiTxn_sensorDraws (out : List Byte) (s : State) :
    (spiTxn out s).2.sensorDraws = s.sensorDraws + (out.length - s.answers.length) := rfl
@[simp] theorem spiTxn_draws (out : List Byte) (s : State) : (spiTxn out s).2.draws = s.draws := rfl
@[simp] theorem spiTxn_events (out : List Byte) (s : State) :
    (spiTxn out s).2.events = s.events ++ [.txn out (s.answerList out.length)] := rfl
/-! ## Answers and operands -/

theorem answerList_length (s : State) (m : Nat) : (s.answerList m).length = m := by simp [State.answerList]

theorem answerList_getElem? (s : State) (m i : Nat) (h : i < m) : (s.answerList m)[i]? = some (s.answer i) := by
  simp [State.answerList, h]

theorem answerList_getD (s : State) (m i : Nat) (d : Byte) (h : i < m) : (s.answerList m).getD i d = s.answer i := by
  simp [List.getD, answerList_getElem? s m i h]

theorem txBytes_length (m : List Host.Cell) (a n k : Nat) : (txBytes m a n k).1.length = n := by
  induction n generalizing a k with
  | zero => rfl
  | succ n ih => simp [txBytes, ih]

/-- A byte that has been written is sent as written. -/
theorem txBytes_getElem? (m : List Host.Cell) (a n k i : Nat) (b : Byte) (hi : i < n)
    (h : Memory.lookup m (a + i) = some b) : (txBytes m a n k).1[i]? = some b := by
  induction n generalizing a k i with
  | zero => omega
  | succ n ih =>
    cases i with
    | zero => simp only [Nat.add_zero] at h; simp [txBytes, txByte, h]
    | succ i =>
      simp only [txBytes, List.getElem?_cons_succ]
      exact ih (a + 1) _ i (by omega) (by rw [Nat.add_assoc, Nat.add_comm 1 i]; exact h)

theorem readFraming_length (a : Byte) (n : Nat) : (readFraming a n).length = n + 1 := by simp [readFraming]

theorem writeFraming_length (a : Byte) (bs : List Byte) : (writeFraming a bs).length = bs.length + 1 := by
  simp [writeFraming]

theorem bulkFraming_length (n : Nat) : (bulkFraming n).length = 2 * n := by
  induction n with
  | zero => rfl
  | succ n ih => simp [bulkFraming, ih]; omega

/-- The pixels of a bulk read are the answers with an odd index, masked (44_frame.md R107). -/
theorem bulkPixels_length : ∀ (n : Nat) (inn : List Byte), inn.length = 2 * n → (bulkPixels inn).length = n
  | 0, inn, h => by
    have : inn = [] := List.length_eq_zero_iff.mp h
    subst this; rfl
  | n + 1, x :: p :: rest, h => by
    have := bulkPixels_length n rest (by simp only [List.length_cons] at h; omega)
    simp [bulkPixels, this]
  | n + 1, [x], h => by simp only [List.length_cons, List.length_nil] at h; omega
  | n + 1, [], h => by simp only [List.length_nil] at h; omega

theorem bulkPixels_getElem? : ∀ (inn : List Byte) (k : Nat) (b : Byte), inn[2 * k + 1]? = some b →
    (bulkPixels inn)[k]? = some (pixel b)
  | x :: p :: rest, 0, b, h => by simpa [bulkPixels] using congrArg (Option.map pixel) h
  | x :: p :: rest, k + 1, b, h => by
    simp only [bulkPixels, List.getElem?_cons_succ]
    exact bulkPixels_getElem? rest k b (by simpa [show 2 * (k + 1) + 1 = 2 * k + 1 + 1 + 1 by ring] using h)
  | [x], k, b, h => by simp at h
  | [], k, b, h => by simp at h

theorem mem_bulkPixels : ∀ (inn : List Byte) (b : Byte), b ∈ bulkPixels inn → b.toNat ≤ 63
  | x :: p :: rest, b, h => by
    simp only [bulkPixels, List.mem_cons] at h
    rcases h with rfl | h
    · exact pixel_le p
    · exact mem_bulkPixels rest b h
  | [x], b, h => by simp [bulkPixels] at h
  | [], b, h => by simp [bulkPixels] at h

/-! ## A command as one instruction -/

theorem commandRun_ok {s : State} {c : Command} (hi : s.seq = .idle) (h : admission (opByte c) s = .ok c)
    (body : State → State) :
    commandRun (opByte c) body s = body (startCommand c (record (.busWr cmdAddr (opByte c)) s)) := by
  simp only [commandRun, h, accept_cycle hi h]

theorem commandRun_error {s : State} {d : Byte} {k : ErrKind} (h : admission d s = .error k) (body : State → State) :
    commandRun d body s = hostCycle (busWrite cmdAddr d) s := by
  simp only [commandRun, h]

/-! ## The pixel reads of `FRAME` -/

/-- The pins and the shift engine between two transactions of a command (41_spi_transceiver.md R81, R82). -/
def Between (s : State) : Prop :=
  s.eng = Engine.idle ∧ s.sclk = s.cpol ∧ s.mosi = false ∧ (s.csManual = false → s.ncs = true)

theorem spiTxn_between (out : List Byte) (s : State) : Between (spiTxn out s).2 :=
  ⟨rfl, rfl, rfl, by intro h; have h' : s.csManual = false := h; simp [h']⟩

/-- A transaction from between two transactions takes answers and records its event, and nothing else. -/
theorem spiTxn_of_between (out : List Byte) {s : State} (h : Between s) :
    (spiTxn out s).2 = record (.txn out (s.answerList out.length)) (dropAnswers out.length s) := by
  obtain ⟨h1, h2, h3, h4⟩ := h
  have hn : (if s.csManual then s.ncs else true) = s.ncs := by
    cases hc : s.csManual
    · simp [h4 hc]
    · simp
  have e1 : (dropAnswers out.length s).cpol = s.cpol := rfl
  have e2 : (dropAnswers out.length s).csManual = s.csManual := rfl
  unfold spiTxn driveNcs
  simp only [e2, dropAnswers_ncs, hn]
  unfold record dropAnswers
  simp only [State.cpol] at h2
  simp only [State.cpol, ← h1, ← h2, ← h3]

/-- The pixels `n` single-pixel reads take: the answer to the fill byte of each pair, masked (44_frame.md R106). -/
def State.pixels (s : State) (n : Nat) : List Byte := (List.range n).map fun k => pixel (s.answer (2 * k + 1))

/-- The events of `n` single-pixel reads. -/
def State.pixelTxns (s : State) (n : Nat) : List Event :=
  (List.range n).map fun k => .txn (readFraming Config.frameCapture 1) [s.answer (2 * k), s.answer (2 * k + 1)]

theorem pixels_succ (s : State) (n : Nat) :
    s.pixels (n + 1) = pixel (s.answer 1) :: (dropAnswers 2 s).pixels n := by
  simp only [State.pixels, List.range_succ_eq_map, List.map_cons, List.map_map, Nat.mul_zero, Nat.zero_add]
  congr 1
  apply List.map_congr_left
  intro k _
  simp only [Function.comp_apply, answer_dropAnswers]
  congr 2; omega

theorem pixelTxns_succ (s : State) (n : Nat) :
    s.pixelTxns (n + 1) =
      .txn (readFraming Config.frameCapture 1) [s.answer 0, s.answer 1] :: (dropAnswers 2 s).pixelTxns n := by
  simp only [State.pixelTxns, List.range_succ_eq_map, List.map_cons, List.map_map, Nat.mul_zero, Nat.zero_add]
  congr 1
  apply List.map_congr_left
  intro k _
  simp only [Function.comp_apply, answer_dropAnswers]
  rw [show 2 * (k + 1) = 2 + 2 * k by ring, show 2 + 2 * k + 1 = 2 + (2 * k + 1) by ring]

/-- `s` with `n` single-pixel reads from pixel `k` on done (44_frame.md R106). -/
def pixelsRead (n k : Nat) (s : State) : State :=
  { dropAnswers (2 * n) s with frameSh := s.frameSh.take k ++ s.pixels n, events := s.events ++ s.pixelTxns n }

theorem frameSingle_eq (n k : Nat) (s : State) (h : Between s) :
    frameSingle (n + 1) k s = pixelsRead (n + 1) k s := by
  induction n generalizing s k with
  | zero =>
    have hl : (readFraming Config.frameCapture 1).length = 2 := rfl
    have ha : s.answerList 2 = [s.answer 0, s.answer 1] := rfl
    simp only [frameSingle, spiTxn_of_between _ h, spiTxn_fst, hl, ha]
    simp [pixelsRead, State.pixels, State.pixelTxns, singlePixel, keepPixel, record, dropAnswers]
  | succ n ih =>
    have hl : (readFraming Config.frameCapture 1).length = 2 := rfl
    have ha : s.answerList 2 = [s.answer 0, s.answer 1] := rfl
    rw [frameSingle]
    simp only [spiTxn_of_between _ h, spiTxn_fst, hl, ha]
    generalize he : Event.txn (readFraming Config.frameCapture 1) [s.answer 0, s.answer 1] = e
    have hb : Between (keepPixel k [s.answer 0, s.answer 1] (record e (dropAnswers 2 s))) := h
    rw [ih _ _ hb]
    have h1 : (keepPixel k [s.answer 0, s.answer 1] (record e (dropAnswers 2 s))).pixels (n + 1) =
        (dropAnswers 2 s).pixels (n + 1) := rfl
    have h2 : (keepPixel k [s.answer 0, s.answer 1] (record e (dropAnswers 2 s))).pixelTxns (n + 1) =
        (dropAnswers 2 s).pixelTxns (n + 1) := rfl
    have h3 : dropAnswers (2 * (n + 1 + 1)) s = dropAnswers (2 * (n + 1)) (dropAnswers 2 s) := by
      rw [dropAnswers_dropAnswers]; congr 1; omega
    have h4 : (keepPixel k [s.answer 0, s.answer 1] (record e (dropAnswers 2 s))).frameSh.take (k + 1) =
        s.frameSh.take k ++ [pixel (s.answer 1)] := by
      apply List.take_of_length_le
      simp [keepPixel]
    unfold pixelsRead
    rw [h1, h2, h3, h4, pixels_succ s, pixelTxns_succ s, he]
    simp [keepPixel, record, dropAnswers]

end Sys2Proof.Machine
end

