-- ==== Sys2Proof/Laws/Commands.lean ====
section
/-! SUPPORT. Laws/Commands.lean: `FRAME` as one state, and what its waits and reads are edge by edge
(44_frame.md R105-R107, R111). -/

namespace Sys2Proof.Machine

/-! ## `FRAME` at the value level -/

/-- `FRAME` from its accept to the end of its settle wait (44_frame.md R105). -/
def frameSettled (s : State) : State :=
  record (.wait s.settle.toNat) (spiTxn (writeFraming Config.frameCapture [Config.frameArm]) s).2

theorem frameSettled_between (s : State) : Between (frameSettled s) :=
  have h := spiTxn_between (writeFraming Config.frameCapture [Config.frameArm]) s
  ⟨h.1, h.2.1, h.2.2.1, h.2.2.2⟩

theorem frameSettled_answer (s : State) (i : Nat) : (frameSettled s).answer i = s.answer (2 + i) :=
  answer_dropAnswers 2 i s

/-- The bulk read takes the same pixels. -/
theorem bulkPixels_answerList (s : State) (n : Nat) : bulkPixels (s.answerList (2 * n)) = s.pixels n := by
  apply List.ext_getElem?
  intro k
  by_cases h : k < n
  · rw [bulkPixels_getElem? _ _ (s.answer (2 * k + 1)) (answerList_getElem? s _ _ (by omega))]
    simp [State.pixels, h]
  · rw [List.getElem?_eq_none, List.getElem?_eq_none]
    · simp [State.pixels]; omega
    · rw [bulkPixels_length n _ (answerList_length s _)]; omega

theorem frameBulkRead_eq {s : State} (h : Between s) :
    frameBulkRead s = { dropAnswers (2 * Config.nPix) s with
      frameSh := s.pixels Config.nPix
      events := s.events ++ [.txn (bulkFraming Config.nPix) (s.answerList (2 * Config.nPix))] } := by
  unfold frameBulkRead
  simp only
  rw [spiTxn_of_between _ h, spiTxn_fst, bulkFraming_length, bulkPixels_answerList]
  simp only [record, dropAnswers]

/-- `FRAME` from its accept to its commit, by either method. -/
theorem runFrame_eq (s : State) :
    runFrame s = commit .frame { dropAnswers (2 * Config.nPix) (frameSettled s) with
      frameSh := (frameSettled s).pixels Config.nPix
      events := (frameSettled s).events ++ (if s.frameBulk then
          [.txn (bulkFraming Config.nPix) ((frameSettled s).answerList (2 * Config.nPix))]
        else (frameSettled s).pixelTxns Config.nPix) } := by
  have e : (frameSettled s).frameBulk = s.frameBulk := rfl
  have es : (spiTxn (writeFraming Config.frameCapture [Config.frameArm]) s).2.settle = s.settle := rfl
  unfold runFrame
  simp only [es]
  change commit .frame (if (frameSettled s).frameBulk then frameBulkRead (frameSettled s)
    else frameSingle Config.nPix 0 (frameSettled s)) = _
  have hb := frameSettled_between s
  rw [e]
  cases hs : s.frameBulk
  · simp only [Bool.false_eq_true, if_false]
    rw [show Config.nPix = 899 + 1 from rfl, frameSingle_eq _ _ _ hb, pixelsRead]
    simp only [List.take_zero, List.nil_append]
  · simp only [if_true]
    rw [frameBulkRead_eq hb]

/-! ## What the sequencer's position does not matter to -/

theorem commit_seq_irrel (c : Command) (s : State) (q : Seq) : commit c { s with seq := q } = commit c s := by
  cases c <;> rfl

theorem beginTxn_seq_irrel (c : Command) (t : Txn) (s : State) (q : Seq) :
    beginTxn c t { s with seq := q } = beginTxn c t s := by
  have h : txnBytes c t { s with seq := q } = txnBytes c t s := by cases c <;> cases t <;> rfl
  simp only [beginTxn, h]; rfl

theorem endSettle_seq_eng_irrel (c : Command) (s : State) (q : Seq) (e : Engine) :
    endSettle c { s with seq := q, eng := e } = endSettle c s := by
  have h : txnBytes c (.read 0) (record (.wait s.settle.toNat) { s with seq := q, eng := e }) =
      txnBytes c (.read 0) (record (.wait s.settle.toNat) s) := by cases c <;> rfl
  simp only [endSettle, beginTxn, h]; rfl

/-! ## `FRAME` edge by edge -/

/-- The settle wait takes its cycles and changes nothing (44_frame.md R105). -/
theorem ticks_settle (c : Command) (k : Nat) (s : State) (hs : s.seq = .run c .settle) (hk : s.eng.settleCnt = k) :
    ticks (k + 1) s = endSettle c s := by
  induction k generalizing s with
  | zero => simp [ticks, tick, hs, hk]
  | succ k ih =>
    have h1 : tick s = { s with eng := { s.eng with settleCnt := k } } := by simp [tick, hs, hk]
    change ticks (k + 1) (tick s) = _
    rw [h1, ih _ (by simpa using hs) rfl]
    exact endSettle_seq_eng_irrel c s s.seq _

theorem ticks_beginSettle (c : Command) (s : State) : ticks s.settle.toNat (beginSettle c s) = endSettle c s := by
  unfold beginSettle
  split
  · rename_i h; rw [h]; rfl
  · obtain ⟨k, hk⟩ := Nat.exists_eq_succ_of_ne_zero ‹_›
    rw [hk, Nat.succ_sub_one, ticks_settle c k _ rfl rfl]
    exact endSettle_seq_eng_irrel c s _ _

/-- The bytes of a single-pixel read (30_encoding.md R66). -/
theorem txnBytes_read_single (j : Nat) {s : State} (hb : s.frameBulk = false) :
    txnBytes .frame (.read j) s = (readFraming Config.frameCapture 1, s.draws) := by
  simp [txnBytes, hb]

/-- The single-pixel reads from pixel `k` on, edge by edge, are the value-level reads (44_frame.md R106, R111). -/
theorem ticks_reads (n k : Nat) (s : State) (hk : k + (n + 1) = Config.nPix) (hb : s.frameBulk = false) :
    ticks ((n + 1) * s.txnCycles 2) (beginTxn .frame (.read k) s) = commit .frame (frameSingle (n + 1) k s) := by
  induction n generalizing k s with
  | zero =>
    have hl : (txnBytes .frame (.read k) s).1.length = 2 := by rw [txnBytes_read_single _ hb]; rfl
    have := ticks_txn .frame (.read k) s (by intro h0; rw [h0] at hl; simp at hl)
    rw [hl, txnBytes_read_single _ hb] at this
    rw [Nat.zero_add, Nat.one_mul, this]
    simp only [afterTxn]
    have hb' : State.frameBulk { (spiTxn (readFraming Config.frameCapture 1) s).2 with
        seq := .run .frame (.txn (.read k) .highSecond) } = false := hb
    rw [hb', if_neg (by simp), if_neg (by omega)]
    rfl
  | succ n ih =>
    have hl : (txnBytes .frame (.read k) s).1.length = 2 := by rw [txnBytes_read_single _ hb]; rfl
    have := ticks_txn .frame (.read k) s (by intro h0; rw [h0] at hl; simp at hl)
    rw [hl, txnBytes_read_single _ hb] at this
    rw [show (n + 1 + 1) * s.txnCycles 2 = s.txnCycles 2 + (n + 1) * s.txnCycles 2 by ring, ticks_add, this]
    simp only [afterTxn]
    have hb' : State.frameBulk { (spiTxn (readFraming Config.frameCapture 1) s).2 with
        seq := .run .frame (.txn (.read k) .highSecond) } = false := hb
    rw [hb', if_neg (by simp), if_pos (by omega)]
    have e2 : keepPixel k (spiTxn (readFraming Config.frameCapture 1) s).1
        { (spiTxn (readFraming Config.frameCapture 1) s).2 with seq := .run .frame (.txn (.read k) .highSecond) } =
        { keepPixel k (spiTxn (readFraming Config.frameCapture 1) s).1
            (spiTxn (readFraming Config.frameCapture 1) s).2 with
          seq := .run .frame (.txn (.read k) .highSecond) } := rfl
    rw [e2, beginTxn_seq_irrel]
    have ht : (keepPixel k (spiTxn (readFraming Config.frameCapture 1) s).1
        (spiTxn (readFraming Config.frameCapture 1) s).2).txnCycles 2 = s.txnCycles 2 := rfl
    have hb2 : (keepPixel k (spiTxn (readFraming Config.frameCapture 1) s).1
        (spiTxn (readFraming Config.frameCapture 1) s).2).frameBulk = false := hb
    rw [← ht, ih (k + 1) _ (by omega) hb2]
    rfl

/-! ## A command runs to its last cycle -/

/-- IDLE lasts: a sequencer that runs after `n` edges ran after every fewer. -/
theorem ticks_running_of {n k : Nat} {s : State} (h : (ticks n s).seq ≠ .idle) (hk : k ≤ n) :
    (ticks k s).seq ≠ .idle := by
  intro hi
  have := ticks_idle (n - k) _ hi
  rw [← ticks_add, show k + (n - k) = n by omega] at this
  exact h (this ▸ hi)

/-- A transaction takes at least one cycle. -/
theorem txnCycles_pos (s : State) (m : Nat) : 0 < s.txnCycles m :=
  Nat.mul_pos (Nat.succ_pos _) (by omega)

/-- The single-pixel reads run to their last cycle. -/
theorem ticks_reads_running (n k : Nat) (s : State) (hk : k + (n + 1) = Config.nPix) (hb : s.frameBulk = false)
    (m : Nat) (hm : m < (n + 1) * s.txnCycles 2) : (ticks m (beginTxn .frame (.read k) s)).seq ≠ .idle := by
  induction n generalizing k s m with
  | zero =>
    have hl : (txnBytes .frame (.read k) s).1.length = 2 := by rw [txnBytes_read_single _ hb]; rfl
    exact ticks_txn_running .frame (.read k) s (by intro h0; rw [h0] at hl; simp at hl) m (by rw [hl]; omega)
  | succ n ih =>
    have hl : (txnBytes .frame (.read k) s).1.length = 2 := by rw [txnBytes_read_single _ hb]; rfl
    have hne : (txnBytes .frame (.read k) s).1 ≠ [] := by intro h0; rw [h0] at hl; simp at hl
    by_cases hlt : m < s.txnCycles 2
    · exact ticks_txn_running .frame (.read k) s hne m (by rw [hl]; exact hlt)
    · have := ticks_txn .frame (.read k) s hne
      rw [hl, txnBytes_read_single _ hb] at this
      rw [show m = s.txnCycles 2 + (m - s.txnCycles 2) by omega, ticks_add, this]
      simp only [afterTxn]
      have hb' : State.frameBulk { (spiTxn (readFraming Config.frameCapture 1) s).2 with
          seq := .run .frame (.txn (.read k) .highSecond) } = false := hb
      rw [hb', if_neg (by simp), if_pos (by omega)]
      have e2 : keepPixel k (spiTxn (readFraming Config.frameCapture 1) s).1
          { (spiTxn (readFraming Config.frameCapture 1) s).2 with seq := .run .frame (.txn (.read k) .highSecond) } =
          { keepPixel k (spiTxn (readFraming Config.frameCapture 1) s).1
              (spiTxn (readFraming Config.frameCapture 1) s).2 with
            seq := .run .frame (.txn (.read k) .highSecond) } := rfl
      rw [e2, beginTxn_seq_irrel]
      have hx : (n + 1 + 1) * s.txnCycles 2 = s.txnCycles 2 + (n + 1) * s.txnCycles 2 := by ring
      generalize hu : keepPixel k (spiTxn (readFraming Config.frameCapture 1) s).1
        (spiTxn (readFraming Config.frameCapture 1) s).2 = u
      have hub : u.frameBulk = false := by rw [← hu]; exact hb
      have huc : u.txnCycles 2 = s.txnCycles 2 := by rw [← hu]; rfl
      exact ih (k + 1) u (by omega) hub (m - s.txnCycles 2) (by rw [huc]; omega)

/-- `FRAME` runs to the last of its cycles, by either method (44_frame.md R111). -/
theorem ticks_frame_running (s : State) (m : Nat) (hm : m < s.commandCycles .frame) :
    (ticks m (beginTxn .frame .arm s)).seq ≠ .idle := by
  have hne : (txnBytes .frame .arm s).1 ≠ [] := by simp [txnBytes, writeFraming]
  have hl : (txnBytes .frame .arm s).1.length = 2 := rfl
  have harm := ticks_txn .frame .arm s hne
  rw [hl] at harm
  generalize hv : ({ (spiTxn (txnBytes .frame .arm s).1 { s with draws := (txnBytes .frame .arm s).2 }).2 with
    seq := .run .frame (.txn .arm .highSecond) } : State) = v at harm
  have hset : v.settle = s.settle := by subst hv; rfl
  have hfb : v.frameBulk = s.frameBulk := by subst hv; rfl
  have hcy : ∀ k, v.txnCycles k = s.txnCycles k := by intro k; subst hv; rfl
  change ticks (s.txnCycles 2) _ = beginSettle .frame v at harm
  have hes := ticks_beginSettle .frame v
  rw [hset] at hes
  generalize hu : record (.wait v.settle.toNat) v = u at *
  have hes' : endSettle .frame v = beginTxn .frame (.read 0) u := by rw [← hu]; rfl
  have hub : u.frameBulk = s.frameBulk := by rw [← hu]; exact hfb
  have huc : ∀ k, u.txnCycles k = s.txnCycles k := by intro k; rw [← hu]; exact hcy k
  suffices h : (ticks (s.commandCycles .frame - 1) (beginTxn .frame .arm s)).seq ≠ .idle from
    ticks_running_of h (by omega)
  have key : ∀ r, 0 < r → r = (if s.frameBulk then s.txnCycles (2 * Config.nPix) else Config.nPix * s.txnCycles 2) →
      (ticks (r - 1) (beginTxn .frame (.read 0) u)).seq ≠ .idle := by
    intro r hr he
    cases hb : s.frameBulk with
    | true =>
      rw [hb, if_pos rfl] at he
      have hb2 : (txnBytes .frame (.read 0) u) = (bulkFraming Config.nPix, u.draws) := by simp [txnBytes, hub, hb]
      have hlen : (txnBytes .frame (.read 0) u).1.length = 2 * Config.nPix := by rw [hb2]; exact bulkFraming_length _
      exact ticks_txn_running .frame (.read 0) u (by intro h0; rw [h0] at hlen; simp [Config.nPix] at hlen) _
        (by rw [hlen, huc]; omega)
    | false =>
      rw [hb, if_neg (by simp)] at he
      refine ticks_reads_running 899 0 u rfl (hub.trans hb) _ ?_
      rw [huc]
      have : Config.nPix = 899 + 1 := rfl
      rw [this] at he
      omega
  generalize hr : (if s.frameBulk then s.txnCycles (2 * Config.nPix) else Config.nPix * s.txnCycles 2) = r at key
  have hpos : 0 < r := by
    rw [← hr]; split
    · exact txnCycles_pos _ _
    · exact Nat.mul_pos (by decide) (txnCycles_pos _ _)
  have hc : s.commandCycles .frame = s.txnCycles 2 + s.settle.toNat + r := by rw [← hr]; rfl
  rw [hc, show s.txnCycles 2 + s.settle.toNat + r - 1 = s.txnCycles 2 + (s.settle.toNat + (r - 1)) by omega,
    ticks_add, harm, ticks_add, hes, hes']
  exact key r hpos rfl
end Sys2Proof.Machine
end

