-- ==== Sys2Proof/Laws/Encoding.lean ====
section
/-! SUPPORT. Laws/Encoding.lean: the fields of a `BUSOP24` word, bit by bit (30_encoding.md R59). -/

namespace Sys2Proof

theorem getLsbD_busopWord (w : Bool) (a : HostAddr) (d : Byte) (i : Nat) :
    (busopWord w a d).getLsbD i =
      if i < 8 then d.getLsbD i else if i < 20 then a.getLsbD (i - 8) else w && decide (i = 23) := by
  unfold busopWord
  rw [BitVec.getLsbD_append, BitVec.getLsbD_append, BitVec.getLsbD_append]
  by_cases h1 : i < 8
  · simp [h1]
  · by_cases h2 : i < 20
    · simp [h1, h2, show i - 8 < 12 by omega]
    · by_cases h3 : i - 8 - 12 < 3
      · simp [h1, h2, h3, show ¬(i - 8 < 12) by omega, show i ≠ 23 by omega]
      · rw [if_neg h1, if_neg (by omega), if_neg h3, if_neg h1, if_neg h2, BitVec.getLsbD_ofBool]
        by_cases h4 : i = 23
        · subst h4; simp
        · simp [h4, show ¬(i - 8 - 12 - 3 = 0) by omega]

theorem busopZ_busopWord (w : Bool) (a : HostAddr) (d : Byte) : busopZ (busopWord w a d) = 0#3 := by
  apply BitVec.eq_of_getLsbD_eq
  intro i hi
  simp [busopZ, getLsbD_busopWord, hi, show ¬(20 + i < 8) by omega, show ¬(20 + i < 20) by omega,
    show ¬(20 + i = 23) by omega]

theorem busopW_busopWord (w : Bool) (a : HostAddr) (d : Byte) : busopW (busopWord w a d) = w := by
  rw [busopW, getLsbD_busopWord]; simp

theorem busopA_busopWord (w : Bool) (a : HostAddr) (d : Byte) : busopA (busopWord w a d) = a := by
  apply BitVec.eq_of_getLsbD_eq
  intro i hi
  simp [busopA, getLsbD_busopWord, hi, show 8 + i < 20 by omega]

theorem busopD_busopWord (w : Bool) (a : HostAddr) (d : Byte) : busopD (busopWord w a d) = d := by
  apply BitVec.eq_of_getLsbD_eq
  intro i hi
  simp [busopD, getLsbD_busopWord, hi]

/-- A word with `Z` = 000 is the word of its other three fields. -/
theorem busopWord_fields (x : BitVec 24) (h : busopZ x = 0#3) : busopWord (busopW x) (busopA x) (busopD x) = x := by
  apply BitVec.eq_of_getLsbD_eq
  intro i hi
  rw [getLsbD_busopWord]
  by_cases h1 : i < 8
  · simp [busopD, h1]
  · by_cases h2 : i < 20
    · simp [busopA, h1, h2, show i - 8 < 12 by omega, show 8 + (i - 8) = i by omega]
    · by_cases h3 : i = 23
      · subst h3; simp [busopW]
      · have := congrArg (fun v => v.getLsbD (i - 20)) h
        simp [busopZ, show i - 20 < 3 by omega, show 20 + (i - 20) = i by omega] at this
        simp [h1, h2, h3, this]

end Sys2Proof
end

