-- ==== Sys2Proof/Laws/Sequencer.lean ====
section
/-! SUPPORT. Laws/Sequencer.lean: everything an edge of the sequencer can do to what the host sees
(10_state.md R38, 20_memory.md R51). -/

namespace Sys2Proof.Machine

/-- What the host can read, and the host's own items, are unchanged. -/
def SameVisible (s t : State) : Prop :=
  SameConfig s t ∧ t.status = s.status ∧ t.mot = s.mot ∧ t.mem = s.mem ∧ t.busRdata = s.busRdata ∧ t.host = s.host

theorem SameVisible.rfl {s : State} : SameVisible s s :=
  ⟨⟨by rfl, by rfl, by rfl, by rfl, by rfl, by rfl⟩, by rfl, by rfl, by rfl, by rfl, by rfl⟩

theorem SameVisible.trans {s t u : State} (h : SameVisible s t) (k : SameVisible t u) : SameVisible s u := by
  obtain ⟨⟨h1, h2, h3, h4, h5, h6⟩, h7, h8, h9, h10, h11⟩ := h
  obtain ⟨⟨k1, k2, k3, k4, k5, k6⟩, k7, k8, k9, k10, k11⟩ := k
  exact ⟨⟨k1.trans h1, k2.trans h2, k3.trans h3, k4.trans h4, k5.trans h5, k6.trans h6⟩,
    k7.trans h7, k8.trans h8, k9.trans h9, k10.trans h10, k11.trans h11⟩

/-- `t` is the state of command `c` still running, with nothing the host sees changed. -/
def Goes (c : Command) (s t : State) : Prop := SameVisible s t ∧ ∃ ph, t.seq = .run c ph

/-- `t` is the commit of command `c` from a state with nothing the host sees changed. -/
def Ends (c : Command) (s t : State) : Prop := ∃ u, SameVisible s u ∧ t = commit c u

theorem Goes.of_same {c : Command} {s t u : State} (h : SameVisible s t) (k : Goes c t u) : Goes c s u :=
  ⟨h.trans k.1, k.2⟩

theorem Ends.of_same {c : Command} {s t u : State} (h : SameVisible s t) (k : Ends c t u) : Ends c s u := by
  obtain ⟨v, hv, rfl⟩ := k
  exact ⟨v, h.trans hv, by rfl⟩

theorem beginTxn_goes (c : Command) (t : Txn) (s : State) : Goes c s (beginTxn c t s) :=
  ⟨SameVisible.rfl, _, by rfl⟩

theorem endSettle_goes (c : Command) (s : State) : Goes c s (endSettle c s) := ⟨SameVisible.rfl, _, by rfl⟩

theorem beginSettle_goes (c : Command) (s : State) : Goes c s (beginSettle c s) := by
  unfold beginSettle
  split
  · exact endSettle_goes c s
  · exact ⟨SameVisible.rfl, _, by rfl⟩

theorem afterTxn_visible (c : Command) (t : Txn) (inn : List Byte) (s : State) :
    Goes c s (afterTxn c t inn s) ∨ Ends c s (afterTxn c t inn s) := by
  cases c with
  | xfer => exact .inr ⟨{ s with rxSh := inn }, SameVisible.rfl, by rfl⟩
  | rdreg => exact .inr ⟨{ s with rxSh := inn.drop 1 }, SameVisible.rfl, by rfl⟩
  | wrreg => exact .inr ⟨s, SameVisible.rfl, by rfl⟩
  | motion => exact .inr ⟨{ s with motSh := motionParse inn }, SameVisible.rfl, by rfl⟩
  | frame =>
    cases t with
    | single => exact .inl (beginSettle_goes .frame s)
    | arm => exact .inl (beginSettle_goes .frame s)
    | read k =>
      simp only [afterTxn]
      split
      · exact .inr ⟨{ s with frameSh := bulkPixels inn }, SameVisible.rfl, by rfl⟩
      · split
        · exact .inl (Goes.of_same SameVisible.rfl (beginTxn_goes _ _ _))
        · exact .inr ⟨keepPixel k inn s, SameVisible.rfl, by rfl⟩

theorem beginByte_goes (c : Command) (t : Txn) (i : Nat) (s : State) : Goes c s (beginByte c t i s) :=
  ⟨SameVisible.rfl, _, rfl⟩

theorem endByte_goes (c : Command) (t : Txn) (s : State) : Goes c s (endByte c t s) := by
  unfold endByte
  split
  · split
    · exact Goes.of_same SameVisible.rfl (beginByte_goes c t _ (keepAnswer s))
    · exact ⟨SameVisible.rfl, _, rfl⟩
  · exact ⟨SameVisible.rfl, _, rfl⟩

theorem wireEdge_visible (c : Command) (t : Txn) (w : Wire) (s : State) :
    Goes c s (wireEdge c t w s) ∨ Ends c s (wireEdge c t w s) := by
  cases w with
  | setup => exact .inl ⟨⟨⟨rfl, rfl, rfl, rfl, rfl, rfl⟩, rfl, rfl, rfl, rfl, rfl⟩, _, rfl⟩
  | bitFirst => exact .inl ⟨⟨⟨rfl, rfl, rfl, rfl, rfl, rfl⟩, rfl, rfl, rfl, rfl, rfl⟩, _, rfl⟩
  | bitSecond =>
    left
    simp only [wireEdge]
    split
    · exact Goes.of_same SameVisible.rfl (endByte_goes c t (endBit s))
    · exact ⟨⟨⟨rfl, rfl, rfl, rfl, rfl, rfl⟩, rfl, rfl, rfl, rfl, rfl⟩, _, rfl⟩
  | gap => exact .inl ⟨⟨⟨rfl, rfl, rfl, rfl, rfl, rfl⟩, rfl, rfl, rfl, rfl, rfl⟩, _, rfl⟩
  | hold => exact .inl ⟨⟨⟨rfl, rfl, rfl, rfl, rfl, rfl⟩, rfl, rfl, rfl, rfl, rfl⟩, _, rfl⟩
  | highFirst => exact .inl ⟨⟨⟨rfl, rfl, rfl, rfl, rfl, rfl⟩, rfl, rfl, rfl, rfl, rfl⟩, _, rfl⟩
  | highSecond =>
    have := afterTxn_visible c t s.eng.inn (record (.txn s.eng.out s.eng.inn) { s with eng := Engine.idle })
    exact this.imp (Goes.of_same SameVisible.rfl) (Ends.of_same SameVisible.rfl)

/-- An edge of a transaction: its counter runs, or its wait ends. -/
theorem wireTick_cases (c : Command) (t : Txn) (w : Wire) (s : State) :
    (∃ e, wireTick c t w s = { s with eng := e }) ∨ wireTick c t w s = wireEdge c t w s := by
  cases w <;> simp only [wireTick] <;> split <;> first | exact .inr (by rfl) | exact .inl ⟨_, by rfl⟩

/-- Everything an edge of the sequencer can do, as the host sees it: nothing when IDLE; else the command goes on with
nothing visible changed, or this is its commit. -/
theorem tick_visible (s : State) :
    (s.seq = .idle ∧ tick s = s) ∨
      ∃ c ph, s.seq = .run c ph ∧ (Goes c s (tick s) ∨ Ends c s (tick s)) := by
  cases hs : s.seq with
  | idle => exact .inl ⟨by rfl, by simp [tick, hs]⟩
  | run c ph =>
    refine .inr ⟨c, ph, by rfl, ?_⟩
    cases ph with
    | start => simp only [tick, hs]; exact .inl (beginTxn_goes _ _ _)
    | settle =>
      simp only [tick, hs]
      split
      · exact .inl (endSettle_goes c s)
      · exact .inl ⟨SameVisible.rfl, _, by rfl⟩
    | txn t w =>
      simp only [tick, hs]
      rcases wireTick_cases c t w s with ⟨e, h⟩ | h <;> rw [h]
      · exact .inl ⟨SameVisible.rfl, _, hs⟩
      · exact wireEdge_visible c t w s

/-- `STATUS` after an edge of the sequencer: as before, or as a commit leaves it. -/
theorem tick_status (s : State) :
    (tick s).status = if s.seq ≠ .idle ∧ (tick s).seq = .idle then statusCommit s.status else s.status := by
  rcases tick_visible s with ⟨h, e⟩ | ⟨c, ph, h, ⟨h1, p, h2⟩ | ⟨u, h1, e⟩⟩
  · rw [e, if_neg (fun k => k.1 h)]
  · rw [h1.2.1, if_neg (by rw [h2]; simp)]
  · rw [e, if_pos ⟨by rw [h]; simp, commit_seq c u⟩, commit_status, h1.2.1]

/-! ## The history -/

/-- The history of `t` extends that of `s`. -/
def Grows (s t : State) : Prop := ∃ l, t.events = s.events ++ l

theorem Grows.rfl {s : State} : Grows s s := ⟨[], by simp⟩

theorem Grows.trans {s t u : State} (h : Grows s t) (k : Grows t u) : Grows s u := by
  obtain ⟨l, hl⟩ := h
  obtain ⟨m, hm⟩ := k
  exact ⟨l ++ m, by rw [hm, hl, List.append_assoc]⟩

theorem Grows.of_events {s t : State} (h : t.events = s.events) : Grows s t := ⟨[], by simp [h]⟩

theorem record_grows (e : Event) (s : State) : Grows s (record e s) := ⟨[e], by rfl⟩

theorem commit_grows (c : Command) (s : State) : Grows s (commit c s) := ⟨[.cmdDone c], by simp⟩

theorem beginTxn_grows (c : Command) (t : Txn) (s : State) : Grows s (beginTxn c t s) := Grows.of_events (by rfl)

theorem endSettle_grows (c : Command) (s : State) : Grows s (endSettle c s) :=
  (record_grows _ s).trans (beginTxn_grows c (.read 0) _)

theorem beginSettle_grows (c : Command) (s : State) : Grows s (beginSettle c s) := by
  unfold beginSettle
  split
  · exact endSettle_grows c s
  · exact Grows.of_events (by rfl)

theorem afterTxn_grows (c : Command) (t : Txn) (inn : List Byte) (s : State) : Grows s (afterTxn c t inn s) := by
  cases c with
  | xfer => exact commit_grows .xfer { s with rxSh := inn }
  | rdreg => exact commit_grows .rdreg { s with rxSh := inn.drop 1 }
  | wrreg => exact commit_grows .wrreg s
  | motion => exact commit_grows .motion { s with motSh := motionParse inn }
  | frame =>
    cases t with
    | single => exact beginSettle_grows .frame s
    | arm => exact beginSettle_grows .frame s
    | read k =>
      simp only [afterTxn]
      split
      · exact commit_grows .frame { s with frameSh := bulkPixels inn }
      · split
        · exact beginTxn_grows .frame (.read (k + 1)) (keepPixel k inn s)
        · exact commit_grows .frame (keepPixel k inn s)

theorem endByte_grows (c : Command) (t : Txn) (s : State) : Grows s (endByte c t s) := by
  unfold endByte
  split
  · split <;> exact Grows.of_events (by rfl)
  · exact Grows.of_events (by rfl)

theorem wireEdge_grows (c : Command) (t : Txn) (w : Wire) (s : State) : Grows s (wireEdge c t w s) := by
  cases w with
  | setup => exact Grows.of_events (by rfl)
  | bitFirst => exact Grows.of_events (by rfl)
  | bitSecond =>
    simp only [wireEdge]
    split
    · exact endByte_grows c t (endBit s)
    · exact Grows.of_events (by rfl)
  | gap => exact Grows.of_events (by rfl)
  | hold => exact Grows.of_events (by rfl)
  | highFirst => exact Grows.of_events (by rfl)
  | highSecond =>
    exact (record_grows (.txn s.eng.out s.eng.inn) { s with eng := Engine.idle }).trans
      (afterTxn_grows c t s.eng.inn _)

/-- An edge of the sequencer only adds to the history (00_scope.md R13). -/
theorem tick_grows (s : State) : Grows s (tick s) := by
  cases hs : s.seq with
  | idle => simp only [tick, hs]; exact Grows.rfl
  | run c ph =>
    cases ph with
    | start => simp only [tick, hs]; exact beginTxn_grows c (firstTxn c) s
    | settle =>
      simp only [tick, hs]
      split
      · exact endSettle_grows c s
      · exact Grows.of_events (by rfl)
    | txn t w =>
      simp only [tick, hs]
      rcases wireTick_cases c t w s with ⟨e, h⟩ | h <;> rw [h]
      · exact Grows.of_events (by rfl)
      · exact wireEdge_grows c t w s

/-! ## The read port -/

/-- An edge of the sequencer does not drive the read port. -/
theorem tick_busRdata (s : State) : (tick s).busRdata = s.busRdata := by
  rcases tick_visible s with ⟨_, h⟩ | ⟨c, ph, _, h | ⟨u, h, e⟩⟩
  · rw [h]
  · exact h.1.2.2.2.2.1
  · rw [e, commit_busRdata]; exact h.2.2.2.2.1

theorem hostCycle_busRdata (f : State → State) (s : State) : (hostCycle f s).busRdata = (f s).busRdata := by
  unfold hostCycle
  split
  · rfl
  · exact tick_busRdata _

/-! ## `STATUS`, the read port and the history are not read by the sequencer -/

/-- `s` with another `STATUS`, read port and history. -/
def withSeen (st rd : Byte) (ev : List Event) (s : State) : State :=
  { s with status := st, busRdata := rd, events := ev }

/-- `t` differs from `s` in `STATUS`, the read port and the history alone, and what `s` added to the history `ev₀`,
`t` added to `ev`. -/
def SameButSeen (rd : Byte) (ev₀ ev : List Event) (s t : State) : Prop :=
  ∃ st l, s.events = ev₀ ++ l ∧ t = withSeen st rd (ev ++ l) s

theorem SameButSeen.none {st rd : Byte} {ev₀ ev : List Event} {s : State} (h : s.events = ev₀) :
    SameButSeen rd ev₀ ev s (withSeen st rd ev s) := ⟨st, [], by simp [h], by simp⟩

theorem SameButSeen.more {rd : Byte} {ev₀ ev l : List Event} {s t : State}
    (h : SameButSeen rd (ev₀ ++ l) (ev ++ l) s t) : SameButSeen rd ev₀ ev s t := by
  obtain ⟨st, m, h1, h2⟩ := h
  exact ⟨st, l ++ m, by rw [h1, List.append_assoc], by rw [h2, List.append_assoc]⟩

theorem beginTxn_seen (c : Command) (t : Txn) (s : State) (st rd : Byte) (ev : List Event) :
    beginTxn c t (withSeen st rd ev s) = withSeen st rd ev (beginTxn c t s) := by
  have h : txnBytes c t (withSeen st rd ev s) = txnBytes c t s := by
    cases c <;> cases t <;> rfl
  simp only [beginTxn, h]
  rfl

theorem endSettle_seen (c : Command) (s : State) (st rd : Byte) (ev : List Event) :
    SameButSeen rd s.events ev (endSettle c s) (endSettle c (withSeen st rd ev s)) := by
  have h := beginTxn_seen c (.read 0) (record (.wait s.settle.toNat) s) st rd (ev ++ [.wait s.settle.toNat])
  exact ⟨st, [.wait s.settle.toNat], rfl, h⟩

theorem beginSettle_seen (c : Command) (s : State) (st rd : Byte) (ev : List Event) :
    SameButSeen rd s.events ev (beginSettle c s) (beginSettle c (withSeen st rd ev s)) := by
  have h : (withSeen st rd ev s).settle = s.settle := rfl
  unfold beginSettle
  rw [h]
  split
  · exact endSettle_seen c s st rd ev
  · exact .none (st := st) rfl

theorem commit_seen (c : Command) (s : State) (st rd : Byte) (ev : List Event) :
    SameButSeen rd s.events ev (commit c s) (commit c (withSeen st rd ev s)) := by
  cases c <;> exact ⟨statusCommit st, [.cmdDone _], rfl, rfl⟩

theorem afterTxn_seen (c : Command) (t : Txn) (inn : List Byte) (s : State) (st rd : Byte) (ev : List Event) :
    SameButSeen rd s.events ev (afterTxn c t inn s) (afterTxn c t inn (withSeen st rd ev s)) := by
  cases c with
  | xfer => exact commit_seen .xfer { s with rxSh := inn } st rd ev
  | rdreg => exact commit_seen .rdreg { s with rxSh := inn.drop 1 } st rd ev
  | wrreg => exact commit_seen .wrreg s st rd ev
  | motion => exact commit_seen .motion { s with motSh := motionParse inn } st rd ev
  | frame =>
    cases t with
    | single => exact beginSettle_seen .frame s st rd ev
    | arm => exact beginSettle_seen .frame s st rd ev
    | read k =>
      have hb : (withSeen st rd ev s).frameBulk = s.frameBulk := rfl
      simp only [afterTxn, hb]
      split
      · exact commit_seen .frame { s with frameSh := bulkPixels inn } st rd ev
      · split
        · have h := beginTxn_seen .frame (.read (k + 1)) (keepPixel k inn s) st rd ev
          exact h ▸ .none (st := st) (s := beginTxn .frame (.read (k + 1)) (keepPixel k inn s)) rfl
        · exact commit_seen .frame (keepPixel k inn s) st rd ev

theorem endByte_seen (c : Command) (t : Txn) (s : State) (st rd : Byte) (ev : List Event) :
    endByte c t (withSeen st rd ev s) = withSeen st rd ev (endByte c t s) := by
  have hg : (withSeen st rd ev s).gapCycles = s.gapCycles := rfl
  have he : (withSeen st rd ev s).eng = s.eng := rfl
  unfold endByte
  rw [hg, he]
  split
  · split <;> rfl
  · rfl

theorem endByte_events (c : Command) (t : Txn) (s : State) : (endByte c t s).events = s.events := by
  unfold endByte
  split
  · split <;> rfl
  · rfl

theorem wireEdge_seen (c : Command) (t : Txn) (w : Wire) (s : State) (st rd : Byte) (ev : List Event) :
    SameButSeen rd s.events ev (wireEdge c t w s) (wireEdge c t w (withSeen st rd ev s)) := by
  cases w with
  | setup => exact .none (st := st) rfl
  | bitFirst => exact .none (st := st) rfl
  | bitSecond =>
    have : endBit (withSeen st rd ev s) = withSeen st rd ev (endBit s) := rfl
    simp only [wireEdge, this]
    have hev : s.events = (endBit s).events := rfl
    rw [hev]
    generalize endBit s = u
    have hu : (withSeen st rd ev u).eng = u.eng := rfl
    rw [hu]
    split
    · rw [endByte_seen]
      exact .none (endByte_events c t u)
    · exact .none (st := st) rfl
  | gap => exact .none (st := st) rfl
  | hold => exact .none (st := st) rfl
  | highFirst => exact .none (st := st) rfl
  | highSecond =>
    have h := afterTxn_seen c t s.eng.inn (record (.txn s.eng.out s.eng.inn) { s with eng := Engine.idle }) st rd
      (ev ++ [.txn s.eng.out s.eng.inn])
    have e : record (.txn s.eng.out s.eng.inn) { withSeen st rd ev s with eng := Engine.idle } =
        withSeen st rd (ev ++ [.txn s.eng.out s.eng.inn])
          (record (.txn s.eng.out s.eng.inn) { s with eng := Engine.idle }) := rfl
    have he : (withSeen st rd ev s).eng = s.eng := rfl
    have hv : (record (.txn s.eng.out s.eng.inn) { s with eng := Engine.idle }).events =
        s.events ++ [.txn s.eng.out s.eng.inn] := rfl
    rw [hv] at h
    simp only [wireEdge, endTxn, he]
    rw [e]
    exact .more h

/-- An edge of the sequencer does not read `STATUS`, the read port or the history. -/
theorem tick_seen (s : State) (st rd : Byte) (ev : List Event) :
    SameButSeen rd s.events ev (tick s) (tick (withSeen st rd ev s)) := by
  have hseq : (withSeen st rd ev s).seq = s.seq := rfl
  have heng : (withSeen st rd ev s).eng = s.eng := rfl
  unfold tick
  rw [hseq, heng]
  split
  · exact .none rfl
  · rw [beginTxn_seen]
    exact .none rfl
  · rename_i c t w _
    cases w <;> simp only [wireTick, heng] <;> split <;>
      first | exact wireEdge_seen c t _ s st rd ev | exact .none (st := st) rfl
  · split
    · exact endSettle_seen _ s st rd ev
    · exact .none (st := st) rfl

end Sys2Proof.Machine
end

