-- ==== Sys2Proof/Laws/Invariant.lean ====
section
/-! SUPPORT. Laws/Invariant.lean: the parts of the invariant at each place of the sequencer, and that an edge of the
sequencer and a host access keep it. -/

namespace Sys2Proof.Machine

/-! ## The invariant, place by place -/

/-- The part of the invariant about registers and buffers. -/
structure StaticInv (s : State) : Prop where
  memWf : Memory.wf s.mem = true
  frameCells : ∀ k b, k < Config.nPix → Memory.lookup s.mem (frameBase + k) = some b → b.toNat ≤ 63
  frameWhole : (∀ k, k < Config.nPix → Memory.lookup s.mem (frameBase + k) = none) ∨
    (∀ k, k < Config.nPix → Memory.lookup s.mem (frameBase + k) ≠ none)
  ctrlReserved : ctrlRead s.ctrl = s.ctrl
  statusReserved : statusRead s.status = s.status
  motReserved : s.mot.flags &&& 0xF8#8 = 0#8

theorem Inv.static {s : State} (h : Inv s) : StaticInv s :=
  ⟨h.memWf, h.frameCells, h.frameWhole, h.ctrlReserved, h.statusReserved, h.motReserved⟩

/-- What holds while command `c` runs, at every place. -/
structure RunInv (c : Command) (s : State) : Prop where
  static : StaticInv s
  busy : s.busy = true
  en : s.en = true
  args : argsOk c s = true
  rxSh : s.rxSh = []
  motSh : s.motSh = Motion.zero
  cells : ∀ b ∈ s.frameSh, b.toNat ≤ 63

/-- The cells of `FRAME_SH` before a transaction. -/
def cellsAt (t : Txn) (s : State) : Prop :=
  match t with
  | .read k => s.frameSh.length = k
  | .arm => s.frameSh = []
  | .single => s.frameSh = []

/-- What holds at a place of a transaction of command `c`. -/
structure WireInv (c : Command) (t : Txn) (w : Wire) (s : State) : Prop where
  run : RunInv c s
  legal : txnLegal c t s
  eng : engineLegal c t w s
  cells : cellsAt t s
  sclk : s.sclk = wireSclk w s
  ncs : s.ncs = wireNcs w s
  mosi : wireMosi w s

theorem Inv.run_of {s : State} {c : Command} {ph : Phase} (hs : s.seq = .run c ph) (h : Inv s) :
    RunInv c s ∧ phaseLegal c ph s := by
  have hb : s.busy = true := h.busyIff.mpr (by rw [hs]; simp)
  have hr := h.run
  unfold runLegal at hr
  rw [hs] at hr
  exact ⟨⟨h.static, hb, h.busyEn hb, hr.1, hr.2.1, hr.2.2.1, hr.2.2.2.1⟩, hr.2.2.2.2⟩

theorem Inv.wire_of {s : State} {c : Command} {t : Txn} {w : Wire} (hs : s.seq = .run c (.txn t w)) (h : Inv s) :
    WireInv c t w s := by
  obtain ⟨hr, hl⟩ := h.run_of hs
  have hp := h.pins
  unfold pinsLegal at hp
  rw [hs] at hp
  obtain ⟨h1, h2, h3⟩ := hl
  exact ⟨hr, h1, h2, by cases t <;> exact h3, hp.1, hp.2.1, hp.2.2⟩

theorem WireInv.inv {s : State} {c : Command} {t : Txn} {w : Wire} (hs : s.seq = .run c (.txn t w))
    (h : WireInv c t w s) : Inv s where
  memWf := h.run.static.memWf
  frameCells := h.run.static.frameCells
  frameWhole := h.run.static.frameWhole
  ctrlReserved := h.run.static.ctrlReserved
  statusReserved := h.run.static.statusReserved
  motReserved := h.run.static.motReserved
  busyIff := by rw [hs]; simp [h.run.busy]
  busyEn := fun _ => h.run.en
  run := by
    unfold runLegal
    rw [hs]
    refine ⟨h.run.args, h.run.rxSh, h.run.motSh, h.run.cells, h.legal, h.eng, ?_⟩
    have := h.cells
    cases t <;> exact this
  pins := by
    unfold pinsLegal
    rw [hs]
    exact ⟨h.sclk, h.ncs, h.mosi⟩

/-- The pins between transactions (41_spi_transceiver.md R81). -/
def RestPins (s : State) : Prop := s.sclk = s.cpol ∧ s.ncs = restNcs s ∧ s.mosi = false

theorem Inv.of_start {s : State} {c : Command} (hs : s.seq = .run c .start) (h : RunInv c s) (hf : s.frameSh = [])
    (hp : RestPins s) : Inv s where
  memWf := h.static.memWf
  frameCells := h.static.frameCells
  frameWhole := h.static.frameWhole
  ctrlReserved := h.static.ctrlReserved
  statusReserved := h.static.statusReserved
  motReserved := h.static.motReserved
  busyIff := by rw [hs]; simp [h.busy]
  busyEn := fun _ => h.en
  run := by unfold runLegal; rw [hs]; exact ⟨h.args, h.rxSh, h.motSh, h.cells, hf⟩
  pins := by unfold pinsLegal; rw [hs]; exact hp

theorem Inv.of_settle {s : State} (hs : s.seq = .run .frame .settle) (h : RunInv .frame s) (hf : s.frameSh = [])
    (hc : s.eng.settleCnt < s.settle.toNat) (hp : RestPins s) : Inv s where
  memWf := h.static.memWf
  frameCells := h.static.frameCells
  frameWhole := h.static.frameWhole
  ctrlReserved := h.static.ctrlReserved
  statusReserved := h.static.statusReserved
  motReserved := h.static.motReserved
  busyIff := by rw [hs]; simp [h.busy]
  busyEn := fun _ => h.en
  run := by unfold runLegal; rw [hs]; exact ⟨h.args, h.rxSh, h.motSh, h.cells, rfl, hc, hf⟩
  pins := by unfold pinsLegal; rw [hs]; exact hp

/-- A state with the sequencer at rest. -/
theorem Inv.of_idle {s : State} (hs : s.seq = .idle) (h : StaticInv s) (hb : s.busy = false)
    (he : s.eng = Engine.idle) (hr : s.rxSh = []) (hf : s.frameSh = []) (hm : s.motSh = Motion.zero)
    (hp : RestPins s) : Inv s where
  memWf := h.memWf
  frameCells := h.frameCells
  frameWhole := h.frameWhole
  ctrlReserved := h.ctrlReserved
  statusReserved := h.statusReserved
  motReserved := h.motReserved
  busyIff := by rw [hs]; simp [hb]
  busyEn := by intro h; rw [hb] at h; cases h
  run := by unfold runLegal; rw [hs]; exact ⟨he, hr, hf, hm⟩
  pins := by unfold pinsLegal; rw [hs]; exact hp

/-- No transaction is empty (41_spi_transceiver.md R80). -/
theorem txnLength_pos {c : Command} {t : Txn} {s : State} (h : argsOk c s = true) : 0 < txnLength c t s := by
  cases c with
  | xfer => exact ((lenOk_iff s).mp h).1
  | rdreg => exact Nat.succ_pos _
  | wrreg => exact Nat.succ_pos _
  | motion => exact Nat.succ_pos _
  | frame =>
    cases t with
    | single => exact Nat.succ_pos _
    | arm => exact Nat.succ_pos _
    | read k => simp only [txnLength]; split <;> simp [Config.nPix]

theorem txnBytes_length {c : Command} {t : Txn} {s : State} (h : txnLegal c t s) :
    (txnBytes c t s).1.length = txnLength c t s := by
  cases c with
  | xfer => exact txBytes_length _ _ _ _
  | rdreg => exact readFraming_length _ _
  | wrreg => simp only [txnBytes, txnLength]; rw [writeFraming_length, txBytes_length]
  | motion => rfl
  | frame =>
    cases t with
    | single => rfl
    | arm => rfl
    | read k =>
      simp only [txnBytes, txnLength]
      split
      · exact bulkFraming_length _
      · rfl

/-- The pins a transaction begins from. -/
theorem wireNcs_setup {s : State} (he : s.en = true) (hn : s.ncs = restNcs s) :
    (driveNcs false s).ncs = wireNcs .setup s := by
  simp only [driveNcs, wireNcs]
  cases hm : s.csManual
  · simp
  · simp [hn, restNcs, he, hm]

theorem beginTxn_inv {c : Command} {t : Txn} {s : State} (h : RunInv c s) (hl : txnLegal c t s) (hf : cellsAt t s)
    (hp : RestPins s) : Inv (beginTxn c t s) := by
  refine WireInv.inv (t := t) (w := .setup) (c := c) rfl ?_
  have hb := txnBytes_length hl
  have hn := wireNcs_setup h.en hp.2.1
  refine ⟨⟨⟨h.static.memWf, h.static.frameCells, h.static.frameWhole, h.static.ctrlReserved, h.static.statusReserved,
    h.static.motReserved⟩, h.busy, h.en, ?_, h.rxSh, h.motSh, h.cells⟩, ?_, ?_, ?_, hp.1, hn, hp.2.2⟩
  · have := h.args; cases c <;> exact this
  · cases t <;> exact hl
  · refine ⟨?_, by simp [beginTxn, enterWire, Engine.idle], Nat.le_refl _, rfl⟩
    show (txnBytes c t s).1.length = _
    rw [hb]; cases c <;> cases t <;> rfl
  · cases t <;> exact hf

/-! ## Commits -/

/-- A running command's part of the invariant does not look at the engine, the sequencer's place, the pins or the
inputs. -/
theorem RunInv.congr {c : Command} {s t : State} (h : RunInv c s) (hc : t.ctrl = s.ctrl) (hst : t.status = s.status)
    (hm : t.mem = s.mem) (hmo : t.mot = s.mot) (ha : t.addr = s.addr) (hl : t.len = s.len) (hr : t.rxSh = s.rxSh)
    (hms : t.motSh = s.motSh) (hf : t.frameSh = s.frameSh) : RunInv c t := by
  obtain ⟨⟨h1, h2, h3, h4, h5, h6⟩, h7, h8, h9, h10, h11, h12⟩ := h
  refine ⟨⟨by rw [hm]; exact h1, by rw [hm]; exact h2, by rw [hm]; exact h3, by rw [hc]; exact h4,
      by rw [hst]; exact h5,
    by rw [hmo]; exact h6⟩, ?_, ?_, ?_, by rw [hr]; exact h10, by rw [hms]; exact h11, by rw [hf]; exact h12⟩
  · unfold State.busy at *; rw [hst]; exact h7
  · unfold State.en at *; rw [hc]; exact h8
  · have e : lenOk t = lenOk s := by rw [Bool.eq_iff_iff, lenOk_iff, lenOk_iff, hl]
    cases c <;> simp only [argsOk, e, ha] at h9 ⊢ <;> exact h9

theorem commit_static {c : Command} {s : State} (h : StaticInv s)
    (hrx : c = .xfer ∨ c = .rdreg → s.rxSh.length ≤ Config.nBuf)
    (hmo : c = .motion → s.motSh.flags &&& 0xF8#8 = 0#8)
    (hfl : c = .frame → s.frameSh.length = Config.nPix) (hfc : c = .frame → ∀ b ∈ s.frameSh, b.toNat ≤ 63) :
    StaticInv (commit c s) := by
  have hst : statusRead (statusCommit s.status) = statusCommit s.status := by
    have : ∀ b : Byte, statusRead b = b → statusRead (statusCommit b) = statusCommit b := by decide
    exact this _ h.statusReserved
  have hrxmem : s.rxSh.length ≤ Config.nBuf → Memory.wf (Memory.writeBlock s.mem rxBase s.rxSh) = true ∧
      ∀ k, Memory.lookup (Memory.writeBlock s.mem rxBase s.rxSh) (frameBase + k) =
          Memory.lookup s.mem (frameBase + k) := by
    intro hlen
    refine ⟨wf_writeBlock h.memWf (fun i hi => bufferAddr_rx (by omega)), fun k => ?_⟩
    rw [lookup_writeBlock_outside]
    simp only [rxBase, frameBase, Config.nBuf] at *; omega
  cases c with
  | xfer =>
    obtain ⟨h1, h2⟩ := hrxmem (hrx (.inl rfl))
    refine ⟨by simpa using h1, ?_, ?_, h.ctrlReserved, by simpa using hst, h.motReserved⟩
    · simp only [commit_mem, publish_xfer_mem, h2]; exact h.frameCells
    · simp only [commit_mem, publish_xfer_mem, h2]; exact h.frameWhole
  | rdreg =>
    obtain ⟨h1, h2⟩ := hrxmem (hrx (.inr rfl))
    refine ⟨by simpa using h1, ?_, ?_, h.ctrlReserved, by simpa using hst, h.motReserved⟩
    · simp only [commit_mem, publish_rdreg_mem, h2]; exact h.frameCells
    · simp only [commit_mem, publish_rdreg_mem, h2]; exact h.frameWhole
  | wrreg => exact ⟨h.memWf, h.frameCells, h.frameWhole, h.ctrlReserved, by simpa using hst, h.motReserved⟩
  | motion => exact ⟨h.memWf, h.frameCells, h.frameWhole, h.ctrlReserved, by simpa using hst, hmo rfl⟩
  | frame =>
    have hl := hfl rfl
    have hw : Memory.wf (Memory.writeBlock s.mem frameBase s.frameSh) = true :=
      wf_writeBlock h.memWf (fun i hi => bufferAddr_frame (by omega))
    have hlk : ∀ k, (hk : k < Config.nPix) →
        Memory.lookup (Memory.writeBlock s.mem frameBase s.frameSh) (frameBase + k) =
        some (s.frameSh[k]'(by omega)) := fun k hk => lookup_writeBlock_inside (by omega)
    refine ⟨by simpa using hw, ?_, .inr ?_, h.ctrlReserved, by simpa using hst, h.motReserved⟩
    · intro k b hk hb
      simp only [commit_mem, publish_frame_mem] at hb
      rw [hlk k hk] at hb
      cases hb
      exact hfc rfl _ (List.getElem_mem _)
    · intro k hk
      simp only [commit_mem, publish_frame_mem]
      rw [hlk k hk]; simp

theorem commit_inv {c : Command} {s : State} (h : StaticInv s) (hp : RestPins s)
    (hrx : c = .xfer ∨ c = .rdreg → s.rxSh.length ≤ Config.nBuf)
    (hmo : c = .motion → s.motSh.flags &&& 0xF8#8 = 0#8)
    (hfl : c = .frame → s.frameSh.length = Config.nPix) (hfc : c = .frame → ∀ b ∈ s.frameSh, b.toNat ≤ 63) :
    Inv (commit c s) := by
  refine Inv.of_idle (by simp) (commit_static h hrx hmo hfl hfc) ?_ (by simp) (by simp) (by simp) (by simp) ?_
  · unfold State.busy
    rw [commit_status]
    have : ∀ b : Byte, (statusCommit b).getLsbD 0 = false := by decide
    exact this _
  · obtain ⟨h1, h2, h3⟩ := hp
    refine ⟨?_, ?_, ?_⟩
    · simp only [commit_sclk, State.cpol, commit_ctrl]; exact h1
    · simp only [commit_ncs, restNcs, State.en, State.csManual, State.csAssert, commit_ctrl]; exact h2
    · simpa using h3

theorem beginSettle_inv {s : State} (h : RunInv .frame s) (hf : s.frameSh = []) (hp : RestPins s) :
    Inv (beginSettle .frame s) := by
  unfold beginSettle
  split
  · unfold endSettle
    exact beginTxn_inv (h.congr rfl rfl rfl rfl rfl rfl rfl rfl rfl)
      ⟨rfl, by show if _ then _ else _; split <;> simp [Config.nPix]⟩ (by show s.frameSh.length = 0; rw [hf]; rfl) hp
  · exact Inv.of_settle rfl (h.congr rfl rfl rfl rfl rfl rfl rfl rfl rfl) hf (by simp only; omega) hp

/-- The edge that ends a transaction. -/
theorem afterTxn_inv {c : Command} {t : Txn} {inn : List Byte} {s : State} (h : RunInv c s) (hl : txnLegal c t s)
    (hf : cellsAt t s) (hi : inn.length = txnLength c t s) (hp : RestPins s) : Inv (afterTxn c t inn s) := by
  have hlen : c = .xfer ∨ c = .rdreg → s.count ≤ Config.nBuf := by
    have := h.args
    rintro (rfl | rfl)
    · exact ((lenOk_iff s).mp this).2
    · simp only [argsOk, Bool.and_eq_true] at this; exact ((lenOk_iff s).mp this.1).2
  cases c with
  | xfer =>
    exact commit_inv ⟨h.static.memWf, h.static.frameCells, h.static.frameWhole, h.static.ctrlReserved,
      h.static.statusReserved, h.static.motReserved⟩ hp (fun _ => by simp only; rw [hi]; exact hlen (.inl rfl))
      (fun h => by cases h) (fun h => by cases h) (fun h => by cases h)
  | rdreg =>
    refine commit_inv ⟨h.static.memWf, h.static.frameCells, h.static.frameWhole, h.static.ctrlReserved,
      h.static.statusReserved, h.static.motReserved⟩ hp (fun _ => ?_)
      (fun h => by cases h) (fun h => by cases h) (fun h => by cases h)
    have := hlen (.inr rfl)
    simp only [List.length_drop, hi, txnLength]; omega
  | wrreg =>
    exact commit_inv h.static hp (fun h => by rcases h with h | h <;> cases h)
      (fun h => by cases h) (fun h => by cases h) (fun h => by cases h)
  | motion =>
    exact commit_inv ⟨h.static.memWf, h.static.frameCells, h.static.frameWhole, h.static.ctrlReserved,
      h.static.statusReserved, h.static.motReserved⟩ hp (fun h => by rcases h with h | h <;> cases h)
      (fun _ => motionFlags_reserved _) (fun h => by cases h) (fun h => by cases h)
  | frame =>
    cases t with
    | single => exact absurd rfl hl
    | arm => exact beginSettle_inv h hf hp
    | read k =>
      have hl2 := hl.2
      simp only [afterTxn]
      split
      · rename_i hb
        refine commit_inv ⟨h.static.memWf, h.static.frameCells, h.static.frameWhole, h.static.ctrlReserved,
          h.static.statusReserved, h.static.motReserved⟩ hp (fun h => by rcases h with h | h <;> cases h)
          (fun h => by cases h) (fun _ => ?_) (fun _ => mem_bulkPixels inn)
        exact bulkPixels_length _ _ (by rw [hi]; simp [txnLength, hb])
      · rename_i hb
        have hk : s.frameSh.length = k := hf
        have hkeep : (keepPixel k inn s).frameSh = s.frameSh ++ [singlePixel inn] := by
          simp only [keepPixel]; rw [List.take_of_length_le (by omega)]
        have hcells : ∀ b ∈ (keepPixel k inn s).frameSh, b.toNat ≤ 63 := by
          rw [hkeep]
          intro b hb
          rcases List.mem_append.mp hb with hb | hb
          · exact h.cells b hb
          · rw [List.mem_singleton.mp hb]; exact pixel_le _
        have hklen : (keepPixel k inn s).frameSh.length = k + 1 := by rw [hkeep]; simp [hk]
        rw [if_neg hb] at hl2
        split
        · rename_i hlt
          have hb' : (keepPixel k inn s).frameBulk = s.frameBulk := rfl
          refine beginTxn_inv ⟨⟨h.static.memWf, h.static.frameCells, h.static.frameWhole, h.static.ctrlReserved,
            h.static.statusReserved, h.static.motReserved⟩, h.busy, h.en, h.args, h.rxSh, h.motSh, hcells⟩
            ⟨rfl, by rw [hb', if_neg hb]; exact hlt⟩ hklen hp
        · refine commit_inv ⟨h.static.memWf, h.static.frameCells, h.static.frameWhole, h.static.ctrlReserved,
            h.static.statusReserved, h.static.motReserved⟩ hp (fun h => by rcases h with h | h <;> cases h)
            (fun h => by cases h) (fun _ => by omega) (fun _ => hcells)

/-! ## Edges -/

theorem driveNcs_true_rest {s : State} (he : s.en = true) (hn : s.csManual = true → s.ncs = !s.csAssert) :
    (driveNcs true s).ncs = restNcs s := by
  simp only [driveNcs, restNcs, he, if_true]
  cases hm : s.csManual
  · simp
  · simp [hn hm]

theorem wireNcs_manual {w : Wire} {s : State} (h : s.ncs = wireNcs w s) : s.csManual = true → s.ncs = !s.csAssert := by
  intro hm; rw [h]; simp [wireNcs, hm]

/-- The start of a byte. -/
theorem beginByte_inv {c : Command} {t : Txn} {s : State} (i : Nat) (hr : RunInv c s) (hl : txnLegal c t s)
    (hf : cellsAt t s) (ho : s.eng.out.length = txnLength c t s) (hi : i < s.eng.out.length)
    (hn : s.eng.inn.length = i) (hs : s.sclk = s.cpol) (hc : s.ncs = wireNcs .bitFirst s) :
    Inv (beginByte c t i s) := by
  refine WireInv.inv (t := t) (w := .bitFirst) (c := c) rfl ?_
  refine ⟨hr.congr rfl rfl rfl rfl rfl rfl rfl rfl rfl, ?_, ⟨?_, Nat.le_refl _, Nat.le_refl _, hi, hn⟩, ?_, ?_, hc, rfl⟩
  · cases t <;> exact hl
  · refine Eq.trans ho ?_; cases c <;> cases t <;> rfl
  · cases t <;> exact hf
  · show (if s.cpha then !s.cpol else s.sclk) = (if s.cpha then !s.cpol else s.cpol)
    rw [hs]

theorem wireEdge_inv {c : Command} {t : Txn} {w : Wire} {s : State} (h : WireInv c t w s) :
    Inv (wireEdge c t w s) := by
  obtain ⟨hr, hl, he, hf, hs, hc, hm⟩ := h
  obtain ⟨ho, hb, hh, hw⟩ := he
  cases w with
  | setup =>
    have hw : s.eng.inn = [] := hw
    have hpos : 0 < s.eng.out.length := by rw [ho]; exact txnLength_pos hr.args
    exact beginByte_inv 0 hr hl hf ho hpos (by rw [hw]; rfl) hs hc
  | bitFirst =>
    refine WireInv.inv (t := t) (w := .bitSecond) (c := c) rfl ?_
    refine ⟨hr.congr rfl rfl rfl rfl rfl rfl rfl rfl rfl, ?_, ⟨?_, hb, Nat.le_refl _, hw⟩, ?_, rfl, hc, hm⟩
    · cases t <;> exact hl
    · refine Eq.trans ho ?_; cases c <;> cases t <;> rfl
    · cases t <;> exact hf
  | bitSecond =>
    obtain ⟨hw1, hw2⟩ := hw
    simp only [wireEdge]
    split
    · have hk : (keepAnswer (endBit s)).eng.inn.length = s.eng.byteIdx + 1 := by
        simp [keepAnswer, endBit, hw2]
      have hr' : RunInv c (keepAnswer (endBit s)) := hr.congr rfl rfl rfl rfl rfl rfl rfl rfl rfl
      have hl' : txnLegal c t (keepAnswer (endBit s)) := by cases t <;> exact hl
      have hf' : cellsAt t (keepAnswer (endBit s)) := by cases t <;> exact hf
      have ho' : (keepAnswer (endBit s)).eng.out.length = txnLength c t (keepAnswer (endBit s)) := by
        refine Eq.trans ho ?_; cases c <;> cases t <;> rfl
      unfold endByte
      split
      · rename_i hlt
        split
        · exact beginByte_inv _ hr' hl' hf' ho' hlt hk rfl hc
        · rename_i hg
          refine WireInv.inv (t := t) (w := .gap) (c := c) rfl ?_
          refine ⟨hr'.congr rfl rfl rfl rfl rfl rfl rfl rfl rfl, ?_, ⟨?_, hb, hh, hlt, hk, ?_⟩, ?_, rfl, hc, trivial⟩
          · cases t <;> exact hl
          · refine Eq.trans ho ?_; cases c <;> cases t <;> rfl
          · show (endBit s).gapCycles - 1 < (endBit s).gapCycles; omega
          · cases t <;> exact hf
      · rename_i hge
        have hge : ¬ s.eng.byteIdx + 1 < s.eng.out.length := hge
        refine WireInv.inv (t := t) (w := .hold) (c := c) rfl ?_
        refine ⟨hr'.congr rfl rfl rfl rfl rfl rfl rfl rfl rfl, ?_, ⟨?_, hb, Nat.le_refl _, ?_⟩, ?_, rfl, hc, trivial⟩
        · cases t <;> exact hl
        · refine Eq.trans ho ?_; cases c <;> cases t <;> rfl
        · show (keepAnswer (endBit s)).eng.inn.length = s.eng.out.length
          rw [hk]; omega
        · cases t <;> exact hf
    · refine WireInv.inv (t := t) (w := .bitFirst) (c := c) rfl ?_
      refine ⟨hr.congr rfl rfl rfl rfl rfl rfl rfl rfl rfl, ?_, ⟨?_, ?_, Nat.le_refl _, hw1, hw2⟩, ?_, rfl, hc, rfl⟩
      · cases t <;> exact hl
      · refine Eq.trans ho ?_; cases c <;> cases t <;> rfl
      · show s.eng.bitCnt - 1 ≤ 7; omega
      · cases t <;> exact hf
  | gap =>
    obtain ⟨hw1, hw2, hw3⟩ := hw
    exact beginByte_inv _ hr hl hf ho hw1 hw2 hs hc
  | hold =>
    have hn := driveNcs_true_rest hr.en (wireNcs_manual hc)
    refine WireInv.inv (t := t) (w := .highFirst) (c := c) rfl ?_
    refine ⟨hr.congr rfl rfl rfl rfl rfl rfl rfl rfl rfl, ?_, ⟨?_, hb, Nat.le_refl _, hw⟩, ?_, hs, ?_, rfl⟩
    · cases t <;> exact hl
    · refine Eq.trans ho ?_; cases c <;> cases t <;> rfl
    · cases t <;> exact hf
    · show (driveNcs true s).ncs = if s.csManual then !s.csAssert else true
      rw [hn, restNcs, hr.en]; rfl
  | highFirst =>
    refine WireInv.inv (t := t) (w := .highSecond) (c := c) rfl ?_
    refine ⟨hr.congr rfl rfl rfl rfl rfl rfl rfl rfl rfl, ?_, ⟨?_, hb, Nat.le_refl _, hw⟩, ?_, hs, hc, hm⟩
    · cases t <;> exact hl
    · refine Eq.trans ho ?_; cases c <;> cases t <;> rfl
    · cases t <;> exact hf
  | highSecond =>
    have hw : s.eng.inn.length = s.eng.out.length := hw
    simp only [wireEdge, endTxn]
    refine afterTxn_inv (hr.congr rfl rfl rfl rfl rfl rfl rfl rfl rfl) ?_ ?_ ?_ ⟨hs, ?_, hm⟩
    · cases t <;> exact hl
    · cases t <;> exact hf
    · rw [hw, ho]; cases c <;> cases t <;> rfl
    · show s.ncs = restNcs s
      rw [hc, restNcs, hr.en]
      rfl

theorem wireTick_inv {c : Command} {t : Txn} {w : Wire} {s : State} (hseq : s.seq = .run c (.txn t w))
    (h : WireInv c t w s) : Inv (wireTick c t w s) := by
  have hedge := wireEdge_inv h
  obtain ⟨hr, hl, he, hf, hs, hc, hm⟩ := h
  obtain ⟨ho, hb, hh, hw⟩ := he
  have hl' : ∀ e, txnLegal c t { s with eng := e } := by intro e; cases t <;> exact hl
  have hf' : ∀ e, cellsAt t { s with eng := e } := by intro e; cases t <;> exact hf
  have ho' : ∀ e, txnLength c t { s with eng := e } = txnLength c t s := by intro e; cases c <;> cases t <;> rfl
  cases w <;> simp only [wireTick] <;> split <;> first | exact hedge | skip
  all_goals
    refine WireInv.inv (t := t) (c := c) hseq ?_
  · exact ⟨hr.congr rfl rfl rfl rfl rfl rfl rfl rfl rfl, hl' _, ⟨ho.trans (ho' _).symm, hb, by simp only; omega, hw⟩,
        hf' _, hs, hc, hm⟩
  · exact ⟨hr.congr rfl rfl rfl rfl rfl rfl rfl rfl rfl, hl' _, ⟨ho.trans (ho' _).symm, hb, by simp only; omega, hw⟩,
        hf' _, hs, hc, hm⟩
  · exact ⟨hr.congr rfl rfl rfl rfl rfl rfl rfl rfl rfl, hl' _, ⟨ho.trans (ho' _).symm, hb, by simp only; omega, hw⟩,
        hf' _, hs, hc, hm⟩
  · exact ⟨hr.congr rfl rfl rfl rfl rfl rfl rfl rfl rfl, hl' _, ⟨ho.trans (ho' _).symm, hb, hh, hw.1, hw.2.1,
        Nat.lt_of_le_of_lt (Nat.sub_le _ _) hw.2.2⟩, hf' _, hs, hc, hm⟩
  · exact ⟨hr.congr rfl rfl rfl rfl rfl rfl rfl rfl rfl, hl' _, ⟨ho.trans (ho' _).symm, hb, by simp only; omega, hw⟩,
        hf' _, hs, hc, hm⟩
  · exact ⟨hr.congr rfl rfl rfl rfl rfl rfl rfl rfl rfl, hl' _, ⟨ho.trans (ho' _).symm, hb, by simp only; omega, hw⟩,
        hf' _, hs, hc, hm⟩
  · exact ⟨hr.congr rfl rfl rfl rfl rfl rfl rfl rfl rfl, hl' _, ⟨ho.trans (ho' _).symm, hb, by simp only; omega, hw⟩,
        hf' _, hs, hc, hm⟩

/-- Every edge of the sequencer keeps the invariant. -/
theorem tick_inv {s : State} (h : Inv s) : Inv (tick s) := by
  unfold tick
  split
  · exact h
  · rename_i c hs
    obtain ⟨hr, hf⟩ := h.run_of hs
    have hf : s.frameSh = [] := hf
    have hp := h.pins
    unfold pinsLegal at hp
    rw [hs] at hp
    refine beginTxn_inv hr ?_ ?_ hp
    · cases c <;> simp [firstTxn, txnLegal]
    · cases c <;> exact hf
  · rename_i c t w hs
    exact wireTick_inv hs (h.wire_of hs)
  · rename_i c hs
    obtain ⟨hr, hc, hlt, hf⟩ := h.run_of hs
    have hp := h.pins
    unfold pinsLegal at hp
    rw [hs] at hp
    subst hc
    split
    · unfold endSettle
      exact beginTxn_inv (hr.congr rfl rfl rfl rfl rfl rfl rfl rfl rfl)
        ⟨rfl, by show if _ then _ else _; split <;> simp [Config.nPix]⟩ (by show s.frameSh.length = 0; rw [hf]; rfl) hp
    · exact Inv.of_settle hs (hr.congr rfl rfl rfl rfl rfl rfl rfl rfl rfl) hf (by simp only; omega) hp

/-! ## Host accesses -/

/-- The invariant does not look at the inputs, the read port, the draw counters or the history. -/
theorem Inv.congr {s : State} (h : Inv s) (b : Byte) (ho : List HostItem) (an : List Byte) (sd d : Nat)
    (ev : List Event) :
    Inv { s with busRdata := b, host := ho, answers := an, sensorDraws := sd, draws := d, events := ev } := by
  have hr := h.run
  have hp := h.pins
  refine ⟨h.memWf, h.frameCells, h.frameWhole, h.ctrlReserved, h.statusReserved, h.motReserved, h.busyIff, h.busyEn,
      ?_, ?_⟩
  · unfold runLegal at hr ⊢
    show match s.seq with
      | .idle => _
      | .run c ph => _
    split
    · rename_i hs; rw [hs] at hr; exact hr
    · rename_i c ph hs
      rw [hs] at hr
      obtain ⟨h1, h2, h3, h4, h5⟩ := hr
      refine ⟨by cases c <;> exact h1, h2, h3, h4, ?_⟩
      cases ph with
      | start => exact h5
      | settle => exact h5
      | txn t w =>
        obtain ⟨h6, ⟨h7, h7', h7'', h8⟩, h9⟩ := h5
        refine ⟨by cases t <;> exact h6, ⟨?_, h7', h7'', by cases w <;> exact h8⟩, by cases t <;> exact h9⟩
        refine Eq.trans h7 ?_; cases c <;> cases t <;> rfl
  · unfold pinsLegal at hp ⊢
    show match s.seq with
      | .run _ (.txn _ w) => _
      | .idle => _
      | .run _ .start => _
      | .run _ .settle => _
    split <;> rename_i hs <;> rw [hs] at hp
    · rename_i w; obtain ⟨h1, h2, h3⟩ := hp; exact ⟨h1, h2, by cases w <;> exact h3⟩
    · exact hp
    · exact hp
    · exact hp

theorem record_inv {s : State} (e : Event) (h : Inv s) : Inv (record e s) :=
  h.congr s.busRdata s.host s.answers s.sensorDraws s.draws (s.events ++ [e])

theorem Inv.rest_of {s : State} (hs : s.seq = .idle) (h : Inv s) :
    RestPins s ∧ s.busy = false ∧ s.eng = Engine.idle ∧ s.rxSh = [] ∧ s.frameSh = [] ∧ s.motSh = Motion.zero := by
  have hr := h.run
  have hp := h.pins
  unfold runLegal at hr; unfold pinsLegal at hp
  rw [hs] at hr hp
  refine ⟨hp, ?_, hr.1, hr.2.1, hr.2.2.1, hr.2.2.2⟩
  have := h.busyIff
  rw [hs] at this
  simpa using this

/-- A write of `STATUS` that keeps `BUSY`. -/
theorem status_inv {s : State} (st : Byte) (h : Inv s) (h7 : statusRead st = st)
    (h0 : st.getLsbD 0 = s.status.getLsbD 0) :
    Inv { s with status := st } := by
  obtain hs | ⟨c, ph, hs⟩ : s.seq = .idle ∨ ∃ c ph, s.seq = .run c ph := by
    cases s.seq with
    | idle => exact .inl rfl
    | run c ph => exact .inr ⟨c, ph, rfl⟩
  · obtain ⟨hp, hb, h1, h2, h3, h4⟩ := h.rest_of hs
    refine Inv.of_idle hs ⟨h.memWf, h.frameCells, h.frameWhole, h.ctrlReserved, h7, h.motReserved⟩ ?_ h1 h2 h3 h4 hp
    show st.getLsbD 0 = false; rw [h0]; exact hb
  · obtain ⟨hr, hl⟩ := h.run_of hs
    have hr' : RunInv c { s with status := st } := by
      refine ⟨⟨h.memWf, h.frameCells, h.frameWhole, h.ctrlReserved, h7, h.motReserved⟩, ?_, hr.en, ?_, hr.rxSh,
          hr.motSh, hr.cells⟩
      · show st.getLsbD 0 = true; rw [h0]; exact hr.busy
      · have := hr.args; cases c <;> exact this
    have hp := h.pins
    unfold pinsLegal at hp; rw [hs] at hp
    cases ph with
    | start => exact Inv.of_start hs hr' hl hp
    | settle =>
      obtain ⟨hc, hlt, hf⟩ := hl
      subst hc
      exact Inv.of_settle hs hr' hf hlt hp
    | txn t w =>
      obtain ⟨_, hl, ⟨he, he', he'', he3⟩, hf, h1, h2, h3⟩ := h.wire_of hs
      refine WireInv.inv (c := c) (t := t) (w := w) hs ⟨hr', ?_, ⟨?_, he', he'', ?_⟩, ?_, h1, h2, ?_⟩
      · cases t <;> exact hl
      · refine Eq.trans he ?_; cases c <;> cases t <;> rfl
      · cases w <;> exact he3
      · cases t <;> exact hf
      · cases w <;> exact h3

theorem startCommand_inv {s : State} {c : Command} (hs : s.seq = .idle) (h : Inv s) (he : s.en = true)
    (ha : argsOk c s = true) :
    Inv (startCommand c s) := by
  obtain ⟨hp, hb, h1, h2, h3, h4⟩ := h.rest_of hs
  have hst : ∀ b : Byte, statusRead b = b → statusRead (statusAccept b) = statusAccept b ∧
      (statusAccept b).getLsbD 0 = true := by decide
  refine Inv.of_start (c := c) rfl ⟨⟨h.memWf, h.frameCells, h.frameWhole, h.ctrlReserved, (hst _ h.statusReserved).1,
      h.motReserved⟩,
    (hst _ h.statusReserved).2, he, ?_, h2, h4, by simp [h3]⟩ h3 hp
  cases c <;> exact ha

theorem abort_inv {s : State} (h : Inv s) : Inv (abort s) := by
  have hst : ∀ b : Byte, statusRead b = b → statusRead (statusAbort b) = statusAbort b ∧
      (statusAbort b).getLsbD 0 = false := by decide
  have hct : ∀ b : Byte, ctrlRead b = b → ctrlRead (clearBit b 0) = clearBit b 0 ∧ (clearBit b 0).getLsbD 0 =
      false ∧ (clearBit b 0).getLsbD 1 = b.getLsbD 1 := by decide
  refine Inv.of_idle (by simp) ⟨by simpa using h.memWf, by simpa using h.frameCells, by simpa using h.frameWhole,
      by simpa using (hct _ h.ctrlReserved).1, by simpa using (hst _ h.statusReserved).1, by simpa using h.motReserved⟩
    ?_ (by simp) (by simp) (by simp) (by simp) ⟨?_, ?_, by simp⟩
  · unfold State.busy; rw [abort_status]; exact (hst _ h.statusReserved).2
  · rw [abort_sclk]; unfold State.cpol; rw [abort_ctrl, (hct _ h.ctrlReserved).2.2]
  · have : (abort s).en = false := by unfold State.en; rw [abort_ctrl, (hct _ h.ctrlReserved).2.1]
    simp [restNcs, this]

theorem accept_inv {s : State} (d : Byte) (h : Inv s) : Inv (accept d s) := by
  unfold accept
  cases ha : admission d s with
  | error k =>
    have hst : ∀ (b : Byte) (k : Fin 4), statusRead b = b → statusRead (statusReject b ([.busy, .disabled, .illegal,
        .arg][k])) = statusReject b ([.busy, .disabled, .illegal, .arg][k]) ∧
            (statusReject b ([.busy, .disabled, .illegal, .arg][k])).getLsbD 0 = b.getLsbD 0 := by decide
    refine record_inv _ (status_inv _ h ?_ ?_)
    · cases k
      · exact (hst _ 0 h.statusReserved).1
      · exact (hst _ 1 h.statusReserved).1
      · exact (hst _ 2 h.statusReserved).1
      · exact (hst _ 3 h.statusReserved).1
    · cases k
      · exact (hst _ 0 h.statusReserved).2
      · exact (hst _ 1 h.statusReserved).2
      · exact (hst _ 2 h.statusReserved).2
      · exact (hst _ 3 h.statusReserved).2
  | ok c =>
    rw [admission_ok_iff] at ha
    have hs : s.seq = .idle := by
      by_contra hne
      have := h.busyIff.mpr hne
      rw [ha.1] at this; cases this
    exact startCommand_inv hs h ha.2.1 ha.2.2.2

theorem idle_of_busy {s : State} (h : Inv s) (hb : s.busy = false) : s.seq = .idle := by
  by_contra hne
  have := h.busyIff.mpr hne
  rw [hb] at this; cases this

/-- A write of operand registers while no command runs. -/
theorem operand_inv {s : State} (h : Inv s) (hb : s.busy = false) (a : Byte) (l cd g : BitVec 16) (se : BitVec 24) :
   Inv { s with addr := a, len := l, clkdiv := cd, gap := g, settle := se } := by
  have hs := idle_of_busy h hb
  obtain ⟨hp, _, h1, h2, h3, h4⟩ := h.rest_of hs
  exact Inv.of_idle hs ⟨h.memWf, h.frameCells, h.frameWhole, h.ctrlReserved, h.statusReserved,
      h.motReserved⟩ hb h1 h2 h3 h4 hp

/-- A write of a `TXBUF` byte while no command runs. -/
theorem tx_inv {s : State} (h : Inv s) (hb : s.busy = false) (i : Nat) (hi : i < Config.nBuf) (d : Byte) :
    Inv { s with mem := Memory.writeBlock s.mem (txBase + i) [d] } := by
  have hs := idle_of_busy h hb
  obtain ⟨hp, _, h1, h2, h3, h4⟩ := h.rest_of hs
  have hw : Memory.wf (Memory.writeBlock s.mem (txBase + i) [d]) = true := wf_writeBlock h.memWf (fun j hj => by
    simp only [List.length_singleton] at hj
    rw [show txBase + i + j = txBase + i by omega]; exact bufferAddr_tx hi)
  have hk : ∀ k, Memory.lookup (Memory.writeBlock s.mem (txBase + i) [d]) (frameBase + k) =
      Memory.lookup s.mem (frameBase + k) := by
    intro k
    rw [lookup_writeByte, if_neg]
    simp only [txBase, frameBase, Config.nBuf] at *; omega
  refine Inv.of_idle hs ⟨hw, ?_, ?_, h.ctrlReserved, h.statusReserved, h.motReserved⟩ hb h1 h2 h3 h4 hp
  · simp only [hk]; exact h.frameCells
  · simp only [hk]; exact h.frameWhole

theorem storeIdle_inv {s : State} (f : State → State) (h : Inv s) (hf : s.busy = false → Inv (f s)) :
    Inv (storeIdle f s) := by
  unfold storeIdle; cases hb : s.busy
  · exact hf hb
  · exact h

theorem ctrlWrite_inv {s : State} (d : Byte) (h : Inv s) : Inv (ctrlWrite d s) := by
  unfold ctrlWrite
  cases hb : s.busy
  · have hs := idle_of_busy h hb
    obtain ⟨hp, _, h1, h2, h3, h4⟩ := h.rest_of hs
    have : ∀ d : Byte, ctrlRead (ctrlWritten d) = ctrlWritten d := by decide
    exact Inv.of_idle hs ⟨h.memWf, h.frameCells, h.frameWhole, this d, h.statusReserved,
        h.motReserved⟩ hb h1 h2 h3 h4 ⟨rfl, rfl, rfl⟩
  · simp only [if_true]
    split
    · exact h
    · exact abort_inv h

theorem regionWrite_inv {s : State} (r : Region) (hr : ∀ i, r = .txbuf i → i < Config.nBuf) (d : Byte) (h : Inv s) :
    Inv (regionWrite r d s) := by
  cases r with
  | ctrl => exact ctrlWrite_inv d h
  | status =>
    have hst : ∀ b d : Byte, statusRead b = b → statusRead (statusW1c b d) = statusW1c b d ∧
        (statusW1c b d).getLsbD 0 = b.getLsbD 0 := by
      intro b d hb
      rw [statusRead_eq_iff] at hb ⊢
      have h7E : (0x7E#8).getLsbD 0 = false := rfl
      unfold statusW1c
      constructor
      · rw [BitVec.getLsbD_and, hb]; rfl
      · rw [BitVec.getLsbD_and, BitVec.getLsbD_not, BitVec.getLsbD_and, h7E]; simp
    exact status_inv _ h (hst _ d h.statusReserved).1 (hst _ d h.statusReserved).2
  | cmd => exact accept_inv d h
  | addr => exact storeIdle_inv (fun s => { s with addr := d }) h (fun hb => operand_inv h hb _ _ _ _ _)
  | len i =>
    exact storeIdle_inv (fun s => { s with len := setByteLane s.len i d }) h (fun hb => operand_inv h hb _ _ _ _ _)
  | clkdiv i =>
    exact storeIdle_inv (fun s => { s with clkdiv := setByteLane s.clkdiv i d }) h
      (fun hb => operand_inv h hb _ _ _ _ _)
  | gap i =>
    exact storeIdle_inv (fun s => { s with gap := setByteLane s.gap i d }) h (fun hb => operand_inv h hb _ _ _ _ _)
  | settle i =>
    exact storeIdle_inv (fun s => { s with settle := setByteLane s.settle i d }) h
      (fun hb => operand_inv h hb _ _ _ _ _)
  | motion i => exact h
  | txbuf i =>
    exact storeIdle_inv (fun s => { s with mem := Memory.writeBlock s.mem (txBase + i) [d] }) h
      (fun hb => tx_inv h hb i (hr i rfl) d)
  | rxbuf i => exact h
  | frame i => exact h
  | reserved => exact h

theorem hostCycle_inv {s : State} (f : State → State) (h : Inv (f s)) : Inv (hostCycle f s) := by
  unfold hostCycle; split
  · exact h
  · exact tick_inv h

theorem busWrite_inv {s : State} (a : HostAddr) (d : Byte) (h : Inv s) : Inv (busWrite a d s) :=
  regionWrite_inv _ (fun _ hi => regionAt_txbuf_lt hi) d (record_inv _ h)

theorem busRead_inv {s : State} (a : HostAddr) (h : Inv s) : Inv (busRead a s) := by
  unfold busRead
  simp only
  rw [regionRead_snd]
  exact record_inv _ (h.congr _ s.host s.answers s.sensorDraws _ s.events)

theorem spi_run (out : List Byte) {s : State} {c : Command} (h : RunInv c s)
    (hn : s.csManual = true → s.ncs = !s.csAssert) :
    RunInv c (spiTxn out s).2 ∧ RestPins (spiTxn out s).2 := by
  refine ⟨h.congr rfl rfl rfl rfl rfl rfl rfl rfl rfl, ?_, ?_, rfl⟩
  · rfl
  · show (driveNcs true (dropAnswers out.length s)).ncs = restNcs (dropAnswers out.length s)
    exact driveNcs_true_rest h.en hn

theorem rest_manual {s : State} (he : s.en = true) (hp : RestPins s) : s.csManual = true → s.ncs = !s.csAssert := by
  intro hm; rw [hp.2.1]; simp [restNcs, he, hm]


end Sys2Proof.Machine
end

