-- ==== Sys2Proof/Laws/PerInstr.lean ====
section
/-! SUPPORT. Laws/PerInstr.lean: statements made for every instruction, one lemma a constructor. -/

namespace Sys2Proof.Laws.EncodeWf

/-- The encoder writes only words R59 and R60 of 30_encoding.md call valid. -/
def Statement (i : Instr) : Prop := (encode i).wellFormed = true

/-- A `BUS_RD` word has `Z` = 000 and `D` = 0x00. -/
theorem busRd (a : HostAddr) : Statement (.busRd a) := by
  have hz : busopWord false a 0#8 &&& 0x700000#24 = 0#24 := by
    apply BitVec.eq_of_getLsbD_eq
    intro i hi
    rw [BitVec.getLsbD_and, getLsbD_busopWord]
    have hm : ∀ i : Fin 24, (0x700000#24).getLsbD i.val = decide (20 ≤ i.val ∧ i.val < 23) := by decide
    rw [hm ⟨i, hi⟩]
    by_cases h : 20 ≤ i ∧ i < 23
    · simp [show ¬i < 8 by omega, show ¬i < 20 by omega, show i ≠ 23 by omega]
    · simp [h]
  have hd : busopWord false a 0#8 &&& 0x0000FF#24 = 0#24 := by
    apply BitVec.eq_of_getLsbD_eq
    intro i hi
    rw [BitVec.getLsbD_and, getLsbD_busopWord]
    have hm : ∀ i : Fin 24, (0x0000FF#24).getLsbD i.val = decide (i.val < 8) := by decide
    rw [hm ⟨i, hi⟩]
    by_cases h : i < 8 <;> simp [h]
  simp [Statement, encode, HostWord.wellFormed, hz, hd]

/-- A `BUS_WR` word has `Z` = 000. -/
theorem busWr (a : HostAddr) (d : Byte) : Statement (.busWr a d) := by
  have hz : busopWord true a d &&& 0x700000#24 = 0#24 := by
    apply BitVec.eq_of_getLsbD_eq
    intro i hi
    rw [BitVec.getLsbD_and, getLsbD_busopWord]
    have hm : ∀ i : Fin 24, (0x700000#24).getLsbD i.val = decide (20 ≤ i.val ∧ i.val < 23) := by decide
    rw [hm ⟨i, hi⟩]
    by_cases h : 20 ≤ i ∧ i < 23
    · simp [show ¬i < 8 by omega, show ¬i < 20 by omega, show i ≠ 23 by omega]
    · simp [h]
  have hw : busopWord true a d &&& 0x800000#24 ≠ 0#24 := by
    intro h
    have := congrArg (fun w => BitVec.getLsbD w 23) h
    rw [BitVec.getLsbD_and, getLsbD_busopWord] at this
    simp at this
  simp [Statement, encode, HostWord.wellFormed, hz, hw]

theorem xfer : Statement .xfer := rfl
theorem rdreg : Statement .rdreg := rfl
theorem wrreg : Statement .wrreg := rfl
theorem motion : Statement .motion := rfl
theorem frame : Statement .frame := rfl

end Sys2Proof.Laws.EncodeWf
end

