-- ==== Sys2Proof/Laws/Progress.lean ====
section
/-! SUPPORT. Laws/Progress.lean: what is left of a running command, which every edge of the sequencer makes less. -/

namespace Sys2Proof.Machine

/-- The commands' phases, counted down to the last transaction. -/
def phaseRank : Phase → Nat
  | .start => 1000
  | .txn .arm _ => 950
  | .settle => 940
  | .txn (.read k) _ => 900 - k
  | .txn .single _ => 1

/-- The places of a transaction, counted down to its end. -/
def placeRank (w : Wire) (e : Engine) : Nat :=
  match w with
  | .setup => 2 * e.out.length + 5
  | .bitFirst => 2 * (e.out.length - e.byteIdx) + 4
  | .bitSecond => 2 * (e.out.length - e.byteIdx) + 4
  | .gap => 2 * (e.out.length - e.byteIdx) + 3
  | .hold => 3
  | .highFirst => 2
  | .highSecond => 1

/-- The half-periods of a byte, counted down to its end. -/
def bitRank (w : Wire) (e : Engine) : Nat :=
  match w with
  | .bitFirst => 2 * e.bitCnt + 1
  | .bitSecond => 2 * e.bitCnt
  | .setup => 0
  | .gap => 0
  | .hold => 0
  | .highFirst => 0
  | .highSecond => 0

/-- The counter of the wait at a place. -/
def counterRank (w : Wire) (e : Engine) : Nat :=
  match w with
  | .gap => e.gapCnt
  | .setup => e.halfCnt
  | .bitFirst => e.halfCnt
  | .bitSecond => e.halfCnt
  | .hold => e.halfCnt
  | .highFirst => e.halfCnt
  | .highSecond => e.halfCnt

/-- What is left of a running command, in lexicographic order. -/
def State.left (s : State) : Nat × Nat × Nat × Nat :=
  match s.seq with
  | .idle => (0, 0, 0, 0)
  | .run _ .start => (1000, 0, 0, 0)
  | .run _ .settle => (940, 0, 0, s.eng.settleCnt)
  | .run _ (.txn t w) => (phaseRank (.txn t w), placeRank w s.eng, bitRank w s.eng, counterRank w s.eng)

/-- The order of `State.left`. -/
def LeftLt : Nat × Nat × Nat × Nat → Nat × Nat × Nat × Nat → Prop :=
  Prod.Lex (· < ·) (Prod.Lex (· < ·) (Prod.Lex (· < ·) (· < ·)))

theorem leftLt_wf : WellFounded LeftLt :=
  WellFounded.prod_lex Nat.lt_wfRel.wf
    (WellFounded.prod_lex Nat.lt_wfRel.wf (WellFounded.prod_lex Nat.lt_wfRel.wf Nat.lt_wfRel.wf))

theorem leftLt_iff (a b c d a' b' c' d' : Nat) : LeftLt (a, b, c, d) (a', b', c', d') ↔
    a < a' ∨ (a = a' ∧ (b < b' ∨ (b = b' ∧ (c < c' ∨ (c = c' ∧ d < d'))))) := by
  simp [LeftLt, Prod.lex_def]

theorem left_txn {s : State} {c : Command} {t : Txn} {w : Wire} (h : s.seq = .run c (.txn t w)) :
    s.left = (phaseRank (.txn t w), placeRank w s.eng, bitRank w s.eng, counterRank w s.eng) := by
  unfold State.left; rw [h]

theorem left_eng {s : State} {c : Command} {t : Txn} {w : Wire} (e : Engine) (h : s.seq = .run c (.txn t w)) :
    State.left { s with eng := e } = (phaseRank (.txn t w), placeRank w e, bitRank w e, counterRank w e) :=
  left_txn (s := { s with eng := e }) h

theorem left_settle {s : State} {c : Command} (h : s.seq = .run c .settle) : s.left = (940, 0, 0, s.eng.settleCnt) := by
  unfold State.left; rw [h]

theorem phaseRank_place (t : Txn) (w w' : Wire) : phaseRank (.txn t w) = phaseRank (.txn t w') := by
  cases t <;> rfl

/-- An edge of a running command ends it or leaves less of it. -/
theorem tick_left {s : State} (h : Inv s) (hr : s.seq ≠ .idle) :
    (tick s).seq = .idle ∨ LeftLt (tick s).left s.left := by
  obtain ⟨c, ph, hs⟩ : ∃ c ph, s.seq = .run c ph := by
    cases hq : s.seq with
    | idle => exact absurd hq hr
    | run c ph => exact ⟨c, ph, rfl⟩
  cases ph with
  | start =>
    right
    have e : tick s = beginTxn c (firstTxn c) s := by simp only [tick, hs]
    have hl : s.left = (1000, 0, 0, 0) := by unfold State.left; rw [hs]
    rw [e, hl, left_txn (c := c) (t := firstTxn c) (w := .setup) rfl, leftLt_iff]
    left; cases c <;> simp [firstTxn, phaseRank]
  | settle =>
    right
    have hl : s.left = (940, 0, 0, s.eng.settleCnt) := by unfold State.left; rw [hs]
    simp only [tick, hs]
    split
    · rw [hl, left_txn (c := c) (t := .read 0) (w := .setup) rfl, leftLt_iff]
      left; simp [phaseRank]
    · rw [hl, left_settle (c := c) rfl, leftLt_iff]
      refine .inr ⟨rfl, .inr ⟨rfl, .inr ⟨rfl, ?_⟩⟩⟩
      show s.eng.settleCnt - 1 < s.eng.settleCnt
      omega
  | txn t w =>
    have hW := h.wire_of hs
    obtain ⟨hrun, hlg, ⟨ho, hb, hh, hw⟩, hf, _, _, _⟩ := hW
    rw [left_txn hs]
    have et : tick s = wireTick c t w s := by simp only [tick, hs]
    rw [et]
    have hbb : ∀ (i : Nat) (u : State), u.eng.out = s.eng.out → (i < s.eng.out.length) →
        2 * (s.eng.out.length - i) + 4 < placeRank w s.eng →
        LeftLt (beginByte c t i u).left (phaseRank (.txn t w), placeRank w s.eng, bitRank w s.eng,
            counterRank w s.eng) := by
      intro i u hu hi hlt
      rw [left_txn (c := c) (t := t) (w := .bitFirst) rfl, leftLt_iff]
      refine .inr ⟨phaseRank_place _ _ _, .inl ?_⟩
      show 2 * (u.eng.out.length - i) + 4 < _
      rw [hu]; exact hlt
    cases w with
    | setup =>
      simp only [wireTick]
      split
      · right
        have hw : s.eng.inn = [] := hw
        have hpos : 0 < s.eng.out.length := by rw [ho]; exact txnLength_pos hrun.args
        exact hbb 0 s rfl hpos (by simp only [placeRank]; omega)
      · right
        rw [left_eng (w := .setup) _ hs, leftLt_iff]
        refine .inr ⟨rfl, .inr ⟨rfl, .inr ⟨rfl, ?_⟩⟩⟩
        simp only [counterRank]; omega
    | bitFirst =>
      simp only [wireTick]
      split
      · right
        rw [wireEdge, left_txn (c := c) (t := t) (w := .bitSecond) rfl, leftLt_iff]
        refine .inr ⟨phaseRank_place _ _ _, .inr ⟨rfl, .inl ?_⟩⟩
        show 2 * s.eng.bitCnt < 2 * s.eng.bitCnt + 1
        omega
      · right
        rw [left_eng (w := .bitFirst) _ hs, leftLt_iff]
        refine .inr ⟨rfl, .inr ⟨rfl, .inr ⟨rfl, ?_⟩⟩⟩
        simp only [counterRank]; omega
    | bitSecond =>
      simp only [wireTick]
      split
      · right
        obtain ⟨hw1, hw2⟩ := hw
        simp only [wireEdge]
        split
        · unfold endByte
          split
          · rename_i hlt
            have hlt : s.eng.byteIdx + 1 < s.eng.out.length := hlt
            split
            · exact hbb _ _ rfl hlt (by simp only [placeRank, endBit]; omega)
            · rw [left_txn (c := c) (t := t) (w := .gap) rfl, leftLt_iff]
              refine .inr ⟨phaseRank_place _ _ _, .inl ?_⟩
              show 2 * (s.eng.out.length - s.eng.byteIdx) + 3 < 2 * (s.eng.out.length - s.eng.byteIdx) + 4
              omega
          · rw [left_txn (c := c) (t := t) (w := .hold) rfl, leftLt_iff]
            refine .inr ⟨phaseRank_place _ _ _, .inl ?_⟩
            show 3 < 2 * (s.eng.out.length - s.eng.byteIdx) + 4
            omega
        · rename_i hne
          have hne : ¬ s.eng.bitCnt = 0 := hne
          rw [left_txn (c := c) (t := t) (w := .bitFirst) rfl, leftLt_iff]
          refine .inr ⟨phaseRank_place _ _ _, .inr ⟨rfl, .inl ?_⟩⟩
          show 2 * (s.eng.bitCnt - 1) + 1 < 2 * s.eng.bitCnt
          omega
      · right
        rw [left_eng (w := .bitSecond) _ hs, leftLt_iff]
        refine .inr ⟨rfl, .inr ⟨rfl, .inr ⟨rfl, ?_⟩⟩⟩
        simp only [counterRank]; omega
    | gap =>
      obtain ⟨hw1, hw2, hw3⟩ := hw
      simp only [wireTick]
      split
      · exact .inr (hbb _ s rfl hw1 (by simp only [placeRank]; omega))
      · right
        rw [left_eng (w := .gap) _ hs, leftLt_iff]
        refine .inr ⟨rfl, .inr ⟨rfl, .inr ⟨rfl, ?_⟩⟩⟩
        simp only [counterRank]; omega
    | hold =>
      right
      simp only [wireTick]
      split
      · rw [wireEdge, releaseTxn, left_txn (c := c) (t := t) (w := .highFirst) rfl, leftLt_iff]
        exact .inr ⟨phaseRank_place _ _ _, .inl (by simp [placeRank])⟩
      · rw [left_eng (w := .hold) _ hs, leftLt_iff]
        refine .inr ⟨rfl, .inr ⟨rfl, .inr ⟨rfl, ?_⟩⟩⟩
        simp only [counterRank]; omega
    | highFirst =>
      right
      simp only [wireTick]
      split
      · rw [wireEdge, left_txn (c := c) (t := t) (w := .highSecond) rfl, leftLt_iff]
        exact .inr ⟨phaseRank_place _ _ _, .inl (by simp [placeRank])⟩
      · rw [left_eng (w := .highFirst) _ hs, leftLt_iff]
        refine .inr ⟨rfl, .inr ⟨rfl, .inr ⟨rfl, ?_⟩⟩⟩
        simp only [counterRank]; omega
    | highSecond =>
      simp only [wireTick]
      split
      · simp only [wireEdge, endTxn]
        generalize hv : record (.txn s.eng.out s.eng.inn) { s with eng := Engine.idle } = v
        have hvb : v.frameBulk = s.frameBulk := by subst hv; rfl
        cases c with
        | xfer => exact .inl (by simp [afterTxn])
        | rdreg => exact .inl (by simp [afterTxn])
        | wrreg => exact .inl (by simp [afterTxn])
        | motion => exact .inl (by simp [afterTxn])
        | frame =>
          cases t with
          | single => exact absurd rfl hlg
          | arm =>
            right
            simp only [afterTxn]
            unfold beginSettle
            split
            · rw [endSettle, left_txn (c := .frame) (t := .read 0) (w := .setup) rfl, leftLt_iff]
              left; simp [phaseRank]
            · rw [left_settle (c := .frame) rfl, leftLt_iff]
              left; simp [phaseRank]
          | read k =>
            obtain ⟨-, hk⟩ := hlg
            simp only [afterTxn]
            split
            · exact .inl (by simp)
            · split
              · right
                rw [left_txn (c := .frame) (t := .read (k + 1)) (w := .setup) rfl, leftLt_iff]
                left
                rename_i hlt
                simp only [Config.nPix] at hlt
                simp only [phaseRank]; omega
              · exact .inl (by simp)
      · right
        rw [left_eng (w := .highSecond) _ hs, leftLt_iff]
        refine .inr ⟨rfl, .inr ⟨rfl, .inr ⟨rfl, ?_⟩⟩⟩
        simp only [counterRank]; omega

end Sys2Proof.Machine
end

