-- ==== Sys2Proof/Tests/Slice0.lean ====
section
/-! SUPPORT. Tests/Slice0.lean: the model against the spec's own vectors (95_test_vectors.md), one step at a time, and
for every obligation with hypotheses a concrete state and operands that meet them. -/

namespace Sys2Proof.Tests

open Sys2Proof Sys2Proof.Machine

/-! ## The checks of WellFormed refuse ill-formed terms (30_encoding.md R59, R61; 40_host_bus.md R71) -/

theorem test_wf_busop_Z_nonzero : (HostWord.busop24 0x900000#24).wellFormed = false := by decide
theorem test_wf_busop_read_Z_nonzero : (HostWord.busop24 0x400000#24).wellFormed = false := by decide
theorem test_wf_busop_read_with_data : (HostWord.busop24 0x020001#24).wellFormed = false := by decide
theorem test_wf_cmd8_zero : (HostWord.cmd8 0x00#8).wellFormed = false := by decide
theorem test_wf_cmd8_above : (HostWord.cmd8 0x06#8).wellFormed = false := by decide
theorem test_wf_both_strobes : (PortCycle.mk true true true 0#12 0#8).wellFormed = false := by decide
theorem test_wf_item_bad_busop : (HostItem.word (.busop24 0x900000#24)).wellFormed = false := by decide
theorem test_wf_item_both_strobes : (HostItem.ports ⟨true, true, true, 0#12, 0#8⟩).wellFormed = false := by decide
theorem test_wf_accepts : (HostWord.busop24 0x801FFF#24).wellFormed = true ∧
    (HostWord.busop24 0x078300#24).wellFormed = true ∧
    (HostWord.cmd8 0x01#8).wellFormed = true ∧ (HostWord.cmd8 0x05#8).wellFormed = true := by decide

/-! ## Words written out bit by bit from the encodings (30_encoding.md R59, R60; 95_test_vectors.md 2.1) -/

theorem test_decode_bus_wr : decode (.busop24 0b1000_0000_0001_1111_1111_1111#24) = .ok (.busWr 0x01F#12 0xFF#8) := by
  decide
theorem test_decode_bus_rd : decode (.busop24 0b0000_0010_0000_0000_0000_0000#24) = .ok (.busRd 0x200#12) := by decide
theorem test_decode_xfer : decode (.cmd8 0b0000_0001#8) = .ok .xfer := by decide
theorem test_decode_rdreg : decode (.cmd8 0b0000_0010#8) = .ok .rdreg := by decide
theorem test_decode_wrreg : decode (.cmd8 0b0000_0011#8) = .ok .wrreg := by decide
theorem test_decode_motion : decode (.cmd8 0b0000_0100#8) = .ok .motion := by decide
theorem test_decode_frame : decode (.cmd8 0b0000_0101#8) = .ok .frame := by decide
theorem test_decode_refuses : decode (.busop24 0x900000#24) = .error .busopZ ∧
    decode (.busop24 0x020001#24) = .error .busopReadData ∧ decode (.busop24 0x400000#24) = .error .busopZ ∧
    decode (.cmd8 0x80#8) = .error .illegalCommand := by decide
theorem test_table_words : decodeTableWord 24 0x800204 = some (.busWr 0x002#12 0x04#8) ∧
    decodeTableWord 24 0x078300 = some (.busRd 0x783#12) ∧ decodeTableWord 8 0x03 = some .wrreg ∧
    decodeTableWord 8 0x06 = none ∧ decodeTableWord 24 0x900000 = none := by decide

/-! ## Small states -/

/-- The next state of an outcome. -/
def after : Host.Outcome State Fault Refusal → State
  | .next t => t
  | .fault _ => State.reset
  | .refused _ => State.reset

/-- The channel open in mode `ctrl` with H = 1, `n` bytes to send or read at sensor address `a`, `TXBUF` from index 0
and
the sensor's coming answers. -/
def bench (ctrl a : Byte) (n : BitVec 16) (tx ans : List Byte) : State :=
  { State.reset with
    ctrl := ctrl, clkdiv := 0#16, addr := a, len := n, mem := Memory.cells txBase tx, answers := ans
    sclk := ctrl.getLsbD 1, ncs := !(ctrl.getLsbD 3 && ctrl.getLsbD 4) }

/-- The transactions of a run: the bytes sent and the answers. -/
def txns (s : State) : List (List Byte × List Byte) :=
  s.events.filterMap fun e =>
    match e with
    | .txn o i => some (o, i)
    | .txnAbort _ _ => none
    | .busRd _ _ => none
    | .busWr _ _ => none
    | .cmdAccept _ => none
    | .cmdReject _ _ => none
    | .wait _ => none
    | .cmdDone _ => none
    | .cmdAbort _ => none

/-! ## Host bus (95_test_vectors.md 2.1: B2, B4, B6, B9) -/

theorem test_bus_rd_clkdiv_at_reset : (after (exec (.busRd 0x006#12) State.reset)).busRdata = 0xFF#8 := by decide
theorem test_bus_rd_reserved : (after (exec (.busRd 0xFFF#12) State.reset)).busRdata = 0x00#8 ∧
    (after (exec (.busRd 0x784#12) State.reset)).busRdata = 0x00#8 := by decide
theorem test_bus_wr_ctrl_all_ones : (after (exec (.busWr 0x000#12 0xFF#8) State.reset)).ctrl = 0x3F#8 ∧
    (after (exec (.busWr 0x000#12 0xFF#8) State.reset)).ncs = false := by decide
theorem test_bus_wr_status_w1c :
    (after (exec (.busWr 0x001#12 0x02#8) { State.reset with status := 0x06#8 })).status = 0x04#8 := by decide

/-! ## Acceptance (95_test_vectors.md 2.2: E2, E12) -/

theorem test_illegal_word_while_disabled :
    (after (step { State.reset with host := [.word (.cmd8 0x00#8)] })).status = 0x20#8 := by
  decide
theorem test_illegal_before_arg :
    (after (step { bench 0x01#8 0#8 0#16 [] [] with host := [.word (.cmd8 0x06#8)] })).status = 0x08#8 := by decide

/-! ## The commands (95_test_vectors.md: X3, X4, A6, E7, A9, A10, M1, M4, W9) -/

theorem test_xfer_keeps_bytes_above_len :
    (after (exec .xfer { bench 0x01#8 0#8 2#16 [] [9#8, 9#8] with
      mem := Memory.cells txBase [7#8, 8#8] ++ Memory.cells rxBase [1#8, 2#8, 3#8, 4#8] })).mem =
      Memory.cells txBase [7#8, 8#8] ++ Memory.cells rxBase [9#8, 9#8, 3#8, 4#8] := by decide
theorem test_xfer_wire :
    txns (after (exec .xfer (bench 0x01#8 0#8 3#16 [0x50#8, 0xFF#8, 0xFF#8] [0x11#8, 0x22#8, 0x33#8]))) =
      [([0x50#8, 0xFF#8, 0xFF#8], [0x11#8, 0x22#8, 0x33#8])] := by decide
theorem test_rdreg_strips_one :
    (after (exec .rdreg (bench 0x07#8 0x50#8 4#16 [] [0xEE#8, 0x80#8, 0x05#8, 0xFE#8, 0x20#8]))).mem =
      Memory.cells rxBase [0x80#8, 0x05#8, 0xFE#8, 0x20#8] := by decide
theorem test_rdreg_refuses_write_bit : (after (exec .rdreg (bench 0x01#8 0x80#8 1#16 [] []))).status = 0x04#8 := by
  decide
theorem test_wrreg_of_8A :
    txns (after (exec .wrreg (bench 0x01#8 0x8A#8 1#16 [0x19#8] [0x01#8, 0x02#8]))) =
      [([0x8A#8, 0x19#8], [0x01#8, 0x02#8])] := by decide
theorem test_wrreg_three_bytes :
    (txns (after (exec .wrreg (bench 0x01#8 0x20#8 3#16 [1#8, 2#8, 3#8] [0#8, 0#8, 0#8, 0#8])))).map Prod.fst =
      [[0xA0#8, 1#8, 2#8, 3#8]] := by decide
theorem test_motion_M1 :
    (after (exec .motion (bench 0x07#8 0#8 0#16 [] [0xEE#8, 0x80#8, 0x05#8, 0xFE#8, 0x20#8]))).mot =
      ⟨0x80#8, 0x05#8, 0xFE#8, 0x20#8, 0x05#8, 0xFF#8, 0x05#8⟩ := by decide
theorem test_motion_M4 :
    (after (exec .motion (bench 0x07#8 0#8 0#16 [] [0xEE#8, 0x90#8, 0x7F#8, 0x80#8, 0x11#8]))).mot =
      ⟨0x90#8, 0x7F#8, 0x80#8, 0x11#8, 0x7F#8, 0x81#8, 0x06#8⟩ := by decide
theorem test_frame_disabled : (after (exec .frame State.reset)).status = 0x20#8 ∧
    (after (exec .frame State.reset)).events = [.busWr 0x002#12 0x05#8, .cmdReject 0x05#8 .disabled] := by decide
theorem test_frame_two_pixels :
    (frameSingle 2 0 (bench 0x01#8 0#8 0#16 [] [0xEE#8, 0xC5#8, 0xEE#8, 0x40#8])).frameSh = [0x05#8, 0x00#8] ∧
    bulkPixels [0xEE#8, 0xC5#8, 0xEE#8, 0x40#8] = [0x05#8, 0x00#8] := by decide

/-! ## Operands and flags (95_test_vectors.md: W1, A2, A4, 2.5, F1) -/

theorem test_delta8 : [0x00#8, 0x7F#8, 0x80#8, 0xFE#8, 0xFF#8].map delta8 = [0x00#8, 0x7F#8, 0x81#8, 0xFF#8, 0x00#8] :=
  by decide
theorem test_motion_flags : [0x00#8, 0x10#8, 0x80#8, 0x90#8, 0x6F#8, 0xEF#8, 0x7F#8].map motionFlags =
    [0x00#8, 0x02#8, 0x05#8, 0x06#8, 0x00#8, 0x05#8, 0x02#8] := by decide
theorem test_encWrite :
    [0x0A#8, 0x13#8, 0x00#8, 0x7F#8, 0x8A#8].map encWrite = [0x8A#8, 0x93#8, 0x80#8, 0xFF#8, 0x8A#8] := by decide
theorem test_decAddr :
    decAddr 0x93#8 = (true, 0x13#7) ∧ decAddr 0x50#8 = (false, 0x50#7) ∧ decAddr 0xFF#8 = (true, 0x7F#7) := by decide
theorem test_pixel : [0xFF#8, 0xC5#8, 0x40#8, 0x3F#8].map pixel = [0x3F#8, 0x05#8, 0x00#8, 0x3F#8] := by decide

/-! ## The wire, cycle by cycle (95_test_vectors.md 2.3: X4, X5, X7; 2.6: F9) -/

/-- X4: `XFER` of 0xA5 in mode 0 with H = 1, from its accept on. -/
def x4 : State := after (exec (.busWr 0x002#12 0x01#8) (bench 0x01#8 0#8 1#16 [0xA5#8] [0x61#8]))

/-- X5: the same byte in mode 3, answered 0x61. -/
def x5 : State := after (exec (.busWr 0x002#12 0x01#8) (bench 0x07#8 0#8 1#16 [0xA5#8] [0x61#8]))

theorem test_x4_commit_cycle : (ticks 20 x4).busy = true ∧ (ticks 21 x4).busy = false ∧ (ticks 21 x4).done = true := by
  decide
theorem test_x4_ncs_low_18 : (ticks 1 x4).ncs = false ∧ (ticks 18 x4).ncs = false ∧ (ticks 19 x4).ncs = true := by
  decide
theorem test_x4_mosi_bits : [2, 4, 6, 8, 10, 12, 14, 16].map (fun k => (ticks k x4).mosi) =
    [true, false, true, false, false, true, false, true] := by decide
theorem test_x4_rising_edges : [2, 3, 4, 5, 16, 17, 18].map (fun k => (ticks k x4).sclk) =
    [false, true, false, true, false, true, false] := by decide
theorem test_x5_answer : (ticks 21 x5).mem = Memory.cells txBase [0xA5#8] ++ Memory.cells rxBase [0x61#8] := by decide
theorem test_x7_cycles : State.txnCycles { State.reset with clkdiv := 1#16, gap := 3#16 } 2 = 78 := by decide
theorem test_x8_cycles : State.txnCycles { State.reset with clkdiv := 24#16 } 2 = 900 := by decide
theorem test_p4_frame_cycles :
    State.commandCycles { State.reset with ctrl := 0x27#8, clkdiv := 24#16, settle := 0x0126EC#24 } .frame =
      796500 := by decide

/-! ## Abort (95_test_vectors.md 2.2: E17) -/

theorem test_abort_mid_byte :
    (after (exec (.busWr 0x000#12 0x06#8) (ticks 5 x5))).status = 0x40#8 ∧
    (after (exec (.busWr 0x000#12 0x06#8) (ticks 5 x5))).ctrl = 0x06#8 ∧
    (after (exec (.busWr 0x000#12 0x06#8) (ticks 5 x5))).ncs = true ∧
    (after (exec (.busWr 0x000#12 0x06#8) (ticks 5 x5))).events.drop 2 =
      [.busWr 0x000#12 0x06#8, .txnAbort [0xA5#8] [], .cmdAbort .xfer] := by decide

/-! ## Witnesses: states and operands that meet every obligation's hypotheses -/

/-- The channel open, nothing else programmed. -/
def opened : State := bench 0x01#8 0#8 0#16 [] []

/-- `n` bytes to send or read at address 0x7F, every command acceptable. -/
def ready (n : BitVec 16) : State := bench 0x01#8 0x7F#8 n [] []

/-- A `FRAME` in its settle wait. -/
def settling : State := { opened with status := 0x01#8, seq := .run .frame .settle, settle := 2#24 }

theorem witness_AddressByteDecodesBack : (0x00#8).getLsbD 7 = false ∧ (0x7F#8).getLsbD 7 = false ∧
    (0x80#8).getLsbD 7 = true ∧ (0xFF#8).getLsbD 7 = true := by decide

theorem witness_StepRunsTheDecodedInstruction :
    (State.withFetchWord opened 24 0x800204).host = .word (.busop24 0x800204#24) :: [] ∧
    decode (.busop24 0x800204#24) = .ok (.busWr 0x002#12 0x04#8) := by decide

theorem witness_StepWithoutAnInstruction : State.reset.host = [] ∧
    (¬(1 ≤ (0x00#8).toNat ∧ (0x00#8).toNat ≤ 5) ∧ ¬(1 ≤ (0x06#8).toNat ∧ (0x06#8).toNat ≤ 5)) ∧
    ({ opened with host := [.word (.cmd8 0x06#8)] } : State).host = .word (.cmd8 0x06#8) :: [] ∧
    (({ opened with host := [.word (.busop24 0x020001#24)] } : State).host = .word (.busop24 0x020001#24) :: [] ∧
      (HostWord.busop24 0x020001#24).wellFormed = false) ∧
    ({ opened with host := [.ports ⟨true, true, true, 0#12, 0#8⟩] } : State).host =
      .ports ⟨true, true, true, 0#12, 0#8⟩ :: [] := by decide

theorem witness_PortCycleIsTheBusOperation :
    ({ opened with host := [.ports ⟨true, true, false, 0x001#12, 0#8⟩] } : State).host =
      .ports ⟨true, true, false, 0x001#12, 0#8⟩ :: [] ∧
    ({ opened with host := [.ports ⟨true, false, true, 0x002#12, 0x04#8⟩] } : State).host =
      .ports ⟨true, false, true, 0x002#12, 0x04#8⟩ :: [] ∧
    ({ opened with host := [.ports ⟨true, false, false, 0#12, 0#8⟩] } : State).host =
      .ports ⟨true, false, false, 0#12, 0#8⟩ :: [] := by decide

theorem witness_EveryContractStepGoesOn :
    ∀ h, ({ opened with host := [.word (.cmd8 0xFF#8)] } : State).host.head? = some h → h.wellFormed = true := by
  intro h hh
  cases hh
  rfl

/-- The clauses of the map at the ends of their ranges; no address is under two of them. -/
theorem witness_BusRdAnswersTheMapValue :
    (∀ a ∈ [0x100, 0x1FF, 0x200, 0x2FF, 0x400, 0x783], bufferAddr a = true) ∧
    reservedAddr 0x00D ∧ reservedAddr 0x00F ∧ reservedAddr 0x017 ∧ reservedAddr 0x0FF ∧ reservedAddr 0x300 ∧
    reservedAddr 0x3FF ∧ reservedAddr 0x784 ∧ reservedAddr 0xFFF ∧
    ∀ a, reservedAddr a → bufferAddr a = false ∧ 0x00D ≤ a ∧ ¬(0x010 ≤ a ∧ a ≤ 0x016) := by
  unfold reservedAddr
  refine ⟨by decide, by decide, by decide, by decide, by decide, by decide, by decide, by decide, by decide, ?_⟩
  intro a h
  refine ⟨?_, by omega, by omega⟩
  rw [Bool.eq_false_iff, Ne, bufferAddr_iff]
  omega

theorem witness_BusRdHasNoSideEffect :
    1 = (if bufferAddr (0x1FF#12).toNat = true ∧ Memory.lookup opened.mem (0x1FF#12).toNat = none then opened.draws + 1
      else opened.draws) ∧
    0 = (if bufferAddr (0x200#12).toNat = true ∧ Memory.lookup [(0x200, 7#8)] (0x200#12).toNat = none then 1 else 0) ∧
    0 = (if bufferAddr (0x784#12).toNat = true ∧ Memory.lookup opened.mem (0x784#12).toNat = none then 1 else 0) := by
  decide

theorem witness_BusWrStoresOperandRegisters : opened.seq = .idle ∧ opened.busy = false := by decide

theorem witness_BusWrStoresTxbufBytes : opened.seq = .idle ∧ opened.busy = false ∧
    (0x100 ≤ (0x100#12).toNat ∧ (0x100#12).toNat ≤ 0x1FF) ∧ (0x100 ≤ (0x1FF#12).toNat ∧ (0x1FF#12).toNat ≤ 0x1FF) := by
  decide

theorem witness_BusWrIgnoredWhileBusy : x5.busy = true ∧
    ((0x003 ≤ (0x003#12).toNat ∧ (0x003#12).toNat ≤ 0x00C) ∧ (0x003 ≤ (0x00C#12).toNat ∧ (0x00C#12).toNat ≤ 0x00C) ∧
      (0x100 ≤ (0x100#12).toNat ∧ (0x100#12).toNat ≤ 0x1FF) ∧ (0x100 ≤ (0x1FF#12).toNat ∧ (0x1FF#12).toNat ≤ 0x1FF)) ∧
    ((0x06#8).getLsbD 0 = (0xFE#8).getLsbD 0 ∧ (0x07#8).getLsbD 0 = (0xFF#8).getLsbD 0) :=
  ⟨by decide, by decide, by decide⟩

theorem witness_BusWrToReadOnlyOrReservedDropped :
    readOnlyAddr 0x010 ∧ readOnlyAddr 0x016 ∧ readOnlyAddr 0x200 ∧ readOnlyAddr 0x2FF ∧ readOnlyAddr 0x400 ∧
    readOnlyAddr 0x783 ∧ reservedAddr 0x00D ∧ reservedAddr 0xFFF := by
  unfold readOnlyAddr reservedAddr
  decide

theorem witness_StatusWriteClearsTheOnesWritten : opened.seq = .idle := by decide

theorem witness_CtrlWriteStoresOrAborts : (opened.seq = .idle ∧ opened.busy = false) ∧
    (x5.busy = true ∧ (0xFF#8).getLsbD 0 = true) ∧ (x5.busy = true ∧ (0xFE#8).getLsbD 0 = false) := by decide

theorem witness_AbortCutsTheCommand :
    (x5.seq = .run .xfer .start ∧ x5.busy = true) ∧
    ((ticks 4 x5).seq = .run .xfer (.txn .single .bitFirst) ∧ (ticks 4 x5).busy = true) ∧
    (settling.seq = .run .frame .settle ∧ settling.busy = true) ∧ (0x06#8).getLsbD 0 = false := by decide

theorem witness_CollisionsAtTheCommitEdge : (ticks 20 x4).seq ≠ .idle ∧ (ticks 20 x4).busy = true ∧
    (idleCycle (ticks 20 x4)).seq = .idle ∧ (0x00#8).getLsbD 0 = false ∧ 0x003 ≤ (0x003#12).toNat := by decide

theorem witness_RejectedCmdWriteSetsOneErrorBit :
    x5.busy = true ∧
    (State.reset.seq = .idle ∧ State.reset.busy = false ∧ State.reset.en = false) ∧
    (opened.seq = .idle ∧ opened.busy = false ∧ opened.en = true ∧ ¬(1 ≤ (0x00#8).toNat ∧ (0x00#8).toNat ≤ 5) ∧
      ¬(1 ≤ (0x06#8).toNat ∧ (0x06#8).toNat ≤ 5)) ∧
    (¬(1 ≤ (ready 0#16).len.toNat ∧ (ready 0#16).len.toNat ≤ 256) ∧
      ¬(1 ≤ (ready 257#16).len.toNat ∧ (ready 257#16).len.toNat ≤ 256)) ∧
    (bench 0x01#8 0x80#8 1#16 [] []).addr.getLsbD 7 = true := by decide

theorem ready_xfer_one : CommandReady .xfer (ready 1#16) := ⟨by rfl, by decide, by decide, by decide⟩
theorem ready_xfer_256 : CommandReady .xfer (ready 256#16) := ⟨by rfl, by decide, by decide, by decide⟩
theorem ready_rdreg_one : CommandReady .rdreg (ready 1#16) := ⟨by rfl, by decide, by decide, by decide⟩
theorem ready_rdreg_256 : CommandReady .rdreg (ready 256#16) := ⟨by rfl, by decide, by decide, by decide⟩
theorem ready_wrreg_one : CommandReady .wrreg (ready 1#16) := ⟨by rfl, by decide, by decide, by decide⟩
theorem ready_wrreg_256 : CommandReady .wrreg (ready 256#16) := ⟨by rfl, by decide, by decide, by decide⟩
theorem ready_motion : CommandReady .motion opened := ⟨by rfl, by decide, by decide, trivial⟩
theorem ready_frame : CommandReady .frame opened := ⟨by rfl, by decide, by decide, trivial⟩

theorem witness_AcceptedCmdWriteStartsTheCommand : CommandReady .rdreg (ready 256#16) := ready_rdreg_256

theorem witness_TurnedAwayCommandIsItsCmdWrite :
    (State.reset.seq = .idle ∧ ¬CommandReady .xfer State.reset) ∧ (x5.busy = true ∧ ¬CommandReady .motion x5) :=
  ⟨⟨by rfl, fun h => absurd h.2.2.1 (by decide)⟩, by decide, fun h => absurd h.2.1 (by decide)⟩

theorem witness_ErrorBitsAreSticky :
    exec (.busWr 0x001#12 0x00#8) { opened with status := 0x3C#8 } =
      .next (after (exec (.busWr 0x001#12 0x00#8) { opened with status := 0x3C#8 })) ∧
    (∀ j ∈ [2, 5], ({ opened with status := 0x3C#8 } : State).status.getLsbD j = true ∧ (0x00#8).getLsbD j = false) :=
  ⟨by rfl, by decide⟩

/-- A rejected command leaves `ABORTED` at 1; `LEN` = 0 makes `XFER` no ready command. -/
theorem witness_AbortedIsSticky :
    ({ opened with status := 0x40#8 } : State).seq = .idle ∧
    ({ opened with status := 0x40#8 } : State).status.getLsbD 6 = true ∧
    exec .xfer { opened with status := 0x40#8 } = .next (after (exec .xfer { opened with status := 0x40#8 })) ∧
    ¬CommandReady .xfer { opened with status := 0x40#8 } :=
  ⟨by rfl, by decide, by rfl, fun h => absurd h.2.2.2.1 (by decide)⟩

theorem witness_OperandsFrozenWhileBusy :
    x5.busy = true ∧ exec (.busWr 0x003#12 0x44#8) x5 = .next (after (exec (.busWr 0x003#12 0x44#8) x5)) :=
  ⟨by decide, by rfl⟩

theorem witness_XferExchangesTxbufForRxbuf : CommandReady .xfer (ready 256#16) := ready_xfer_256
theorem witness_RdregStripsOneDummyByte : CommandReady .rdreg (ready 256#16) := ready_rdreg_256
theorem witness_WrregSendsTheWriteFraming : CommandReady .wrreg (ready 256#16) := ready_wrreg_256
theorem witness_MotionCommitsAllSevenRegisters : CommandReady .motion opened := ready_motion
theorem witness_FrameReassemblesAllPixels : CommandReady .frame opened := ready_frame
theorem witness_FrameIsRowMajor : CommandReady .frame opened := ready_frame
theorem witness_FrameMethodsAgree : CommandReady .frame opened := ready_frame

theorem witness_XferOfAReadFramingMatchesRdreg :
    let s := bench 0x01#8 0x13#8 3#16 [0x13#8, 0xFF#8, 0xFF#8] []
    CommandReady .xfer s ∧ s.len.toNat = 2 + 1 ∧ s.addr.getLsbD 7 = false ∧ Memory.lookup s.mem 0x100 = some s.addr ∧
      Memory.lookup s.mem (0x100 + 1) = some 0xFF#8 ∧ Memory.lookup s.mem (0x100 + 2) = some 0xFF#8 :=
  ⟨⟨by rfl, by decide, by decide, by decide⟩, by decide, by decide, by decide, by decide, by decide⟩

theorem witness_MotionAndFrameIgnoreAddrAndLen : opened.seq = .idle ∧
    exec .motion opened = .next (after (exec .motion opened)) ∧
    exec .frame opened = .next (after (exec .frame opened)) := ⟨by decide, by rfl, by rfl⟩

theorem witness_DummyAnswerNeverReachesTheHost : CommandReady .rdreg (ready 1#16) ∧ (ready 1#16).seq = .idle ∧
    (Instr.rdreg = .rdreg ∨ Instr.rdreg = .motion) ∧ (Instr.motion = .rdreg ∨ Instr.motion = .motion) :=
  ⟨ready_rdreg_one, by decide, .inl rfl, .inr rfl⟩

theorem witness_WrregDiscardsTheAnswers : (ready 1#16).seq = .idle := by decide

theorem witness_CommandIsItsCyclesOnTheWire :
    CommandReady .xfer (ready 1#16) ∧ Command.xfer ≠ .frame ∧
      exec (.busWr 0x002#12 (opByte .xfer)) (ready 1#16) =
        .next (after (exec (.busWr 0x002#12 (opByte .xfer)) (ready 1#16))) :=
  ⟨ready_xfer_one, by decide, by rfl⟩

theorem witness_FrameIsItsCyclesOnTheWire :
    CommandReady .frame opened ∧
      exec (.busWr 0x002#12 0x05#8) opened = .next (after (exec (.busWr 0x002#12 0x05#8) opened)) :=
  ⟨ready_frame, by rfl⟩

theorem witness_NothingVisibleBeforeTheCommit :
    (x5.seq ≠ .idle ∧ x5.busy = true ∧ exec (.busRd 0x200#12) x5 = .next (after (exec (.busRd 0x200#12) x5)) ∧
      (after (exec (.busRd 0x200#12) x5)).seq ≠ .idle) ∧
    (exec (.busWr 0x000#12 0x06#8) x5 = .next (after (exec (.busWr 0x000#12 0x06#8) x5)) ∧
      (0x06#8).getLsbD 0 = false) ∧
    (idleCycle x5).seq ≠ .idle ∧
    (CommandReady .xfer (ready 1#16) ∧
      exec (.busWr 0x002#12 (opByte .xfer)) (ready 1#16) =
        .next (after (exec (.busWr 0x002#12 (opByte .xfer)) (ready 1#16))) ∧
      0 ≤ (ready 1#16).commandCycles .xfer ∧ 20 ≤ (ready 1#16).commandCycles .xfer) ∧
    CommandReady .frame opened ∧ exec (.busWr 0x002#12 (opByte .frame)) opened =
      .next (after (exec (.busWr 0x002#12 (opByte .frame)) opened)) ∧
    opened.commandCycles .frame ≤ opened.commandCycles .frame :=
  ⟨⟨by decide, by decide, by rfl, by decide⟩, ⟨by rfl, by decide⟩, by decide,
    ⟨ready_xfer_one, by rfl, by decide, by decide⟩, ready_frame, by rfl, Nat.le_refl _⟩

theorem witness_SequencerShowsOnlyItsCommit :
    (x5.seq ≠ .idle ∧ (idleCycle x5).seq ≠ .idle) ∧
    ((ticks 20 x4).seq ≠ .idle ∧ (idleCycle (ticks 20 x4)).seq = .idle) := by decide


/-- `XFER` of two bytes in mode 0 with H = 1 and gap `g`, from its accept on. -/
def pair (g : BitVec 16) : State :=
  after (exec (.busWr 0x002#12 0x01#8) { bench 0x01#8 0#8 2#16 [0xA5#8, 0x0F#8] [0x61#8, 0x62#8] with gap := g })

/-- The three ways into a byte: after the setup wait, after a gap of one cycle, back to back. -/
theorem witness_ShiftByteMsbFirst :
    ((ticks 1 x5).seq = .run .xfer (.txn .single .setup) ∧ (ticks 1 x5).eng.halfCnt = 0 ∧
      (ticks 1 x5).sclk = (ticks 1 x5).cpol ∧ 1 < 2 * (ticks 1 x5).halfPeriod) ∧
    ((ticks 18 (pair 1#16)).seq = .run .xfer (.txn .single .gap) ∧ 1 = (ticks 18 (pair 1#16)).eng.byteIdx + 1 ∧
      (ticks 18 (pair 1#16)).eng.gapCnt = 0 ∧ (ticks 18 (pair 1#16)).sclk = (ticks 18 (pair 1#16)).cpol) ∧
    ((ticks 17 (pair 0#16)).seq = .run .xfer (.txn .single .bitSecond) ∧
      1 = (ticks 17 (pair 0#16)).eng.byteIdx + 1 ∧ 1 < (ticks 17 (pair 0#16)).eng.out.length ∧
      (ticks 17 (pair 0#16)).eng.halfCnt = 0 ∧ (ticks 17 (pair 0#16)).eng.bitCnt = 0 ∧
      (ticks 17 (pair 0#16)).gap = 0x0000#16) := ⟨by decide, by decide, by decide⟩

theorem witness_GapBetweenBytes :
    ((ticks 17 (pair 1#16)).seq = .run .xfer (.txn .single .bitSecond) ∧ (ticks 17 (pair 1#16)).eng.halfCnt = 0 ∧
      (ticks 17 (pair 1#16)).eng.bitCnt = 0) ∧
    ((ticks 17 (pair 1#16)).eng.byteIdx + 1 < (ticks 17 (pair 1#16)).eng.out.length ∧
      0 < (ticks 17 (pair 1#16)).gap.toNat * (ticks 17 (pair 1#16)).halfPeriod) ∧
    ((ticks 17 x4).seq = .run .xfer (.txn .single .bitSecond) ∧ (ticks 17 x4).eng.halfCnt = 0 ∧
      (ticks 17 x4).eng.bitCnt = 0 ∧ ¬ (ticks 17 x4).eng.byteIdx + 1 < (ticks 17 x4).eng.out.length) :=
  ⟨by decide, by decide, by decide⟩

theorem opened_inv : Inv opened :=
  Inv.of_idle (by rfl) ⟨by rfl, fun k b _ h => (by cases h), .inl (fun _ _ => by rfl), by rfl, by rfl, by rfl⟩ (by rfl)
    (by rfl) (by rfl) (by rfl) (by rfl) ⟨by rfl, by rfl, by rfl⟩

/-- The channel open in manual mode, chip select asserted. -/
def manual : State := bench 0x19#8 0#8 0#16 [] []

theorem manual_inv : Inv manual :=
  Inv.of_idle (by rfl) ⟨by rfl, fun k b _ h => (by cases h), .inl (fun _ _ => by rfl), by rfl, by rfl, by rfl⟩ (by rfl)
    (by rfl) (by rfl) (by rfl) (by rfl) ⟨by rfl, by rfl, by rfl⟩

theorem witness_ChipSelectFollowsItsMode : (Inv opened ∧ opened.csManual = false) ∧
    Inv (startCommand .motion manual) ∧ (startCommand .motion manual).csManual = true ∧
    (startCommand .motion manual).seq ≠ .idle :=
  ⟨⟨opened_inv, by decide⟩, startCommand_inv (by rfl) manual_inv (by rfl) (by rfl), by decide, by decide⟩

/-- `MOTION` just accepted, with host operations to come that leave it alone. -/
def watched : State :=
  { startCommand .motion opened with
    host := [.poll, .word (.busop24 0x8000FF#24), .word (.cmd8 0x06#8), .ports ⟨true, false, false, 0#12, 0#8⟩] }

theorem witness_RunningCommandReachesItsCommit :
    Inv watched ∧ watched.seq = .run .motion .start ∧ (∀ h ∈ watched.host, keepsCommand h = true) :=
  ⟨(startCommand_inv (by rfl) opened_inv (by rfl) (by rfl)).congr watched.busRdata watched.host watched.answers
    watched.sensorDraws watched.draws watched.events, by decide, by decide⟩

theorem witness_PollReadsStatusUntilNotBusy :
    watched.host = .poll :: watched.host.tail ∧
    ({ opened with host := [.poll] } : State).host = .poll :: [] := by decide

theorem witness_SafeCtrlWriteGivesNoClockEdge :
    Inv opened ∧ opened.seq = .idle ∧ ctrlWriteSafe 0x07#8 opened ∧ ctrlWriteSafe 0x19#8 opened ∧
    ¬ ctrlWriteSafe 0x1B#8 opened :=
  ⟨opened_inv, by decide, .inr ⟨by decide, by decide⟩, .inl ⟨by decide, by decide⟩,
    fun h => h.elim (fun h => absurd h.1 (by decide)) (fun h => absurd h.2 (by decide))⟩

theorem witness_CommandLeavesTheEngineIdle : CommandReady .wrreg (ready 1#16) ∧ CommandReady .frame opened :=
  ⟨ready_wrreg_one, ready_frame⟩

/-- A pass of `poll` stays while the command runs and goes when it has ended (30_encoding.md R70). -/
theorem test_poll : (after (step watched)).host.head? = some .poll ∧
    (after (step { opened with host := [.poll] })).host = [] := by decide

theorem witness_ResetEdgeGivesTheResetValues : ¬(true = true ∧ false = true) ∧
    ({ opened with host := [.ports ⟨false, true, false, 0x006#12, 0#8⟩] } : State).host =
      .ports ⟨false, true, false, 0x006#12, 0#8⟩ :: [] := by decide

theorem witness_EveryStepKeepsTheInvariant : Inv watched ∧ step watched = .next (after (step watched)) :=
  ⟨witness_RunningCommandReachesItsCommit.1, by rfl⟩

end Sys2Proof.Tests
end

/-! # Proofs of the statements of 10_state.md

The state after reset, what one step of the host is, the operands of a running command, its results before the commit,
and the invariant. -/

namespace Sys2Proof.Machine

/-! ## The state after reset -/

/-- Settles O47: each field of `State.reset`, as R40 lists them. -/
theorem resetStateHasTheResetValues : Obligations.ResetStateHasTheResetValues := by
  unfold Obligations.ResetStateHasTheResetValues
  refine ⟨rfl, rfl, rfl, rfl, rfl, rfl, rfl, rfl, rfl, rfl, rfl, rfl, rfl, rfl, fun _ => rfl, rfl, rfl, rfl, rfl⟩

/-- The registers and buffers after reset meet the invariant: no buffer byte is listed and no reserved bit is set. -/
theorem reset_static : StaticInv State.reset where
  memWf := rfl
  frameCells := fun _ _ _ h => by cases h
  frameWhole := .inl fun _ _ => rfl
  ctrlReserved := rfl
  statusReserved := rfl
  motReserved := rfl

/-- Settles O48: after reset the sequencer is at rest. -/
theorem resetMeetsTheInvariant : Obligations.ResetMeetsTheInvariant :=
  Inv.of_idle rfl reset_static rfl rfl rfl rfl rfl ⟨rfl, rfl, rfl⟩

/-! ## What a step takes -/

theorem step_of_nil {s : State} (h : s.host = []) : step s = .next (idleCycle s) := by
  simp [step, fetch, h]

theorem step_of_cons {s : State} {item : HostItem} {rest : List HostItem} (h : s.host = item :: rest) :
    step s = runItem item { s with host := rest } := by
  simp [step, fetch, h]

/-- Settles O8: `portCycle` at each of the three settings of the strobes. -/
theorem portCycleIsTheBusOperation : Obligations.PortCycleIsTheBusOperation := by
  intro s a d rest
  exact ⟨fun h => by rw [step_of_cons h]; rfl, fun h => by rw [step_of_cons h]; rfl,
    fun h => by rw [step_of_cons h]; rfl⟩

/-! ## The five commands as one -/

/-- What a command does from its accept to its commit. -/
def commandBody : Command → State → State
  | .xfer => runXfer
  | .rdreg => runRdreg
  | .wrreg => runWrreg
  | .motion => runMotion
  | .frame => runFrame

theorem exec_commandInstr (c : Command) (s : State) :
    exec (commandInstr c) s = .next (commandRun (opByte c) (commandBody c) s) := by
  cases c <;> rfl

/-- A command other than `FRAME` is one transaction and what it does with its answers (30_encoding.md R66). -/
theorem commandBody_single {c : Command} (hc : c ≠ .frame) (s : State) :
    commandBody c s =
      afterTxn c .single (spiTxn (txnBytes c .single s).1 { s with draws := (txnBytes c .single s).2 }).1
        (spiTxn (txnBytes c .single s).1 { s with draws := (txnBytes c .single s).2 }).2 := by
  cases c with
  | frame => contradiction
  | _ => rfl

/-- A transaction, with the draws its bytes took, changes nothing the host sees. -/
theorem spiTxn_sameVisible (out : List Byte) (k : Nat) (s : State) :
    SameVisible s (spiTxn out { s with draws := k }).2 :=
  ⟨⟨rfl, rfl, rfl, rfl, rfl, rfl⟩, rfl, rfl, rfl, rfl, rfl⟩

/-- `FRAME`'s arm transaction and its settle wait change nothing the host sees. -/
theorem frameSettled_sameVisible (s : State) : SameVisible s (frameSettled s) :=
  ⟨⟨rfl, rfl, rfl, rfl, rfl, rfl⟩, rfl, rfl, rfl, rfl, rfl⟩

theorem pixels_length (s : State) (n : Nat) : (s.pixels n).length = n := by simp [State.pixels]

theorem mem_pixels_le {s : State} {n : Nat} {b : Byte} (h : b ∈ s.pixels n) : b.toNat ≤ 63 := by
  obtain ⟨k, -, rfl⟩ := List.mem_map.mp h
  exact pixel_le _

/-- `FRAME` by either method commits the masked cells of a whole frame, from the pins its arm transaction left
(44_frame.md R105-R109). -/
theorem runFrame_commits (s : State) : ∃ n px ev, px.length = Config.nPix ∧ (∀ b ∈ px, b.toNat ≤ 63) ∧
    runFrame s = commit .frame { dropAnswers n (frameSettled s) with frameSh := px, events := ev } :=
  ⟨_, _, _, pixels_length _ _, fun _ => mem_pixels_le, runFrame_eq s⟩

/-- The one transaction of a command other than `FRAME` is followed by its commit. -/
theorem afterTxn_ends {c : Command} (hc : c ≠ .frame) (t : Txn) (inn : List Byte) (s : State) :
    Ends c s (afterTxn c t inn s) := by
  cases c with
  | xfer => exact ⟨{ s with rxSh := inn }, SameVisible.rfl, rfl⟩
  | rdreg => exact ⟨{ s with rxSh := inn.drop 1 }, SameVisible.rfl, rfl⟩
  | wrreg => exact ⟨s, SameVisible.rfl, rfl⟩
  | motion => exact ⟨{ s with motSh := motionParse inn }, SameVisible.rfl, rfl⟩
  | frame => contradiction

/-- A command ends in its commit, with nothing the host sees changed before (10_state.md R38). -/
theorem commandBody_ends (c : Command) (s : State) : Ends c s (commandBody c s) := by
  by_cases hc : c = .frame
  · subst hc
    obtain ⟨n, px, ev, -, -, h⟩ := runFrame_commits s
    refine Ends.of_same (frameSettled_sameVisible s) ⟨_, ?_, h⟩
    exact ⟨⟨rfl, rfl, rfl, rfl, rfl, rfl⟩, rfl, rfl, rfl, rfl, rfl⟩
  · rw [commandBody_single hc]
    exact Ends.of_same (spiTxn_sameVisible _ _ _) (afterTxn_ends hc _ _ _)

/-- A command is ready exactly when its `CMD` write is admitted with the sequencer IDLE (60_exceptions.md R112). -/
theorem commandReady_iff (c : Command) (s : State) :
    CommandReady c s ↔ s.seq = .idle ∧ admission (opByte c) s = .ok c := by
  rw [admission_ok_iff]
  cases c <;> simp [CommandReady, argsOk, lenOk_iff]

/-- An accepted command as an instruction: the accept, then the command's body. -/
theorem exec_of_ready {c : Command} {s : State} (h : CommandReady c s) :
    exec (commandInstr c) s =
      .next (commandBody c (startCommand c (record (.busWr cmdAddr (opByte c)) s))) := by
  obtain ⟨hi, ha⟩ := (commandReady_iff c s).mp h
  rw [exec_commandInstr, commandRun_ok hi ha]

/-- Settles O53: the command ends in its commit, which puts the sequencer at rest. -/
theorem commandLeavesTheEngineIdle : Obligations.CommandLeavesTheEngineIdle := by
  intro s c h
  obtain ⟨u, ⟨-, -, -, -, hrd, -⟩, hu⟩ :=
    commandBody_ends c (startCommand c (record (.busWr cmdAddr (opByte c)) s))
  refine ⟨commit c u, by rw [exec_of_ready h, hu], commit_eng c u, commit_rxSh c u, commit_frameSh c u,
    commit_motSh c u, ?_⟩
  rw [commit_busRdata, hrd]
  rfl

/-! ## Host accesses while a command runs -/

/-- A host read drives the read port, may draw a free value and is recorded. -/
theorem busRead_eq (a : HostAddr) (s : State) : busRead a s = { s with
    busRdata := (regionRead (regionAt a.toNat) s).1
    draws := (regionRead (regionAt a.toNat) s).2.draws
    events := s.events ++ [.busRd a (regionRead (regionAt a.toNat) s).1] } := by
  unfold busRead
  simp only
  rw [regionRead_snd]
  rfl

/-- While `BUSY` = 1 a host write is the abort or touches `STATUS` and the history alone (40_host_bus.md R75-R77). -/
theorem busWrite_busy_cases {s : State} (hb : s.busy = true) (a : HostAddr) (d : Byte) :
    busWrite a d s = abort (record (.busWr a d) s) ∨
      ∃ st ev, busWrite a d s = { s with status := st, events := ev } := by
  have hb' : (record (.busWr a d) s).busy = true := hb
  by_cases h3 : 3 ≤ a.toNat
  · exact .inr ⟨s.status, _, busWrite_busy hb a d h3⟩
  obtain h | h | h : a = 0x000#12 ∨ a = 0x001#12 ∨ a = 0x002#12 := by bv_omega
  · subst h
    change ctrlWrite d _ = _ ∨ ∃ st ev, ctrlWrite d _ = _
    rw [ctrlWrite, if_pos hb']
    split
    · exact .inr ⟨s.status, _, rfl⟩
    · exact .inl rfl
  · subst h
    exact .inr ⟨_, _, rfl⟩
  · subst h
    exact .inr ⟨_, _, busWrite_cmd_busy hb d⟩

/-- While `BUSY` = 1 an instruction is one cycle with a host access: a command's word is the `CMD` write that is turned
away (60_exceptions.md R112). -/
theorem exec_busy {s : State} (hb : s.busy = true) (i : Instr) :
    ∃ f, exec i s = .next (hostCycle f s) ∧ ((∃ a, f = busRead a) ∨ ∃ a d, f = busWrite a d) := by
  have hcmd : ∀ c, exec (commandInstr c) s = .next (hostCycle (busWrite cmdAddr (opByte c)) s) := fun c => by
    have herr : admission (opByte c) s = .error .busy := by simp [admission, hb]
    rw [exec_commandInstr, commandRun_error herr]
  cases i with
  | busRd a => exact ⟨_, rfl, .inl ⟨a, rfl⟩⟩
  | busWr a d => exact ⟨_, rfl, .inr ⟨a, d, rfl⟩⟩
  | xfer => exact ⟨_, hcmd .xfer, .inr ⟨_, _, rfl⟩⟩
  | rdreg => exact ⟨_, hcmd .rdreg, .inr ⟨_, _, rfl⟩⟩
  | wrreg => exact ⟨_, hcmd .wrreg, .inr ⟨_, _, rfl⟩⟩
  | motion => exact ⟨_, hcmd .motion, .inr ⟨_, _, rfl⟩⟩
  | frame => exact ⟨_, hcmd .frame, .inr ⟨_, _, rfl⟩⟩

/-! ## The operands of a running command -/

theorem sameOperands_trans {s t u : State} (h : SameOperands s t) (k : SameOperands t u) : SameOperands s u := by
  obtain ⟨h1, h2, h3, h4, h5, h6, h7⟩ := h
  obtain ⟨k1, k2, k3, k4, k5, k6, k7⟩ := k
  exact ⟨fun j hj hj' => (k1 j hj hj').trans (h1 j hj hj'), k2.trans h2, k3.trans h3, k4.trans h4, k5.trans h5,
    k6.trans h6, fun a ha => (k7 a ha).trans (h7 a ha)⟩

theorem SameVisible.sameOperands {s t : State} (h : SameVisible s t) : SameOperands s t := by
  obtain ⟨⟨hctrl, haddr, hlen, hclkdiv, hgap, hsettle⟩, -, -, hmem, -, -⟩ := h
  exact ⟨fun j _ _ => by rw [hctrl], haddr, hlen, hclkdiv, hgap, hsettle, fun k _ => by rw [hmem]⟩

/-- `TXBUF` lies below every buffer a commit writes. -/
theorem commit_sameOperands (c : Command) (s : State) : SameOperands s (commit c s) := by
  refine ⟨fun j _ _ => by rw [commit_ctrl], by simp, by simp, by simp, by simp, by simp, fun k hk => ?_⟩
  have hrx : Memory.lookup (Memory.writeBlock s.mem rxBase s.rxSh) (0x100 + k) = Memory.lookup s.mem (0x100 + k) :=
    lookup_writeBlock_outside (by unfold rxBase; omega)
  have hfr : Memory.lookup (Memory.writeBlock s.mem frameBase s.frameSh) (0x100 + k) =
      Memory.lookup s.mem (0x100 + k) :=
    lookup_writeBlock_outside (by unfold frameBase; omega)
  cases c with
  | xfer => exact hrx
  | rdreg => exact hrx
  | wrreg => rfl
  | motion => rfl
  | frame => exact hfr

theorem tick_sameOperands (s : State) : SameOperands s (tick s) := by
  rcases tick_visible s with ⟨-, h⟩ | ⟨c, ph, -, ⟨h, -⟩ | ⟨u, hu, h⟩⟩
  · rw [h]
    exact SameVisible.rfl.sameOperands
  · exact h.sameOperands
  · rw [h]
    exact sameOperands_trans hu.sameOperands (commit_sameOperands c u)

theorem hostCycle_sameOperands {f : State → State} {s : State} (h : SameOperands s (f s)) :
    SameOperands s (hostCycle f s) := by
  unfold hostCycle
  split
  · exact h
  · exact sameOperands_trans h (tick_sameOperands _)

theorem busRead_sameOperands (a : HostAddr) (s : State) : SameOperands s (busRead a s) := by
  rw [busRead_eq]
  exact ⟨fun _ _ _ => rfl, rfl, rfl, rfl, rfl, rfl, fun _ _ => rfl⟩

/-- An abort clears bit 0 of `CTRL` only. -/
theorem abort_sameOperands (s : State) : SameOperands s (abort s) := by
  refine ⟨fun j hj _ => ?_, by simp, by simp, by simp, by simp, by simp, fun k _ => by rw [abort_mem]⟩
  rw [abort_ctrl, getLsbD_clearBit _ _ _ (by omega)]
  simp [show j ≠ 0 by omega]

theorem busWrite_sameOperands {s : State} (hb : s.busy = true) (a : HostAddr) (d : Byte) :
    SameOperands s (busWrite a d s) := by
  rcases busWrite_busy_cases hb a d with h | ⟨st, ev, h⟩ <;> rw [h]
  · exact abort_sameOperands (record _ s)
  · exact ⟨fun _ _ _ => rfl, rfl, rfl, rfl, rfl, rfl, fun _ _ => rfl⟩

/-- Settles O25: neither the host's access nor the sequencer's edge of the cycle touches an operand. -/
theorem operandsFrozenWhileBusy : Obligations.OperandsFrozenWhileBusy := by
  refine ⟨fun i s t hb he => ?_, fun s _ => ?_⟩
  · obtain ⟨f, hf, ⟨a, rfl⟩ | ⟨a, d, rfl⟩⟩ := exec_busy hb i <;> rw [hf] at he <;> cases he
    · exact hostCycle_sameOperands (busRead_sameOperands a s)
    · exact hostCycle_sameOperands (busWrite_sameOperands hb a d)
  · rw [idleCycle_eq_tick]
    exact tick_sameOperands s

/-! ## No result before the commit -/

/-- An edge after which a command still runs shows the host nothing. -/
theorem tick_sameVisible {s : State} (h : (tick s).seq ≠ .idle) : SameVisible s (tick s) := by
  rcases tick_visible s with ⟨-, e⟩ | ⟨c, ph, -, ⟨hv, -⟩ | ⟨u, -, e⟩⟩
  · rw [e]
    exact SameVisible.rfl
  · exact hv
  · exact absurd (by rw [e, commit_seq]) h

theorem ticks_sameVisible {k : Nat} {s : State} (h : (ticks k s).seq ≠ .idle) : SameVisible s (ticks k s) := by
  induction k generalizing s with
  | zero => exact SameVisible.rfl
  | succ k ih =>
    have h1 : (tick s).seq ≠ .idle := ticks_running_of (k := 0) h (Nat.zero_le k)
    exact (tick_sameVisible h1).trans (ih h)

/-- A host write while `BUSY` = 1 reaches no buffer and no motion register. -/
theorem busWrite_busy_results {s : State} (hb : s.busy = true) (a : HostAddr) (d : Byte) :
    (busWrite a d s).mem = s.mem ∧ (busWrite a d s).mot = s.mot := by
  rcases busWrite_busy_cases hb a d with h | ⟨st, ev, h⟩ <;> rw [h]
  · exact ⟨abort_mem _, abort_mot _⟩
  · exact ⟨rfl, rfl⟩

/-- An access that leaves the results alone, in a cycle after which a command still runs. -/
theorem hostCycle_results {f : State → State} {s : State} (hs : s.seq ≠ .idle)
    (hf : (f s).mem = s.mem ∧ (f s).mot = s.mot) (h : (hostCycle f s).seq ≠ .idle) :
    (hostCycle f s).mem = s.mem ∧ (hostCycle f s).mot = s.mot := by
  rw [hostCycle_run hs] at h ⊢
  obtain ⟨-, -, hmot, hmem, -, -⟩ := tick_sameVisible h
  exact ⟨hmem.trans hf.1, hmot.trans hf.2⟩

/-- The duration of a command other than `FRAME` is that of its one transaction (41_spi_transceiver.md R87). -/
theorem commandCycles_single {c : Command} (hc : c ≠ .frame) (s : State) :
    s.commandCycles c = s.txnCycles (txnLength c .single s) := by
  cases c with
  | frame => contradiction
  | _ => rfl

theorem firstTxn_single {c : Command} (hc : c ≠ .frame) : firstTxn c = .single := by
  cases c with
  | frame => contradiction
  | _ => rfl

/-- From the start of its first transaction a command runs for all of its cycles but the last. -/
theorem ticks_command_running {c : Command} {s : State} (ha : argsOk c s = true) {k : Nat}
    (hk : k < s.commandCycles c) : (ticks k (beginTxn c (firstTxn c) s)).seq ≠ .idle := by
  by_cases hc : c = .frame
  · subst hc
    exact ticks_frame_running s k hk
  · have hl : (txnBytes c .single s).1.length = txnLength c .single s := txnBytes_length hc
    have hpos : 0 < txnLength c .single s := txnLength_pos ha
    rw [firstTxn_single hc]
    refine ticks_txn_running c .single s (fun h0 => ?_) k (by rw [hl, ← commandCycles_single hc]; exact hk)
    rw [h0] at hl
    simp only [List.length_nil] at hl
    omega

/-- In the cycles from its accept to the one before its commit a command runs (notes/assumptions/8.md). -/
theorem ticks_accepted_running {c : Command} {s : State} (hs : s.seq = .run c .start) (ha : argsOk c s = true)
    {k : Nat} (hk : k ≤ s.commandCycles c) : (ticks k s).seq ≠ .idle := by
  cases k with
  | zero => simp [ticks, hs]
  | succ k =>
    have ht : tick s = beginTxn c (firstTxn c) s := by simp [tick, hs]
    rw [ticks, ht]
    exact ticks_command_running ha hk

/-- The state an accepted `CMD` write leaves (60_exceptions.md R112). -/
theorem exec_cmdWrite_of_ready {c : Command} {s : State} (h : CommandReady c s) :
    exec (.busWr 0x002#12 (opByte c)) s = .next (startCommand c (record (.busWr cmdAddr (opByte c)) s)) := by
  obtain ⟨hi, ha⟩ := (commandReady_iff c s).mp h
  rw [← accept_cycle hi ha]
  rfl

/-- Settles O41: a cycle shows results at a commit only, and a command's commit is `T` + 1 cycles after its accept. -/
theorem nothingVisibleBeforeTheCommit : Obligations.NothingVisibleBeforeTheCommit := by
  refine ⟨fun i s t hs hb he hor => ?_, fun s h => ?_, fun s s₁ c k hr he hk => ?_⟩
  · rcases hor with hrun | ⟨d, rfl, hd⟩
    · obtain ⟨f, hf, ⟨a, rfl⟩ | ⟨a, d, rfl⟩⟩ := exec_busy hb i <;> rw [hf] at he <;> cases he
      · exact hostCycle_results hs (by rw [busRead_eq]; exact ⟨rfl, rfl⟩) hrun
      · exact hostCycle_results hs (busWrite_busy_results hb a d) hrun
    · have ht : t = abort (record (.busWr 0x000#12 d) s) := by
        rw [← abort_cycle hb hd]
        cases he
        rfl
      subst ht
      exact ⟨abort_mem _, abort_mot _⟩
  · rw [idleCycle_eq_tick] at h ⊢
    obtain ⟨-, -, hmot, hmem, -, -⟩ := tick_sameVisible h
    exact ⟨hmem, hmot⟩
  · rw [exec_cmdWrite_of_ready hr] at he
    cases he
    obtain ⟨-, -, -, hargs⟩ := (admission_ok_iff _ c s).mp ((commandReady_iff c s).mp hr).2
    have hrun := ticks_accepted_running (s := startCommand c (record (.busWr cmdAddr (opByte c)) s))
      (startCommand_seq c _) (by cases c <;> exact hargs) (k := k) (by cases c <;> exact hk)
    obtain ⟨-, hst, hmot, hmem, -, -⟩ := ticks_sameVisible hrun
    rw [startCommand_status] at hst
    refine ⟨hrun, ?_, ?_, hmem, hmot⟩
    · rw [State.busy, hst, getLsbD_statusAccept]; simp
    · rw [State.done, hst, getLsbD_statusAccept]; simp

/-! ## The invariant -/

/-- A command just accepted. -/
theorem Inv.start_of {s : State} {c : Command} (hs : s.seq = .run c .start) (h : Inv s) :
    RunInv c s ∧ s.frameSh = [] ∧ RestPins s := by
  obtain ⟨hr, hf⟩ := h.run_of hs
  have hp := h.pins
  unfold pinsLegal at hp
  rw [hs] at hp
  exact ⟨hr, hf, hp⟩

/-- A command of one transaction keeps the invariant from its accept to its commit. -/
theorem commandBody_single_inv {c : Command} (hc : c ≠ .frame) {s : State} (hs : s.seq = .run c .start)
    (h : Inv s) : Inv (commandBody c s) := by
  obtain ⟨hr, hf, hp⟩ := h.start_of hs
  rw [commandBody_single hc]
  have hl : (txnBytes c .single s).1.length = txnLength c .single s := txnBytes_length hc
  generalize txnBytes c .single s = p at hl ⊢
  have hr' : RunInv c { s with draws := p.2 } := hr.congr rfl rfl rfl rfl rfl rfl rfl rfl rfl
  obtain ⟨hrun, hpins⟩ := spi_run p.1 hr' (rest_manual hr.en hp)
  refine afterTxn_inv hrun hc hf ?_ hpins
  rw [spiTxn_fst, answerList_length, hl]
  cases c <;> rfl

/-- `FRAME` by either method keeps the invariant from its accept to its commit (44_frame.md R105-R109). -/
theorem runFrame_inv {s : State} (hs : s.seq = .run .frame .start) (h : Inv s) : Inv (runFrame s) := by
  obtain ⟨hr, -, hp⟩ := h.start_of hs
  obtain ⟨hrun, hpins⟩ := spi_run (writeFraming Config.frameCapture [Config.frameArm]) hr (rest_manual hr.en hp)
  obtain ⟨hwf, hcells, hwhole, hctrl, hstatus, hmot⟩ := hrun.static
  obtain ⟨n, px, ev, hlen, hle, e⟩ := runFrame_commits s
  rw [e]
  exact commit_inv ⟨hwf, hcells, hwhole, hctrl, hstatus, hmot⟩ hpins (fun h => by rcases h with h | h <;> cases h)
    (fun h => by cases h) (fun _ => hlen) (fun _ => hle)

theorem commandBody_inv {c : Command} {s : State} (hs : s.seq = .run c .start) (h : Inv s) :
    Inv (commandBody c s) := by
  by_cases hc : c = .frame
  · subst hc
    exact runFrame_inv hs h
  · exact commandBody_single_inv hc hs h

/-- The byte of a command is admitted as that command. -/
theorem admission_opByte {c c' : Command} {s : State} (h : admission (opByte c) s = .ok c') : c' = c := by
  obtain ⟨-, -, hd, -⟩ := (admission_ok_iff _ _ _).mp h
  have := commandOf_opByte c
  rw [hd, commandOf_opByte] at this
  exact Option.some.inj this

/-- A command as an instruction: the `CMD` write keeps the invariant, and so does the body of an accepted command. -/
theorem commandRun_inv (c : Command) {s : State} (h : Inv s) : Inv (commandRun (opByte c) (commandBody c) s) := by
  have hw : Inv (hostCycle (busWrite cmdAddr (opByte c)) s) := hostCycle_inv _ (busWrite_inv _ _ h)
  cases ha : admission (opByte c) s with
  | error k => rwa [commandRun_error ha]
  | ok c' =>
    cases admission_opByte ha
    have hi : s.seq = .idle := idle_of_busy h ((admission_ok_iff _ _ _).mp ha).1
    rw [accept_cycle hi ha] at hw
    rw [commandRun_ok hi ha]
    exact commandBody_inv (startCommand_seq c _) hw

theorem exec_inv {i : Instr} {s t : State} (h : Inv s) (he : exec i s = .next t) : Inv t := by
  have hcmd : ∀ c, exec (commandInstr c) s = .next t → Inv t := fun c hc => by
    rw [exec_commandInstr] at hc
    cases hc
    exact commandRun_inv c h
  cases i with
  | busRd a => cases he; exact hostCycle_inv _ (busRead_inv a h)
  | busWr a d => cases he; exact hostCycle_inv _ (busWrite_inv a d h)
  | xfer => exact hcmd .xfer he
  | rdreg => exact hcmd .rdreg he
  | wrreg => exact hcmd .wrreg he
  | motion => exact hcmd .motion he
  | frame => exact hcmd .frame he

/-- The host's items are not part of the invariant. -/
theorem Inv.with_host {s : State} (h : Inv s) (items : List HostItem) : Inv { s with host := items } :=
  h.congr s.busRdata items s.answers s.sensorDraws s.draws s.events

theorem idleCycle_inv {s : State} (h : Inv s) : Inv (idleCycle s) := hostCycle_inv _ h

/-- A reset edge in any state gives the registers, the sequencer and the pins of the state after reset
(70_reset_and_hazards.md R125). -/
theorem resetEdge_inv (s : State) : Inv (resetEdge s) :=
  resetMeetsTheInvariant.congr State.reset.busRdata s.host s.answers s.sensorDraws s.draws (recordCut s).events

theorem resetAccess_inv (p : PortCycle) {s : State} (h : Inv s) : Inv (resetAccess p s) := by
  unfold resetAccess
  split
  · exact record_inv _ (h.congr _ s.host s.answers s.sensorDraws s.draws s.events)
  · split
    · exact record_inv _ h
    · exact h

theorem portCycle_inv {p : PortCycle} {s t : State} (h : Inv s) (he : portCycle p s = .next t) : Inv t := by
  unfold portCycle at he
  split at he
  · cases he
  split at he
  · cases he; exact resetAccess_inv p (resetEdge_inv s)
  split at he
  · cases he; exact hostCycle_inv _ (busRead_inv _ h)
  split at he
  · cases he; exact hostCycle_inv _ (busWrite_inv _ _ h)
  · cases he; exact idleCycle_inv h

theorem pollCycle_inv {s t : State} (h : Inv s) (he : pollCycle s = .next t) : Inv t := by
  have hr : Inv (hostCycle (busRead statusAddr) s) := hostCycle_inv _ (busRead_inv _ h)
  cases he
  split
  · exact hr.with_host _
  · exact hr

theorem rejectedWord_inv {w : HostWord} {e : DecodeError} {s t : State} (h : Inv s)
    (he : rejectedWord w e s = .next t) : Inv t := by
  cases w with
  | busop24 w => cases he
  | cmd8 d => cases he; exact hostCycle_inv _ (busWrite_inv _ _ h)

theorem runItem_inv {item : HostItem} {s t : State} (h : Inv s) (he : runItem item s = .next t) : Inv t := by
  cases item with
  | ports p => exact portCycle_inv h he
  | poll => exact pollCycle_inv h he
  | word w =>
    simp only [runItem] at he
    split at he
    · exact exec_inv h he
    · exact rejectedWord_inv h he

/-- Settles O49, by the host item the step takes. -/
theorem everyStepKeepsTheInvariant : Obligations.EveryStepKeepsTheInvariant := by
  intro s t h he
  cases hh : s.host with
  | nil =>
    rw [step_of_nil hh] at he
    cases he
    exact idleCycle_inv h
  | cons item rest =>
    rw [step_of_cons hh] at he
    exact runItem_inv (h.with_host rest) he

end Sys2Proof.Machine

/-! # Proofs of the statements of 20_memory.md

A host that keeps its contract never stops the machine, a read has no side effect, a write to a read-only or reserved
address is dropped, and the sequencer shows the host nothing but its commit. -/

namespace Sys2Proof.Machine

/-! ## The words a host may present (30_encoding.md R59) -/

/-- A word masked to the `n` bits from `lo` is zero exactly when that field is. -/
theorem and_fieldMask_eq_zero_iff {w m : BitVec 24} {lo n : Nat}
    (hm : ∀ i, i < 24 → m.getLsbD i = decide (lo ≤ i ∧ i < lo + n)) (hn : lo + n ≤ 24) :
    w &&& m = 0#24 ↔ w.extractLsb' lo n = 0#n := by
  constructor <;> intro h <;> apply BitVec.eq_of_getLsbD_eq <;> intro i hi
  · have hbit : (w &&& m).getLsbD (lo + i) = false := by simp [h]
    rw [BitVec.getLsbD_and, hm _ (by omega)] at hbit
    simpa [hi] using hbit
  · rw [BitVec.getLsbD_and, hm i hi]
    by_cases hin : lo ≤ i ∧ i < lo + n
    · have hbit : (w.extractLsb' lo n).getLsbD (i - lo) = false := by simp [h]
      simpa [hin, show i - lo < n by omega, show lo + (i - lo) = i by omega] using hbit
    · simp [hin]

theorem busopZ_eq_zero_iff (w : BitVec 24) : busopZ w = 0#3 ↔ w &&& 0x700000#24 = 0#24 :=
  (and_fieldMask_eq_zero_iff (by decide) (by decide)).symm

theorem busopD_eq_zero_iff (w : BitVec 24) : busopD w = 0#8 ↔ w &&& 0x0000FF#24 = 0#24 :=
  (and_fieldMask_eq_zero_iff (by decide) (by decide)).symm

theorem busopW_iff (w : BitVec 24) : busopW w = true ↔ w &&& 0x800000#24 ≠ 0#24 := by
  rw [show (0x800000#24) = BitVec.twoPow 24 23 from rfl, BitVec.and_twoPow, busopW]
  cases w.getLsbD 23 <;> decide

/-- The mask test of a `BUSOP24` word, by its fields. -/
theorem busop24_wellFormed_iff (w : BitVec 24) : (HostWord.busop24 w).wellFormed = true ↔
    busopZ w = 0#3 ∧ (busopW w = true ∨ busopD w = 0#8) := by
  rw [busopZ_eq_zero_iff, busopW_iff, busopD_eq_zero_iff]
  simp [HostWord.wellFormed]

/-- A valid `BUSOP24` word is a bus operation. -/
theorem decodeBusop_of_wellFormed {w : BitVec 24} (h : (HostWord.busop24 w).wellFormed = true) :
    ∃ i, decodeBusop w = .ok i := by
  obtain ⟨hz, hwd⟩ := (busop24_wellFormed_iff w).mp h
  unfold decodeBusop
  rw [if_neg (not_not.mpr hz)]
  by_cases hw : busopW w = true
  · exact ⟨_, if_pos hw⟩
  · have hd : busopD w = 0#8 := hwd.resolve_left hw
    exact ⟨_, by rw [if_neg hw, if_neg (not_not.mpr hd)]⟩

/-! ## No step stops -/

theorem exec_next (i : Instr) (s : State) : ∃ t, exec i s = .next t := by
  cases i <;> exact ⟨_, rfl⟩

/-- A cycle with at most one strobe has a next state, in reset too. -/
theorem portCycle_next {p : PortCycle} (h : p.wellFormed = true) (s : State) : ∃ t, portCycle p s = .next t := by
  rw [PortCycle.wellFormed, Bool.not_eq_true'] at h
  rw [portCycle, h, if_neg Bool.false_ne_true]
  split
  · exact ⟨_, rfl⟩
  split
  · exact exec_next (.busRd p.addr) s
  split
  · exact exec_next (.busWr p.addr p.wdata) s
  · exact ⟨_, rfl⟩

theorem runItem_next {item : HostItem} (h : item.wellFormed = true) (s : State) : ∃ t, runItem item s = .next t := by
  cases item with
  | ports p => exact portCycle_next h s
  | poll => exact ⟨_, rfl⟩
  | word w =>
    cases w with
    | busop24 w =>
      obtain ⟨i, hi⟩ := decodeBusop_of_wellFormed h
      simp only [runItem, decode, hi]
      exact exec_next i s
    | cmd8 d =>
      simp only [runItem]
      split
      · exact exec_next _ s
      · exact ⟨_, rfl⟩

/-- Settles O9, by the host item the step takes, if any. -/
theorem everyContractStepGoesOn : Obligations.EveryContractStepGoesOn := by
  intro s h
  cases hh : s.host with
  | nil => exact ⟨_, step_of_nil hh⟩
  | cons item rest =>
    rw [step_of_cons hh]
    exact runItem_next (h item (by simp [hh])) _

/-! ## Host reads -/

/-- The sequencer's edge of a cycle reads neither the read port nor the history: after a read has driven the one and
added to the other it is the same edge, and adds the same events. -/
theorem idleCycle_afterRead (s : State) (rd : Byte) (e : Event) :
    idleCycle { s with busRdata := rd, events := s.events ++ [e] } =
      { idleCycle s with busRdata := rd, events := s.events ++ e :: (idleCycle s).events.drop s.events.length } := by
  simp only [idleCycle_eq_tick]
  obtain ⟨st, l, hl, ht⟩ := tick_seen s s.status rd (s.events ++ [e])
  have hst : st = (tick s).status := by
    have hseen := tick_status (withSeen s.status rd (s.events ++ [e]) s)
    rw [ht] at hseen
    exact hseen.trans (tick_status s).symm
  rw [hst, List.append_assoc] at ht
  rw [hl, List.drop_left]
  exact ht

/-- The cycle of a host read, whether or not a command runs. -/
theorem hostCycle_busRead (a : HostAddr) (s : State) :
    hostCycle (busRead a) s =
      { idleCycle { s with draws := (regionRead (regionAt a.toNat) s).2.draws } with
        busRdata := (regionRead (regionAt a.toNat) s).1
        events := s.events ++ .busRd a (regionRead (regionAt a.toNat) s).1 ::
          (idleCycle { s with draws := (regionRead (regionAt a.toNat) s).2.draws }).events.drop s.events.length } := by
  rw [hostCycle_eq_idleCycle (busRead a) s (by rw [busRead_eq]), busRead_eq]
  generalize (regionRead (regionAt a.toNat) s).1 = v, (regionRead (regionAt a.toNat) s).2.draws = d
  exact idleCycle_afterRead { s with draws := d } v (.busRd a v)

/-- Settles O11: the read acts on the read port, the history and the draw counter alone, and the sequencer's edge reads
neither of the first two. -/
theorem busRdHasNoSideEffect : Obligations.BusRdHasNoSideEffect := by
  intro s a d hd
  rw [← regionRead_draws] at hd
  subst hd
  refine ⟨hostCycle (busRead a) s, rfl, ?_⟩
  rw [hostCycle_busRead]

/-! ## Host writes -/

/-- A row the host can only read, or that is reserved, drops a write (20_memory.md R42). -/
theorem busWrite_dropped {a : HostAddr} (h : readOnlyAddr a.toNat ∨ reservedAddr a.toNat) (d : Byte) :
    busWrite a d = record (.busWr a d) := by
  funext s
  unfold busWrite
  rcases h with (h | h | h) | h
  · rw [regionAt_motion (by omega)]; rfl
  · rw [regionAt_rxbuf (by omega)]; rfl
  · rw [regionAt_frame (by omega)]; rfl
  · rw [regionAt_reserved h]; rfl

/-- Settles O15: the access of the cycle is its place in the history alone. -/
theorem busWrToReadOnlyOrReservedDropped : Obligations.BusWrToReadOnlyOrReservedDropped := by
  intro s a d h
  change Host.Outcome.next (hostCycle (busWrite a d) s) = _
  rw [busWrite_dropped h, hostCycle_record]
  rfl

/-! ## The sequencer -/

/-- No edge of the sequencer changes a configuration register (20_memory.md R51). -/
theorem tick_sameConfig (s : State) : SameConfig s (tick s) := by
  rcases tick_visible s with ⟨-, e⟩ | ⟨c, ph, -, ⟨⟨hcfg, -⟩, -⟩ | ⟨u, ⟨hcfg, -⟩, e⟩⟩
  · rw [e]
    exact SameVisible.rfl.1
  · exact hcfg
  · rw [e]
    simpa [SameConfig] using hcfg

/-- A commit sets bit 1 of `STATUS` and clears bit 0 (10_state.md R36). -/
theorem statusCommit_eq (st : Byte) : statusCommit st = (st ||| 0x02#8) &&& 0xFE#8 := by
  revert st; decide

/-- Settles O42: an edge shows the host nothing or is a commit. -/
theorem sequencerShowsOnlyItsCommit : Obligations.SequencerShowsOnlyItsCommit := by
  intro s hs
  rw [idleCycle_eq_tick]
  refine ⟨fun hrun => ?_, fun hend => ⟨tick_sameConfig s, ?_⟩⟩
  · obtain ⟨hcfg, hstatus, hmot, hmem, -, -⟩ := tick_sameVisible hrun
    exact ⟨hcfg, hstatus, hmot, hmem⟩
  · rw [tick_status, if_pos ⟨hs, hend⟩, statusCommit_eq]

end Sys2Proof.Machine

/-! # Proofs of the statements of 30_encoding.md

The decoder inverts the encoder and accepts no other word, the script lines are the encoder's words, the address byte,
what a step does with the host's item, and the loop `poll`. -/

namespace Sys2Proof.Machine

/-! ## The decoder inverts the encoder (R59, R60) -/

theorem decodeBusop_read (a : HostAddr) : decodeBusop (busopWord false a 0#8) = .ok (.busRd a) := by
  simp [decodeBusop, busopZ_busopWord, busopW_busopWord, busopD_busopWord, busopA_busopWord]

theorem decodeBusop_write (a : HostAddr) (d : Byte) : decodeBusop (busopWord true a d) = .ok (.busWr a d) := by
  simp [decodeBusop, busopZ_busopWord, busopW_busopWord, busopD_busopWord, busopA_busopWord]

theorem decodeCommand_opByte (c : Command) : decodeCommand (opByte c) = .ok (commandInstr c) := by
  rw [decodeCommand, commandOf_opByte]

/-- Settles O1, by the instruction: a bus operation's fields are read back, and a command's byte is in the table. -/
theorem decodeOfEncodeIsTheInstruction : Obligations.DecodeOfEncodeIsTheInstruction := by
  intro i
  cases i with
  | busRd a => exact decodeBusop_read a
  | busWr a d => exact decodeBusop_write a d
  | xfer => exact decodeCommand_opByte .xfer
  | rdreg => exact decodeCommand_opByte .rdreg
  | wrreg => exact decodeCommand_opByte .wrreg
  | motion => exact decodeCommand_opByte .motion
  | frame => exact decodeCommand_opByte .frame

/-- Settles O3: an accepted word is the encoder's word of its instruction; each refused one is tested as it stands. -/
theorem sampleWordsDecodeRight : Obligations.SampleWordsDecodeRight := by
  have hdec : ∀ i, decode (encode i) = .ok i := decodeOfEncodeIsTheInstruction
  exact ⟨hdec (.busWr 0x002#12 0x04#8), hdec (.busRd 0x783#12), by decide, by decide, hdec .xfer, hdec .rdreg,
    hdec .wrreg, hdec .motion, hdec .frame, by decide⟩

/-! ## The decoder accepts the encoder's words only (R59-R61) -/

/-- A `CMD8` byte is a command's exactly when it is 0x01 to 0x05. -/
theorem exists_opByte_iff (b : Byte) : (∃ c, b = opByte c) ↔ 1 ≤ b.toNat ∧ b.toNat ≤ 5 := by
  constructor
  · rintro ⟨c, rfl⟩
    cases c <;> decide
  · intro hb
    obtain h | h | h | h | h : b = 0x01#8 ∨ b = 0x02#8 ∨ b = 0x03#8 ∨ b = 0x04#8 ∨ b = 0x05#8 := by bv_omega
    · exact ⟨.xfer, h⟩
    · exact ⟨.rdreg, h⟩
    · exact ⟨.wrreg, h⟩
    · exact ⟨.motion, h⟩
    · exact ⟨.frame, h⟩

/-- A valid word decodes. -/
theorem decode_of_wellFormed {w : HostWord} (h : w.wellFormed = true) : ∃ i, decode w = .ok i := by
  cases w with
  | busop24 w => exact decodeBusop_of_wellFormed h
  | cmd8 b =>
    obtain ⟨c, rfl⟩ := (exists_opByte_iff b).mpr (of_decide_eq_true h)
    exact ⟨_, decodeCommand_opByte c⟩

theorem encode_wellFormed (i : Instr) : (encode i).wellFormed = true := by
  cases i with
  | busRd a => exact Laws.EncodeWf.busRd a
  | busWr a d => exact Laws.EncodeWf.busWr a d
  | xfer => exact Laws.EncodeWf.xfer
  | rdreg => exact Laws.EncodeWf.rdreg
  | wrreg => exact Laws.EncodeWf.wrreg
  | motion => exact Laws.EncodeWf.motion
  | frame => exact Laws.EncodeWf.frame

theorem encode_commandInstr (c : Command) : encode (commandInstr c) = .cmd8 (opByte c) := by
  cases c <;> rfl

/-- A bus operation read from a word has the word's fields, and `Z` = 000 leaves no other bit. -/
theorem encode_of_decodeBusop {w : BitVec 24} {i : Instr} (h : decodeBusop w = .ok i) : encode i = .busop24 w := by
  unfold decodeBusop at h
  split at h
  · cases h
  · rename_i hz
    have hw := busopWord_fields w (not_not.mp hz)
    split at h
    · rename_i hwr
      cases h
      rw [encode, ← hwr, hw]
    · rename_i hrd
      split at h
      · cases h
      · rename_i hd
        cases h
        rw [encode, ← not_not.mp hd, ← Bool.eq_false_iff.mpr hrd, hw]

theorem encode_of_decodeCommand {b : Byte} {i : Instr} (h : decodeCommand b = .ok i) : encode i = .cmd8 b := by
  unfold decodeCommand at h
  split at h
  · rename_i c hc
    cases h
    rw [encode_commandInstr, ← commandOf_some hc]
  · cases h

theorem encode_of_decode {w : HostWord} {i : Instr} (h : decode w = .ok i) : encode i = w := by
  cases w with
  | busop24 w => exact encode_of_decodeBusop h
  | cmd8 b => exact encode_of_decodeCommand h

/-- A word decodes exactly when it is valid: a decoded word is one the encoder writes. -/
theorem decode_ok_iff (w : HostWord) : (∃ i, decode w = .ok i) ↔ w.wellFormed = true := by
  refine ⟨?_, decode_of_wellFormed⟩
  rintro ⟨i, hi⟩
  rw [← encode_of_decode hi]
  exact encode_wellFormed i

/-- Settles O2: the words the decoder accepts are the valid ones, and those of the encoder. -/
theorem decoderAcceptsExactlyTheValidWords : Obligations.DecoderAcceptsExactlyTheValidWords :=
  ⟨decode_ok_iff, fun _ _ => encode_of_decode⟩

/-- A word that is not valid is refused with a reason. -/
theorem decode_error_of_not_wellFormed {w : HostWord} (h : w.wellFormed = false) : ∃ e, decode w = .error e := by
  cases hd : decode w with
  | error e => exact ⟨e, rfl⟩
  | ok i =>
    have hw := (decode_ok_iff w).mp ⟨i, hd⟩
    rw [h] at hw
    cases hw

/-! ## The script lines (R69) -/

/-- The fields of a read's word, put in place by shift and disjunction. -/
theorem shift_or_eq_busopWord (a : HostAddr) (d : Byte) :
    (a.setWidth 24 <<< 8) ||| d.setWidth 24 = busopWord false a d := by
  apply BitVec.eq_of_getLsbD_eq
  intro i hi
  rw [getLsbD_busopWord, BitVec.getLsbD_or, BitVec.getLsbD_shiftLeft, BitVec.getLsbD_setWidth, BitVec.getLsbD_setWidth]
  by_cases h8 : i < 8
  · simp [h8, hi]
  · have hd : d.getLsbD i = false := BitVec.getLsbD_of_ge d i (by omega)
    by_cases h20 : i < 20
    · simp [h8, h20, hi, hd, show i - 8 < 24 by omega]
    · have ha : a.getLsbD (i - 8) = false := BitVec.getLsbD_of_ge a (i - 8) (by omega)
      simp [h8, h20, hd, ha]

/-- Bit 23 is the write flag of a word. -/
theorem writeFlag_or_busopWord (a : HostAddr) (d : Byte) :
    0x800000#24 ||| busopWord false a d = busopWord true a d := by
  apply BitVec.eq_of_getLsbD_eq
  intro i hi
  rw [show (0x800000#24) = BitVec.twoPow 24 23 from rfl, BitVec.getLsbD_or, BitVec.getLsbD_twoPow,
    getLsbD_busopWord, getLsbD_busopWord]
  by_cases h23 : i = 23
  · simp [h23]
  · simp [h23, Ne.symm h23]

theorem script_wr_eq (a : HostAddr) (d : Byte) : Script.wr a d = .word (encode (.busWr a d)) := by
  rw [Script.wr, BitVec.or_assoc, shift_or_eq_busopWord, writeFlag_or_busopWord, encode]

theorem script_rd_eq (a : HostAddr) : Script.rd a = .word (encode (.busRd a)) := by
  rw [Script.rd, encode, ← shift_or_eq_busopWord]
  simp

/-- Settles O4: each line's word is the encoder's, and decodes back. -/
theorem scriptLinesAreBusOperations : Obligations.ScriptLinesAreBusOperations :=
  ⟨fun a d => ⟨_, script_wr_eq a d, decodeOfEncodeIsTheInstruction _⟩,
    fun a => ⟨_, script_rd_eq a, decodeOfEncodeIsTheInstruction _⟩⟩

/-! ## The address byte (R62, R63) -/

theorem decAddr_encRead (a : Byte) : decAddr (encRead a) = (a.getLsbD 7, a.extractLsb' 0 7) := rfl

/-- The write bit is bit 7, above the address. -/
theorem decAddr_encWrite (a : Byte) : decAddr (encWrite a) = (true, a.extractLsb' 0 7) := by
  have hflag : (encWrite a).getLsbD 7 = true := by simp [encWrite, Config.writeBit]
  have haddr : (encWrite a).extractLsb' 0 7 = a.extractLsb' 0 7 := by
    rw [encWrite, BitVec.extractLsb'_or, show Config.writeBit.extractLsb' 0 7 = 0#7 from rfl, BitVec.or_zero]
  rw [decAddr, hflag, haddr]

/-- Bit 7 of the argument is set whatever it was. -/
theorem encWrite_and_mask (a : Byte) : encWrite (a &&& 0x7F#8) = encWrite a := by
  apply BitVec.eq_of_getLsbD_eq
  intro i hi
  interval_cases i <;> simp [encWrite, Config.writeBit]

/-- Settles O5: what the decoder reads back holds for every address after `EncWrite`, and for one with bit 7 clear after
`EncRead`. -/
theorem addressByteDecodesBack : Obligations.AddressByteDecodesBack :=
  ⟨fun a h => ⟨by rw [decAddr_encRead, h], decAddr_encWrite a⟩,
    fun a _ => (encWrite_and_mask a).symm, fun _ => rfl⟩

/-! ## What a step does with a word (R68) -/

theorem runItem_word_ok {w : HostWord} {i : Instr} (h : decode w = .ok i) (s : State) :
    runItem (.word w) s = exec i s := by
  simp [runItem, h]

theorem runItem_word_error {w : HostWord} {e : DecodeError} (h : decode w = .error e) (s : State) :
    runItem (.word w) s = rejectedWord w e s := by
  simp [runItem, h]

/-- Settles O6: a step runs the item it takes, and a word that decodes runs as its instruction. -/
theorem stepRunsTheDecodedInstruction : Obligations.StepRunsTheDecodedInstruction := by
  intro s w rest i hh hd
  rw [step_of_cons hh, runItem_word_ok hd]

theorem portCycle_bothStrobes {p : PortCycle} (hr : p.re = true) (hw : p.we = true) (s : State) :
    portCycle p s = .refused .bothStrobes := by
  simp [portCycle, hr, hw]

/-- Settles O7, by the item the step finds: a word that is not valid goes to `rejectedWord`, which tells the two formats
apart. -/
theorem stepWithoutAnInstruction : Obligations.StepWithoutAnInstruction := by
  refine ⟨fun _ => step_of_nil, fun s d rest hh hd => ?_, fun s w rest hh hw => ?_,
    fun s p rest hh hr hw => ?_⟩
  · obtain ⟨e, he⟩ := decode_error_of_not_wellFormed (w := .cmd8 d) (decide_eq_false hd)
    rw [step_of_cons hh, runItem_word_error he]
    rfl
  · obtain ⟨e, he⟩ := decode_error_of_not_wellFormed hw
    exact ⟨e, by rw [step_of_cons hh, runItem_word_error he]; rfl⟩
  · rw [step_of_cons hh]
    exact portCycle_bothStrobes hr hw _

/-! ## The loop `poll` (R70) -/

/-- An edge of the sequencer takes none of the host's items. -/
theorem tick_host (s : State) : (tick s).host = s.host := by
  rcases tick_visible s with ⟨-, e⟩ |
    ⟨c, ph, -, ⟨⟨-, -, -, -, -, hhost⟩, -⟩ | ⟨u, ⟨-, -, -, -, -, hhost⟩, e⟩⟩
  · rw [e]
  · exact hhost
  · rw [e, commit_host, hhost]

theorem hostCycle_host (f : State → State) (s : State) : (hostCycle f s).host = (f s).host := by
  unfold hostCycle
  split
  · rfl
  · exact tick_host _

theorem busRead_host (a : HostAddr) (s : State) : (busRead a s).host = s.host := by
  rw [busRead_eq]

/-- A cycle that reads `STATUS` answers `BUSY` as it is at the start of the cycle (40_host_bus.md R71, R73). -/
theorem statusCycle_busy (s : State) : (hostCycle (busRead statusAddr) s).busRdata.getLsbD 0 = s.busy := by
  rw [hostCycle_busRdata]
  change (statusRead s.status).getLsbD 0 = s.status.getLsbD 0
  simp [statusRead]

/-- A pass of the loop is the cycle that reads `STATUS`, with the loop put back where that read shows `BUSY` = 1. -/
theorem pollCycle_eq (s : State) : pollCycle s = .next { hostCycle (busRead statusAddr) s with
    host := if s.busy then .poll :: s.host else s.host } := by
  have hhost : (hostCycle (busRead statusAddr) s).host = s.host := by rw [hostCycle_host, busRead_host]
  simp only [pollCycle, statusCycle_busy]
  cases s.busy with
  | true => simp [placeItem, hhost]
  | false => simp [← hhost]

/-- Settles O50: a step that takes the loop is one pass of it. -/
theorem pollReadsStatusUntilNotBusy : Obligations.PollReadsStatusUntilNotBusy := by
  intro s rest hh
  refine ⟨hostCycle (busRead statusAddr) { s with host := rest }, rfl, ?_, statusCycle_busy _, ?_⟩
  · rw [hostCycle_host, busRead_host]
  · rw [step_of_cons hh]
    exact pollCycle_eq { s with host := rest }

end Sys2Proof.Machine

/-! # Proofs of the statements of 40_host_bus.md

What a host read answers, what a host write does with no command running and while one runs, the abort, and the
collisions at the edge of a commit. -/

namespace Sys2Proof.Machine

/-! ## Host reads (R73) -/

theorem hostCycle_busRead_busRdata (a : HostAddr) (s : State) :
    (hostCycle (busRead a) s).busRdata = (regionRead (regionAt a.toNat) s).1 := by
  rw [hostCycle_busRdata, busRead_eq]

/-- A read answers what its row of the map reads as. -/
theorem busRdata_of_regionRead {s : State} {b : HostAddr} {v : Byte} (hv : (regionRead (regionAt b.toNat) s).1 = v)
    {a : HostAddr} (hab : a = b) : (hostCycle (busRead a) s).busRdata = v := by
  rw [hostCycle_busRead_busRdata, hab, hv]

/-- The rows of the buffers read memory at the address itself. -/
theorem regionRead_buffer {a : Nat} (h : bufferAddr a = true) (s : State) :
    regionRead (regionAt a) s = readBuffer a s := by
  obtain ⟨hlo, hhi⟩ | ⟨hlo, hhi⟩ := (bufferAddr_iff a).mp h
  · by_cases htx : a < 0x200
    · rw [regionAt_txbuf ⟨hlo, htx⟩]
      exact congrArg (readBuffer · s) (Nat.add_sub_of_le hlo)
    · have hrx : 0x200 ≤ a := Nat.le_of_not_lt htx
      rw [regionAt_rxbuf ⟨hrx, hhi⟩]
      exact congrArg (readBuffer · s) (Nat.add_sub_of_le hrx)
  · rw [regionAt_frame ⟨hlo, hhi⟩]
    exact congrArg (readBuffer · s) (Nat.add_sub_of_le hlo)

/-- The read stands in the history after what stood there before and ahead of what the sequencer's edge adds. -/
theorem hostCycle_busRead_take (a : HostAddr) (s : State) :
    (hostCycle (busRead a) s).events.take (s.events.length + 1) =
      s.events ++ [.busRd a (hostCycle (busRead a) s).busRdata] := by
  rw [hostCycle_busRead_busRdata, hostCycle_busRead]
  simp [List.take_append]

/-- Settles O10: each register is one address of the map, and the buffers and the reserved addresses are ranges. -/
theorem busRdAnswersTheMapValue : Obligations.BusRdAnswersTheMapValue := by
  intro s a
  refine ⟨hostCycle (busRead a) s, rfl,
    busRdata_of_regionRead rfl, busRdata_of_regionRead rfl, busRdata_of_regionRead rfl, busRdata_of_regionRead rfl,
    busRdata_of_regionRead rfl, busRdata_of_regionRead rfl, busRdata_of_regionRead rfl, busRdata_of_regionRead rfl,
    busRdata_of_regionRead rfl, busRdata_of_regionRead rfl, busRdata_of_regionRead rfl, busRdata_of_regionRead rfl,
    busRdata_of_regionRead rfl, busRdata_of_regionRead rfl, busRdata_of_regionRead rfl, busRdata_of_regionRead rfl,
    busRdata_of_regionRead rfl, busRdata_of_regionRead rfl, busRdata_of_regionRead rfl, busRdata_of_regionRead rfl,
    fun hbuf => ?_, fun hres => ?_, hostCycle_busRead_take a s⟩
  · have hb : bufferAddr a.toNat = true := (bufferAddr_iff _).mpr (by omega)
    rw [hostCycle_busRead_busRdata, regionRead_buffer hb, readBuffer_fst]
    rfl
  · rw [hostCycle_busRead_busRdata, regionAt_reserved hres]
    rfl

/-! ## Host writes with no command running (R74) -/

/-- With the sequencer IDLE a host write is its row's effect, after its place in the history. -/
theorem exec_busWr_idle {s : State} (hs : s.seq = .idle) (a : HostAddr) (d : Byte) :
    exec (.busWr a d) s = .next (regionWrite (regionAt a.toNat) d (record (.busWr a d) s)) :=
  congrArg _ (hostCycle_idle hs (busWrite a d))

/-- A write to a row that is frozen while `BUSY` = 1 is carried out with `BUSY` = 0. -/
theorem exec_busWr_stores {s t : State} (hs : s.seq = .idle) (hb : s.busy = false) {a : HostAddr} {d : Byte}
    {f : State → State} (hf : regionWrite (regionAt a.toNat) d = storeIdle f) (ht : f (record (.busWr a d) s) = t) :
    exec (.busWr a d) s = .next t := by
  have hb' : (record (.busWr a d) s).busy = false := hb
  rw [exec_busWr_idle hs, hf, storeIdle_idle f hb', ht]

/-- Byte lane `i` lies between the `8 * i` bits below it and the `h` bits above it (20_memory.md R44). -/
theorem setByteLane_eq_append {h i : Nat} (w : BitVec (h + 8 + 8 * i)) (d : Byte) :
    setByteLane w i d = w.extractLsb' (8 * i + 8) h ++ d ++ w.extractLsb' 0 (8 * i) := by
  apply BitVec.eq_of_getLsbD_eq
  intro k hk
  rw [getLsbD_setByteLane w i d k hk, BitVec.getLsbD_append, BitVec.getLsbD_append]
  by_cases hlo : k < 8 * i
  · simp [hlo, show ¬ 8 * i ≤ k by omega]
  · by_cases hin : k < 8 * i + 8
    · simp [hlo, hin, show 8 * i ≤ k by omega, show k - 8 * i < 8 by omega]
    · simp [hlo, hin, show ¬ k - 8 * i < 8 by omega, show k - 8 * i - 8 < h by omega,
        show 8 * i + 8 + (k - 8 * i - 8) = k by omega]

theorem setByteLane_lowest {h : Nat} (w : BitVec (h + 8)) (d : Byte) :
    setByteLane w 0 d = w.extractLsb' 8 h ++ d := by
  simpa using setByteLane_eq_append (i := 0) w d

/-- A register's uppermost lane has no bits above it. -/
theorem setByteLane_highest {i : Nat} (w : BitVec (8 + 8 * i)) (d : Byte) :
    setByteLane w i d = d ++ w.extractLsb' 0 (8 * i) := by
  have hmid : setByteLane w i d = w.extractLsb' (8 * i + 8) 0 ++ d ++ w.extractLsb' 0 (8 * i) :=
    setByteLane_eq_append (h := 0) w d
  rw [hmid]
  congr 1
  exact BitVec.zero_width_append _ d

/-- Settles O12, lane by lane. -/
theorem busWrStoresOperandRegisters : Obligations.BusWrStoresOperandRegisters := by
  intro s d hs hb
  refine ⟨exec_busWr_stores hs hb rfl rfl, ?_, ?_, ?_, ?_, ?_, ?_, ?_, ?_, ?_⟩
  · exact exec_busWr_stores hs hb rfl (by rw [← setByteLane_lowest]; rfl)
  · exact exec_busWr_stores hs hb rfl (by rw [← setByteLane_highest (i := 1)]; rfl)
  · exact exec_busWr_stores hs hb rfl (by rw [← setByteLane_lowest]; rfl)
  · exact exec_busWr_stores hs hb rfl (by rw [← setByteLane_highest (i := 1)]; rfl)
  · exact exec_busWr_stores hs hb rfl (by rw [← setByteLane_lowest]; rfl)
  · exact exec_busWr_stores hs hb rfl (by rw [← setByteLane_highest (i := 1)]; rfl)
  · exact exec_busWr_stores hs hb rfl (by rw [← setByteLane_lowest]; rfl)
  · exact exec_busWr_stores hs hb rfl (by rw [← setByteLane_eq_append (i := 1)]; rfl)
  · exact exec_busWr_stores hs hb rfl (by rw [← setByteLane_highest (i := 2)]; rfl)

/-- The cell a write to `TXBUF` puts its byte in is the address itself. -/
theorem regionWrite_txbuf {a : Nat} (h : 0x100 ≤ a ∧ a < 0x200) (d : Byte) :
    regionWrite (regionAt a) d = storeIdle fun u => { u with mem := Memory.writeBlock u.mem a [d] } := by
  have hcell : txBase + (a - 0x100) = a := Nat.add_sub_of_le h.1
  rw [regionAt_txbuf h]
  change storeIdle (fun u => { u with mem := Memory.writeBlock u.mem (txBase + (a - 0x100)) [d] }) = _
  rw [hcell]

/-- Settles O13, by what memory reads after the write of one cell. -/
theorem busWrStoresTxbufBytes : Obligations.BusWrStoresTxbufBytes := by
  intro s a d hs hb hlo hhi
  refine ⟨_, exec_busWr_stores hs hb (regionWrite_txbuf ⟨hlo, by omega⟩ d) rfl, ?_, fun b hout => ?_, rfl⟩
  · exact (lookup_writeByte s.mem a.toNat d a.toNat).trans (if_pos rfl)
  · exact lookup_writeBlock_outside hout

/-- Settles O16: the cycle is the effect of the row `STATUS` alone, whatever `BUSY` is. -/
theorem statusWriteClearsTheOnesWritten : Obligations.StatusWriteClearsTheOnesWritten :=
  fun _ d hs => exec_busWr_idle hs 0x001#12 d

/-- `UpdatePins` after a write of `d` to `CTRL` (41_spi_transceiver.md R81). -/
theorem updatePins_ctrlWritten (d : Byte) (s : State) :
    updatePins { s with ctrl := ctrlWritten d } = { s with
      ctrl := d &&& 0x3F#8, sclk := d.getLsbD 1, mosi := false
      ncs := if d.getLsbD 0 then (if d.getLsbD 3 then !d.getLsbD 4 else true) else true } := by
  simp only [updatePins, State.cpol, restNcs, State.en, State.csManual, State.csAssert, getLsbD_ctrlWritten]
  rfl

/-! ## Host writes that leave the sequencer to its edge (R71, R74) -/

/-- A write that leaves the sequencer's phase alone acts ahead of the sequencer's edge. -/
theorem exec_busWr_of_access {s t : State} {a : HostAddr} {d : Byte} (ht : busWrite a d s = t)
    (hseq : t.seq = s.seq) : exec (.busWr a d) s = .next (idleCycle t) := by
  subst ht
  exact congrArg _ (hostCycle_eq_idleCycle (busWrite a d) s hseq)

theorem exec_statusWrite (s : State) (d : Byte) : exec (.busWr 0x001#12 d) s =
    .next (idleCycle { s with
      status := s.status &&& ~~~(d &&& 0x7E#8), events := s.events ++ [.busWr 0x001#12 d] }) :=
  exec_busWr_of_access rfl rfl

/-! ## Host writes while a command runs (R75-R77) -/

/-- While `BUSY` = 1 a write past `CMD` is a cycle without access, but for its place in the history. -/
theorem exec_busWr_busy {s : State} (hb : s.busy = true) {a : HostAddr} (h3 : 3 ≤ a.toNat) (d : Byte) :
    exec (.busWr a d) s = .next (idleCycle { s with events := s.events ++ [.busWr a d] }) :=
  exec_busWr_of_access (busWrite_busy hb a d h3) rfl

/-- While `BUSY` = 1 a `CMD` write sets `ERR_BUSY` ahead of the sequencer's edge (60_exceptions.md R112). -/
theorem exec_cmdWrite_busy {s : State} (hb : s.busy = true) (d : Byte) : exec (.busWr 0x002#12 d) s =
    .next (idleCycle { s with
      status := s.status ||| 0x10#8, events := s.events ++ [.busWr 0x002#12 d, .cmdReject d .busy] }) :=
  exec_busWr_of_access (busWrite_cmd_busy hb d) rfl

/-- While `BUSY` = 1 a `CTRL` write that leaves the channel open is a cycle without access. -/
theorem exec_ctrlWrite_open {s : State} {d : Byte} (hb : s.busy = true) (hd : d.getLsbD 0 = true) :
    exec (.busWr 0x000#12 d) s = .next (idleCycle { s with events := s.events ++ [.busWr 0x000#12 d] }) := by
  have hb' : (record (.busWr 0x000#12 d) s).busy = true := hb
  have hnone : ctrlWrite d (record (.busWr 0x000#12 d) s) = record (.busWr 0x000#12 d) s := by
    rw [ctrlWrite, if_pos hb', if_pos hd]
  exact exec_busWr_of_access hnone rfl

/-- While `BUSY` = 1 a `CTRL` write that closes the channel is the abort. -/
theorem exec_ctrlWrite_abort {s : State} {d : Byte} (hb : s.busy = true) (hd : d.getLsbD 0 = false) :
    exec (.busWr 0x000#12 d) s = .next (abort (record (.busWr 0x000#12 d) s)) :=
  congrArg _ (abort_cycle hb hd)

/-- Settles O17, by `BUSY` and bit 0 of the byte written. -/
theorem ctrlWriteStoresOrAborts : Obligations.CtrlWriteStoresOrAborts := by
  refine ⟨fun s d hs hb => ?_, fun _ _ => exec_ctrlWrite_open, fun _ _ => exec_ctrlWrite_abort⟩
  have hb' : ¬ (record (.busWr 0x000#12 d) s).busy = true := Bool.eq_false_iff.mp hb
  rw [exec_busWr_idle hs]
  change Host.Outcome.next (ctrlWrite d _) = _
  rw [ctrlWrite, if_neg hb', updatePins_ctrlWritten]
  rfl

/-! ## The abort (R77) -/

/-- What the cut records is all it changes. -/
theorem recordCut_eq (s : State) : recordCut s = { s with events := (recordCut s).events } := by
  unfold recordCut
  split <;> rfl

/-- An abort leaves the operands, the results, the read port and the inputs to come as they were. -/
theorem abort_eq (s : State) : abort s = { s with
    ctrl := s.ctrl &&& 0xFE#8, status := (s.status &&& 0xFE#8) ||| 0x40#8
    seq := .idle, eng := Engine.idle, rxSh := [], frameSh := [], motSh := Motion.zero
    ncs := true, sclk := s.cpol, mosi := false, events := (recordCut s).events } := by
  rw [abort, recordCut_eq]
  rfl

/-- A byte is begun with its first bit, which follows the setup wait (notes/assumptions/12.md). -/
theorem begunBytes_eq (w : Wire) (e : Engine) :
    begunBytes w e = if w = .setup then [] else e.out.take (e.byteIdx + 1) := by
  cases w <;> rfl

/-- With no transaction on the wire the cut is the command's alone. -/
theorem recordCut_events_offWire {s : State} {c : Command} {ph : Phase} (hs : s.seq = .run c ph)
    (hph : ph = .start ∨ ph = .settle) : (recordCut s).events = s.events ++ [.cmdAbort c] := by
  rcases hph with rfl | rfl <;> simp [recordCut, hs]

theorem recordCut_events_txn {s : State} {c : Command} {t : Txn} {w : Wire} (hs : s.seq = .run c (.txn t w)) :
    (recordCut s).events = s.events ++
      [.txnAbort (if w = .setup then [] else s.eng.out.take (s.eng.byteIdx + 1)) s.eng.inn, .cmdAbort c] := by
  simp [recordCut, hs, begunBytes_eq]

/-- Settles O18, by whether a transaction is on the wire. -/
theorem abortCutsTheCommand : Obligations.AbortCutsTheCommand := by
  intro s c ph d hs hb hd
  refine ⟨_, exec_ctrlWrite_abort hb hd, (abort_eq _).trans ?_⟩
  have hs' : (record (.busWr 0x000#12 d) s).seq = .run c ph := hs
  cases ph with
  | start => rw [recordCut_events_offWire hs' (.inl rfl), record_events, List.append_assoc]; rfl
  | settle => rw [recordCut_events_offWire hs' (.inr rfl), record_events, List.append_assoc]; rfl
  | txn t w => rw [recordCut_events_txn hs', record_events, List.append_assoc]; rfl

/-! ## Two `CTRL` writes with the same bit 0 (R76) -/

/-- A cycle without access is the same whatever the event recorded ahead of it. -/
theorem idleCycle_afterEvent (s : State) (e : Event) : idleCycle { s with events := s.events ++ [e] } =
    { idleCycle s with events := s.events ++ e :: (idleCycle s).events.drop s.events.length } := by
  have hport : (idleCycle s).busRdata = s.busRdata := hostCycle_busRdata _ s
  exact (idleCycle_afterRead s s.busRdata e).trans (by rw [← hport])

/-- Settles O14: the operands are past `CMD`, and a `CTRL` write is told by its bit 0. -/
theorem busWrIgnoredWhileBusy : Obligations.BusWrIgnoredWhileBusy := by
  intro s d hb
  refine ⟨fun a ha => exec_busWr_busy hb (by omega) d, fun d' hd => ?_, exec_statusWrite s d,
    exec_cmdWrite_busy hb d⟩
  cases h0 : d.getLsbD 0 with
  | true =>
    refine ⟨_, _, exec_ctrlWrite_open hb h0, exec_ctrlWrite_open hb (hd ▸ h0), ?_⟩
    rw [idleCycle_afterEvent, idleCycle_afterEvent]
  | false =>
    refine ⟨_, _, exec_ctrlWrite_abort hb h0, exec_ctrlWrite_abort hb (hd ▸ h0), ?_⟩
    rw [abort_eq, abort_eq (record (.busWr 0x000#12 d) s)]
    rfl

/-! ## The edge of a commit (R72) -/

/-- Another `STATUS` and history at the start of a commit's cycle: the commit sets `DONE` and clears `BUSY` over that
`STATUS`, and its results are the same. -/
theorem idleCycle_commitEdge {s : State} (hs : s.seq ≠ .idle) (hend : (idleCycle s).seq = .idle) (st : Byte)
    (ev : List Event) :
    (idleCycle { s with status := st, events := ev }).seq = .idle ∧
    (idleCycle { s with status := st, events := ev }).status = (st ||| 0x02#8) &&& 0xFE#8 ∧
    (idleCycle { s with status := st, events := ev }).mem = (idleCycle s).mem ∧
    (idleCycle { s with status := st, events := ev }).mot = (idleCycle s).mot := by
  simp only [idleCycle_eq_tick] at hend ⊢
  have hseen : SameButSeen s.busRdata s.events ev (tick s) (tick { s with status := st, events := ev }) :=
    tick_seen s st s.busRdata ev
  obtain ⟨st', l, -, ht⟩ := hseen
  have hseq : (tick { s with status := st, events := ev }).seq = .idle := by rw [ht]; exact hend
  have hstatus := tick_status { s with status := st, events := ev }
  rw [if_pos ⟨hs, hseq⟩, statusCommit_eq] at hstatus
  exact ⟨hseq, hstatus, by rw [ht]; rfl, by rw [ht]; rfl⟩

/-- Settles O19: the writes of `STATUS` and `CMD` act ahead of the commit, and the abort leaves no commit. -/
theorem collisionsAtTheCommitEdge : Obligations.CollisionsAtTheCommitEdge := by
  intro s d hs hb hend
  exact ⟨⟨_, exec_statusWrite s d, idleCycle_commitEdge hs hend _ _⟩,
    fun hd => ⟨_, exec_ctrlWrite_abort hb hd, abort_seq _, abort_status _, abort_mem _, abort_mot _⟩,
    ⟨_, exec_cmdWrite_busy hb d, idleCycle_commitEdge hs hend _ _⟩,
    fun a h3 => exec_busWr_busy hb h3 d⟩

end Sys2Proof.Machine

/-! # Proofs of the statements of 41_spi_transceiver.md

A command of one transaction edge by edge and as a value, chip select, the bits of a byte and the gap between bytes. -/

namespace Sys2Proof.Machine

/-! ## A command of one transaction, edge by edge (R79, R84-R87) -/

/-- The state an accepted command starts from (60_exceptions.md R112). -/
def accepted (c : Command) (s : State) : State := startCommand c (record (.busWr cmdAddr (opByte c)) s)

theorem accepted_argsOk {c : Command} {s : State} (h : CommandReady c s) : argsOk c (accepted c s) = true := by
  obtain ⟨-, -, -, hargs⟩ := (admission_ok_iff _ c s).mp ((commandReady_iff c s).mp h).2
  cases c <;> exact hargs

theorem accepted_commandCycles (c : Command) (s : State) : (accepted c s).commandCycles c = s.commandCycles c := by
  cases c <;> rfl

theorem afterTxn_seq_irrel {c : Command} (hc : c ≠ .frame) (t : Txn) (inn : List Byte) (s : State) (q : Seq) :
    afterTxn c t inn { s with seq := q } = afterTxn c t inn s := by
  cases c with
  | frame => contradiction
  | _ => rfl

/-- A command of one transaction is one edge to its start and then the cycles of its transaction. -/
theorem ticks_command_single {c : Command} (hc : c ≠ .frame) {s : State} (hs : s.seq = .run c .start)
    (ha : argsOk c s = true) : ticks (1 + s.commandCycles c) s = commandBody c s := by
  have hl : (txnBytes c .single s).1.length = txnLength c .single s := txnBytes_length hc
  have hne : (txnBytes c .single s).1 ≠ [] :=
    List.ne_nil_of_length_pos (by rw [hl]; exact txnLength_pos ha)
  have ht : ticks 1 s = beginTxn c .single s := by simp [ticks, tick, hs, firstTxn_single hc]
  rw [ticks_add, ht, commandCycles_single hc, ← hl, ticks_txn _ _ _ hne, afterTxn_seq_irrel hc, commandBody_single hc]

/-- Settles O39: both sides start from the state the accept leaves. -/
theorem commandIsItsCyclesOnTheWire : Obligations.CommandIsItsCyclesOnTheWire := by
  intro s s₁ c h hc he
  rw [exec_cmdWrite_of_ready h] at he
  cases he
  change exec (commandInstr c) s = .next (ticks (1 + s.commandCycles c) (accepted c s))
  rw [exec_of_ready h, ← accepted_commandCycles, ticks_command_single hc rfl (accepted_argsOk h)]
  rfl

/-! ## A command of one transaction, as a value (R79, R82, R84) -/

/-- The bytes of a command are those the host set up before its accept. -/
theorem txnBytes_accepted (c : Command) (t : Txn) (s : State) : txnBytes c t (accepted c s) = txnBytes c t s := by
  cases c <;> rfl

/-- A command of one transaction commits from the state its transaction leaves, with shadow results of its own. -/
theorem commandBody_commits {c : Command} (hc : c ≠ .frame) (s : State) : ∃ rx m, commandBody c s =
    commit c { (spiTxn (txnBytes c .single s).1 { s with draws := (txnBytes c .single s).2 }).2 with
      rxSh := rx, motSh := m } := by
  cases c with
  | frame => contradiction
  | _ => exact ⟨_, _, rfl⟩

/-- The history of an accepted command of one transaction. -/
theorem commandBody_events {c : Command} (hc : c ≠ .frame) (s : State) :
    (commandBody c (accepted c s)).events = s.events ++
      [.busWr 0x002#12 (opByte c), .cmdAccept c,
        .txn (txnBytes c .single s).1 (s.answerList (txnLength c .single s)), .cmdDone c] := by
  obtain ⟨rx, m, h⟩ := commandBody_commits hc (accepted c s)
  have hl : (txnBytes c .single s).1.length = txnLength c .single s := txnBytes_length hc
  rw [h, txnBytes_accepted, commit_events, ← hl]
  change s.events ++ [_] ++ [_] ++ [_] ++ [_] = _
  simp only [List.append_assoc]
  rfl

/-- `STATUS` over a whole command (10_state.md R36). -/
theorem statusCommit_statusAccept (st : Byte) : statusCommit (statusAccept st) = (st ||| 0x02#8) &&& 0xBE#8 := by
  revert st; decide

theorem commandBody_leaves {c : Command} (hc : c ≠ .frame) (s : State) :
    CommandLeaves (txnLength c .single s) s (commandBody c (accepted c s)) := by
  obtain ⟨rx, m, h⟩ := commandBody_commits hc (accepted c s)
  have hl : (txnBytes c .single s).1.length = txnLength c .single s := txnBytes_length hc
  rw [h, txnBytes_accepted, ← hl]
  exact ⟨⟨commit_ctrl c _, commit_addr c _, commit_len c _, commit_clkdiv c _, commit_gap c _, commit_settle c _⟩,
    commit_host c _, commit_answers c _, commit_sensorDraws c _,
    (commit_status c _).trans (statusCommit_statusAccept _), commit_seq c _, commit_sclk c _, commit_mosi c _,
    commit_ncs c _⟩

/-! ## `XFER` and `RDREG` (R88, R89) -/

theorem commandBody_xfer_mem (s : State) :
    (commandBody .xfer (accepted .xfer s)).mem = Memory.writeBlock s.mem 0x200 (s.answerList s.len.toNat) := by
  have hl : (txBytes s.mem txBase s.count s.draws).1.length = s.len.toNat := txBytes_length _ _ _ _
  rw [← hl]
  rfl

/-- `RDREG` strips the leading answer. -/
theorem commandBody_rdreg_mem (s : State) :
    (commandBody .rdreg (accepted .rdreg s)).mem =
      Memory.writeBlock s.mem 0x200 ((s.answerList (s.len.toNat + 1)).drop 1) := by
  rw [← readFraming_length s.addr s.len.toNat]
  rfl

theorem lookup_writeBlock_answers {m : List Host.Cell} {base i n : Nat} (s : State) (h : i < n) :
    Memory.lookup (Memory.writeBlock m base (s.answerList n)) (base + i) = some (s.answer i) := by
  rw [lookup_writeBlock, answerList_length, if_pos (by omega), Nat.add_sub_cancel_left, answerList_getElem? s n i h]

/-- Settles O26: the events and what is left are those of every command of one transaction. -/
theorem xferExchangesTxbufForRxbuf : Obligations.XferExchangesTxbufForRxbuf := by
  intro s h
  have hc : Command.xfer ≠ .frame := by decide
  refine ⟨commandBody .xfer (accepted .xfer s), (txnBytes .xfer .single s).1, exec_of_ready h,
    ⟨txBytes_length _ _ _ _, fun i b hi hb => txBytes_getElem? _ _ _ _ i b hi hb⟩, commandBody_events hc s,
    fun i hi => ?_, fun a ha => ?_, rfl, commandBody_leaves hc s⟩
  · rw [commandBody_xfer_mem, lookup_writeBlock_answers s hi]
  · rw [commandBody_xfer_mem]
    exact lookup_writeBlock_outside (by rwa [answerList_length])

/-- `TXBUF` with `a` and then fill bytes is sent as the read framing of `a`. -/
theorem sendsTxbuf_readFraming {s : State} {a : Byte} {n : Nat} {out : List Byte} (h : SendsTxbuf s (n + 1) out)
    (h0 : Memory.lookup s.mem 0x100 = some a)
    (hfill : ∀ i, 1 ≤ i → i ≤ n → Memory.lookup s.mem (0x100 + i) = some 0xFF#8) :
    out = a :: List.replicate n 0xFF#8 := by
  obtain ⟨hlen, hsent⟩ := h
  refine List.ext_getElem? fun i => ?_
  cases i with
  | zero => exact hsent 0 a (Nat.succ_pos n) h0
  | succ i =>
    rw [List.getElem?_cons_succ, List.getElem?_replicate]
    by_cases hi : i < n
    · rw [if_pos hi, hsent (i + 1) _ (by omega) (hfill (i + 1) (by omega) (by omega))]
    · rw [if_neg hi, List.getElem?_eq_none (by omega)]

theorem wireLog_append {s t : State} {l : List Event} (h : t.events = s.events ++ l) :
    wireLog t = wireLog s ++ l.filter Event.onWire := by
  rw [wireLog, h, List.filter_append]
  rfl

/-- `RDREG` on the wire and in `RXBUF` (42_register_access.md R93). -/
theorem exec_rdreg_reads {s : State} (h : CommandReady .rdreg s) : ∃ u, exec .rdreg s = .next u ∧
    wireLog u = wireLog s ++
      [.txn (s.addr :: List.replicate s.len.toNat 0xFF#8) (s.answerList (s.len.toNat + 1))] ∧
    ∀ i, i < s.len.toNat → Memory.lookup u.mem (0x200 + i) = some (s.answer (i + 1)) := by
  refine ⟨commandBody .rdreg (accepted .rdreg s), exec_of_ready h,
    wireLog_append (commandBody_events (by decide) s), fun i hi => ?_⟩
  have hl : ((s.answerList (s.len.toNat + 1)).drop 1).length = s.len.toNat := by simp [answerList_length]
  rw [commandBody_rdreg_mem, lookup_writeBlock, if_pos (by omega), Nat.add_sub_cancel_left, List.getElem?_drop,
    Nat.add_comm 1 i, answerList_getElem? s _ _ (by omega)]

/-- Settles O28, from what `XFER` and `RDREG` put on the wire and in `RXBUF`. -/
theorem xferOfAReadFramingMatchesRdreg : Obligations.XferOfAReadFramingMatchesRdreg := by
  intro s n h hlen hn ha h0 hfill
  obtain ⟨t, out, ht, hout, hev, hrx, -⟩ := xferExchangesTxbufForRxbuf s h
  rw [hlen] at hout hev hrx
  obtain rfl := sendsTxbuf_readFraming hout h0 hfill
  have hwt := wireLog_append hev
  obtain ⟨hi, hb, he, -, h256⟩ := h
  have hn' : (BitVec.ofNat 16 n).toNat = n := Nat.mod_eq_of_lt (by omega)
  have hr : CommandReady .rdreg { s with len := BitVec.ofNat 16 n } :=
    ⟨hi, hb, he, ⟨by rw [hn']; exact hn, by rw [hn']; omega⟩, ha⟩
  obtain ⟨u, hu, hwu, hru⟩ := exec_rdreg_reads hr
  simp only [hn'] at hwu hru
  refine ⟨t, u, s.answerList (n + 1), ht, hu, hwt, hwu.trans hwt.symm, ?_, fun i hi => ?_⟩
  · rw [answerList_getElem? s _ 0 (by omega)]
    exact hrx 0 (by omega)
  · rw [hrx (i + 1) (by omega)]
    exact hru i hi

/-! ## Chip select (R81, R82, R84) -/

/-- `NCS` is what the place of the transaction on the wire says, or is at rest where none is. -/
theorem Inv.ncs_cases {s : State} (h : Inv s) :
    (∃ c t w, s.seq = .run c (.txn t w) ∧ s.ncs = wireNcs w s) ∨
      ((∀ c t w, s.seq ≠ .run c (.txn t w)) ∧ s.ncs = restNcs s) := by
  have hp := h.pins
  unfold pinsLegal at hp
  split at hp <;> rename_i hs <;> obtain ⟨-, hn, -⟩ := hp
  · exact .inl ⟨_, _, _, hs, hn⟩
  all_goals exact .inr ⟨by simp [hs], hn⟩

theorem wireNcs_automatic {s : State} (hm : s.csManual = false) (w : Wire) :
    wireNcs w s = false ↔ w ≠ .highFirst ∧ w ≠ .highSecond := by
  cases w <;> simp [wireNcs, hm]

theorem ncs_low_iff {s : State} (h : Inv s) (hm : s.csManual = false) :
    s.ncs = false ↔ ∃ c t w, s.seq = .run c (.txn t w) ∧ w ≠ .highFirst ∧ w ≠ .highSecond := by
  rcases h.ncs_cases with ⟨c, t, w, hs, hn⟩ | ⟨hs, hn⟩
  · rw [hn, wireNcs_automatic hm]
    constructor
    · exact fun hw => ⟨c, t, w, hs, hw⟩
    · rintro ⟨c', t', w', hs', hw⟩
      rw [hs] at hs'
      cases hs'
      exact hw
  · have hhigh : s.ncs = true := by rw [hn]; simp [restNcs, hm]
    constructor
    · intro hlow
      rw [hhigh] at hlow
      cases hlow
    · rintro ⟨c, t, w, hs', -⟩
      exact absurd hs' (hs c t w)

theorem ncs_manual {s : State} (h : Inv s) (hm : s.csManual = true) (hs : s.seq ≠ .idle) : s.ncs = !s.csAssert := by
  have hen : s.en = true := h.busyEn (h.busyIff.mpr hs)
  rcases h.ncs_cases with ⟨c, t, w, -, hn⟩ | ⟨-, hn⟩
  · exact wireNcs_manual hn hm
  · rw [hn]
    simp [restNcs, hen, hm]

/-! In manual mode no edge of the sequencer moves `NCS` (R82). -/

theorem driveNcs_manual {s : State} (hm : s.csManual = true) (level : Bool) : (driveNcs level s).ncs = s.ncs := by
  rw [driveNcs_ncs, if_pos hm]

theorem beginTxn_ncs_manual {s : State} (hm : s.csManual = true) (c : Command) (t : Txn) :
    (beginTxn c t s).ncs = s.ncs := driveNcs_manual hm false

theorem beginSettle_ncs_manual {s : State} (hm : s.csManual = true) (c : Command) : (beginSettle c s).ncs = s.ncs := by
  unfold beginSettle
  split
  · exact driveNcs_manual hm false
  · rfl

theorem afterTxn_ncs_manual {s : State} (hm : s.csManual = true) (c : Command) (t : Txn) (inn : List Byte) :
    (afterTxn c t inn s).ncs = s.ncs := by
  cases c with
  | frame =>
    cases t with
    | read k =>
      simp only [afterTxn]
      split
      · rfl
      · split
        · exact driveNcs_manual hm false
        · rfl
    | arm => exact beginSettle_ncs_manual hm .frame
    | single => exact beginSettle_ncs_manual hm .frame
  | _ => rfl

theorem endByte_ncs (c : Command) (t : Txn) (s : State) : (endByte c t s).ncs = s.ncs := by
  unfold endByte
  split
  · split <;> rfl
  · rfl

theorem wireEdge_ncs_manual {s : State} (hm : s.csManual = true) (c : Command) (t : Txn) (w : Wire) :
    (wireEdge c t w s).ncs = s.ncs := by
  cases w with
  | bitSecond =>
    simp only [wireEdge]
    split
    · exact endByte_ncs c t (endBit s)
    · rfl
  | hold => exact driveNcs_manual hm true
  | highSecond => exact afterTxn_ncs_manual (s := record _ { s with eng := Engine.idle }) hm c t s.eng.inn
  | _ => rfl

theorem tick_ncs_manual {s : State} (hm : s.csManual = true) : (tick s).ncs = s.ncs := by
  unfold tick
  split
  · rfl
  · exact beginTxn_ncs_manual hm _ _
  · next c t w _ =>
    rcases wireTick_cases c t w s with ⟨e, h⟩ | h <;> rw [h]
    exact wireEdge_ncs_manual hm c t w
  · split
    · exact driveNcs_manual hm false
    · rfl

/-- Settles O43: the invariant fixes `NCS` at each place, and in manual mode the sequencer never drives it. -/
theorem chipSelectFollowsItsMode : Obligations.ChipSelectFollowsItsMode :=
  ⟨fun _ => ncs_low_iff, fun _ => ncs_manual, fun s hm => by rw [idleCycle_eq_tick]; exact tick_ncs_manual hm⟩

/-! ## Where a byte ends (R84-R86) -/

/-- The edge that ends the last bit of a byte. -/
theorem tick_byteEnd {s : State} {c : Command} {t : Txn} (hs : s.seq = .run c (.txn t .bitSecond))
    (hh : s.eng.halfCnt = 0) (hb : s.eng.bitCnt = 0) : tick s = endByte c t (endBit s) := by
  simp [tick, wireTick, wireEdge, hs, hh, hb]

/-- A byte with another one to follow begins it at once, or its gap. -/
theorem endByte_more {c : Command} {t : Txn} {s : State} (h : s.eng.byteIdx + 1 < s.eng.out.length) :
    endByte c t s = if s.gapCycles = 0 then beginByte c t (s.eng.byteIdx + 1) (keepAnswer s)
      else enterGap c t (keepAnswer s) := by
  rw [endByte, if_pos h]

theorem endByte_last {c : Command} {t : Txn} {s : State} (h : ¬ s.eng.byteIdx + 1 < s.eng.out.length) :
    endByte c t s = enterWire c t .hold (keepAnswer s) := by
  rw [endByte, if_neg h]

/-! ## The gap (R86) -/

/-- Within a gap only its counter runs. -/
theorem ticks_within_gap {c : Command} {t : Txn} (k : Nat) (s : State) (hs : s.seq = .run c (.txn t .gap))
    (hk : k ≤ s.eng.gapCnt) : ticks k s = { s with eng := { s.eng with gapCnt := s.eng.gapCnt - k } } := by
  induction k generalizing s with
  | zero => rfl
  | succ k ih =>
    have h1 : tick s = { s with eng := { s.eng with gapCnt := s.eng.gapCnt - 1 } } := by
      simp [tick, wireTick, hs, show s.eng.gapCnt ≠ 0 by omega]
    have hk' : k ≤ s.eng.gapCnt - 1 := by omega
    rw [ticks, h1]
    refine (ih _ (by exact hs) (by exact hk')).trans ?_
    simp only [Nat.sub_sub, Nat.add_comm 1 k]

/-- In each cycle of the gap the pins are as the byte left them. -/
theorem endByte_inGap {c : Command} {t : Txn} {s : State} (h : s.eng.byteIdx + 1 < s.eng.out.length) {k : Nat}
    (hk : k < s.gapCycles) : (ticks k (endByte c t s)).seq = .run c (.txn t .gap) ∧
      SamePins s (ticks k (endByte c t s)) := by
  have hk' : k ≤ (enterGap c t (keepAnswer s)).eng.gapCnt := Nat.le_sub_one_of_lt hk
  rw [endByte_more h, if_neg (by omega), ticks_within_gap k _ rfl hk']
  exact ⟨rfl, rfl, rfl, rfl⟩

/-- After the gap, of no cycles too, the next byte begins. -/
theorem ticks_toNextByte {c : Command} {t : Txn} {s : State} (h : s.eng.byteIdx + 1 < s.eng.out.length) :
    ∃ v, ticks s.gapCycles (endByte c t s) = beginByte c t (s.eng.byteIdx + 1) v := by
  rw [endByte_more h]
  by_cases hgap : s.gapCycles = 0
  · rw [if_pos hgap, hgap]
    exact ⟨_, rfl⟩
  · rw [if_neg hgap]
    have hend := ticks_gap (c := c) (t := t) (s.gapCycles - 1) (enterGap c t (keepAnswer s)) rfl rfl
    rw [Nat.sub_add_cancel (Nat.pos_of_ne_zero hgap)] at hend
    exact ⟨_, hend⟩

/-- Settles O51: the edge that ends the byte begins the gap, the next byte or the hold wait. -/
theorem gapBetweenBytes : Obligations.GapBetweenBytes := by
  intro s c t k hs hh hb
  have hend : ticks 1 s = endByte c t (endBit s) := tick_byteEnd hs hh hb
  refine ⟨fun hmore hk => ?_, fun hmore => ?_, fun hlast => ?_⟩
  · obtain ⟨hseq, hncs, hsclk, hmosi⟩ := endByte_inGap (c := c) (t := t) (s := endBit s) hmore hk
    rw [ticks_add, hend]
    exact ⟨hseq, hsclk, hncs, hmosi⟩
  · obtain ⟨v, hv⟩ := ticks_toNextByte (c := c) (t := t) (s := endBit s) hmore
    rw [ticks_add, hend]
    change (ticks (endBit s).gapCycles _).seq = _ ∧ (ticks (endBit s).gapCycles _).eng.byteIdx = _
    rw [hv]
    exact ⟨rfl, rfl⟩
  · rw [hend, endByte_last (s := endBit s) hlast]
    exact ⟨rfl, rfl, rfl⟩

/-! ## Inside a byte (R85) -/

/-- `s` with byte `n` of its transaction and the sensor's answer to it in the shift engine. -/
def loadByte (n : Nat) (s : State) : State :=
  { dropAnswers 1 s with eng := { s.eng with
    txSr := s.eng.out.getD n 0#8, rxSr := 0#8, bitCnt := 7, byteIdx := n, miso := s.answer 0 } }

theorem beginByte_eq (c : Command) (t : Txn) (n : Nat) (s : State) :
    beginByte c t n s = beginBit (enterWire c t .bitFirst (loadByte n s)) := rfl

/-- The pins from the edge that begins byte `n`, where SCLK is idle: `2 H` cycles a bit, `H` on each level of SCLK. -/
theorem beginByte_pins (c : Command) (t : Txn) (n : Nat) {v : State} (hv : v.sclk = v.cpol) {j i : Nat} (hj : j < 8)
    (hi : i < 2 * v.halfPeriod) :
    (ticks (2 * v.halfPeriod * j + i) (beginByte c t n v)).mosi = (v.eng.out.getD n 0#8).getLsbD (7 - j) ∧
    (ticks (2 * v.halfPeriod * j + i) (beginByte c t n v)).sclk =
      if i < v.halfPeriod then (if v.cpha then !v.cpol else v.cpol) else (if v.cpha then v.cpol else !v.cpol) := by
  obtain ⟨u, hu, htx, hctrl, hhalf, hclk⟩ := ticks_toBit c t j (loadByte n v) (Nat.le_of_lt_succ hj) hv
  change ticks (2 * v.halfPeriod * j) _ = _ at hu
  change u.halfPeriod = v.halfPeriod at hhalf
  obtain ⟨hmosi, hsclk⟩ := ticks_inBit c t i u hclk (by rw [hhalf]; exact hi)
  rw [beginByte_eq, ticks_add, hu, hmosi, hsclk, htx]
  constructor
  · rw [BitVec.getLsbD_shiftLeft, decide_eq_true (by omega), decide_eq_false (by omega)]
    rfl
  · rw [hhalf, State.cpha, State.cpol, hctrl]
    rfl

/-- A byte ends `16 H` cycles after the edge that began it, with its answer complete. -/
theorem beginByte_inn (c : Command) (t : Txn) (n : Nat) (v : State) :
    (ticks (16 * v.halfPeriod) (beginByte c t n v)).eng.inn = v.eng.inn ++ [v.answer 0] := by
  obtain ⟨e, b, h, -, hinn, -, hrx⟩ := ticks_byte c t n v
  rw [h, endByte_inn]
  change e.inn ++ [e.rxSr] = _
  rw [hinn, hrx]

/-- A byte that begins at the next edge, from a state with SCLK idle. -/
theorem ticks_shiftByte {c : Command} {t : Txn} {n j i : Nat} {s v : State} (hb : ticks 1 s = beginByte c t n v)
    (hv : v.sclk = v.cpol) (hj : j < 8) (hi : i < 2 * v.halfPeriod) :
    (ticks 1 s).eng.byteIdx = n ∧
    (ticks (1 + 2 * v.halfPeriod * j + i) s).mosi = (v.eng.out.getD n 0#8).getLsbD (7 - j) ∧
    ((ticks (1 + 2 * v.halfPeriod * j + i) s).sclk =
      if i < v.halfPeriod then (if v.cpha then !v.cpol else v.cpol) else (if v.cpha then v.cpol else !v.cpol)) ∧
    (ticks (1 + 16 * v.halfPeriod) s).eng.inn = (ticks 1 s).eng.inn ++ [v.answer 0] ∧
    (ticks 1 s).eng.inn = v.eng.inn := by
  obtain ⟨hmosi, hsclk⟩ := beginByte_pins c t n hv hj hi
  rw [Nat.add_assoc, ticks_add 1, ticks_add 1, hb]
  exact ⟨rfl, hmosi, hsclk, beginByte_inn c t n v, rfl⟩

/-- Settles O44: in each of the three places the next edge begins the byte, with SCLK idle. -/
theorem shiftByteMsbFirst : Obligations.ShiftByteMsbFirst := by
  intro s c t w n j i hs hw hj hi
  rcases hw with ⟨rfl, rfl, hcnt, hclk⟩ | ⟨rfl, rfl, hcnt, hclk⟩ | ⟨rfl, rfl, hmore, hh, hbit, hgap⟩
  · have hb : ticks 1 s = beginByte c t 0 s := by simp [ticks, tick, wireTick, wireEdge, hs, hcnt]
    obtain ⟨hidx, hmosi, hsclk, hend, hinn⟩ := ticks_shiftByte hb hclk hj hi
    exact ⟨hidx, hmosi, hsclk, hend, fun _ => hinn, fun h => nomatch h⟩
  · have hb : ticks 1 s = beginByte c t (s.eng.byteIdx + 1) s := by
      simp [ticks, tick, wireTick, wireEdge, hs, hcnt]
    obtain ⟨hidx, hmosi, hsclk, hend, hinn⟩ := ticks_shiftByte hb hclk hj hi
    exact ⟨hidx, hmosi, hsclk, hend, fun _ => hinn, fun h => nomatch h⟩
  · have hgap0 : s.gapCycles = 0 := by simp [State.gapCycles, hgap]
    have hb : ticks 1 s = beginByte c t (s.eng.byteIdx + 1) (keepAnswer (endBit s)) :=
      (tick_byteEnd hs hh hbit).trans ((endByte_more (s := endBit s) hmore).trans (if_pos hgap0))
    obtain ⟨hidx, hmosi, hsclk, hend, hinn⟩ := ticks_shiftByte hb rfl hj hi
    exact ⟨hidx, hmosi, hsclk, hend, fun h => absurd rfl h, fun _ => hinn⟩

end Sys2Proof.Machine

/-! # Proofs of the statements of 42_register_access.md

What `RDREG` and `WRREG` put on the wire and leave, and which of the sensor's answers reach the host. -/

namespace Sys2Proof.Machine

/-! ## What `RDREG` and `WRREG` leave (R93, R95) -/

/-- Settles O27: the events and what is left are those of every command of one transaction, `RXBUF` what the read leaves
there. -/
theorem rdregStripsOneDummyByte : Obligations.RdregStripsOneDummyByte := by
  intro s h
  have hc : Command.rdreg ≠ .frame := by decide
  have he : exec .rdreg s = .next (commandBody .rdreg (accepted .rdreg s)) := exec_of_ready h
  obtain ⟨u, hu, -, hrx⟩ := exec_rdreg_reads h
  obtain rfl : commandBody .rdreg (accepted .rdreg s) = u := Host.Outcome.next.inj (he.symm.trans hu)
  refine ⟨_, he, commandBody_events hc s, hrx, fun a ha => ?_, rfl, rfl, commandBody_leaves hc s⟩
  rw [commandBody_rdreg_mem]
  exact lookup_writeBlock_outside (by simpa [answerList_length] using ha)

/-- Settles O29: the events and what is left are those of every command of one transaction, and the commit publishes no
result. -/
theorem wrregSendsTheWriteFraming : Obligations.WrregSendsTheWriteFraming := by
  intro s h
  have hc : Command.wrreg ≠ .frame := by decide
  exact ⟨commandBody .wrreg (accepted .wrreg s), (txBytes s.mem txBase s.count s.draws).1, exec_of_ready h,
    ⟨txBytes_length _ _ _ _, fun i b hi hb => txBytes_getElem? _ _ _ _ i b hi hb⟩, commandBody_events hc s,
    fun _ => rfl, rfl, commandBody_leaves hc s⟩

/-! ## A command's word with the sequencer IDLE (60_exceptions.md R112) -/

/-- A command's word that is turned away with the sequencer IDLE sets its error bit. -/
theorem exec_of_rejected {c : Command} {k : ErrKind} {s : State} (hs : s.seq = .idle)
    (h : admission (opByte c) s = .error k) :
    exec (commandInstr c) s = .next (rejectCommand k (opByte c) (record (.busWr cmdAddr (opByte c)) s)) := by
  rw [exec_commandInstr, commandRun_error h, hostCycle_idle hs]
  change Host.Outcome.next (accept _ _) = _
  rw [accept, admission_record, h]

/-- From an idle sequencer a command's word is turned away with an error or runs the command. -/
theorem rejected_or_commandReady (c : Command) {s : State} (hs : s.seq = .idle) :
    (∃ k, admission (opByte c) s = .error k) ∨ CommandReady c s := by
  cases ha : admission (opByte c) s with
  | error k => exact .inl ⟨k, rfl⟩
  | ok c' =>
    cases admission_opByte ha
    exact .inr ((commandReady_iff c s).mpr ⟨hs, ha⟩)

/-! ## The answers to `WRREG` (R95) -/

/-- Settles O36, by whether the command is accepted: its body uses the answers only in the event of its transaction. -/
theorem wrregDiscardsTheAnswers : Obligations.WrregDiscardsTheAnswers := by
  intro s as k hs
  rcases rejected_or_commandReady .wrreg hs with ⟨e, he⟩ | hr
  · exact ⟨_, _, exec_of_rejected (c := .wrreg) hs he, exec_of_rejected (c := .wrreg) hs he, rfl⟩
  · exact ⟨_, _, exec_of_ready (c := .wrreg) hr, exec_of_ready (c := .wrreg) hr, rfl⟩

/-! ## The dummy answer (R94, R100) -/

/-- The answers after the first do not depend on it. -/
theorem answerList_drop_one_cons (m : Nat) (s : State) (b b' : Byte) (rest : List Byte) :
    (State.answerList { s with answers := b :: rest } m).drop 1 =
      (State.answerList { s with answers := b' :: rest } m).drop 1 := by
  cases m with
  | zero => rfl
  | succ m =>
    rw [answerList_succ, answerList_succ]
    rfl

/-- A motion sample is decoded from the answers after the first (43_motion.md R100). -/
theorem motionParse_congr {inn inn' : List Byte} (h : inn.drop 1 = inn'.drop 1) :
    motionParse inn = motionParse inn' := by
  have hget : ∀ i, inn.getD (i + 1) 0#8 = inn'.getD (i + 1) 0#8 := fun i => by
    have htail := congrArg (fun l => l.getD i 0#8) h
    simpa [List.getD, Nat.add_comm] using htail
  simp only [motionParse, hget]

theorem commandBody_motion_mot (s : State) :
    (commandBody .motion (accepted .motion s)).mot = motionParse (s.answerList 5) := rfl

theorem commandBody_motion_mem (s : State) : (commandBody .motion (accepted .motion s)).mem = s.mem := rfl

theorem commandBody_rdreg_mot (s : State) : (commandBody .rdreg (accepted .rdreg s)).mot = s.mot := rfl

theorem commandBody_busRdata {c : Command} (hc : c ≠ .frame) (s : State) :
    (commandBody c (accepted c s)).busRdata = s.busRdata := by
  obtain ⟨rx, m, h⟩ := commandBody_commits hc (accepted c s)
  rw [h, commit_busRdata]
  rfl

/-- Of what a command of one transaction leaves the host, only its results depend on the sensor's answers. -/
theorem commandBody_sameVisible {c : Command} (hc : c ≠ .frame) (s : State) (as as' : List Byte)
    (hmot : (commandBody c (accepted c { s with answers := as' })).mot =
      (commandBody c (accepted c { s with answers := as })).mot)
    (hmem : (commandBody c (accepted c { s with answers := as' })).mem =
      (commandBody c (accepted c { s with answers := as })).mem) :
    SameVisible (commandBody c (accepted c { s with answers := as }))
      (commandBody c (accepted c { s with answers := as' })) := by
  obtain ⟨⟨h1, h2, h3, h4, h5, h6⟩, hhost, -, -, hstatus, -⟩ := commandBody_leaves hc { s with answers := as }
  obtain ⟨⟨k1, k2, k3, k4, k5, k6⟩, khost, -, -, kstatus, -⟩ := commandBody_leaves hc { s with answers := as' }
  have hrdata := commandBody_busRdata hc { s with answers := as }
  have krdata := commandBody_busRdata hc { s with answers := as' }
  exact ⟨⟨k1.trans h1.symm, k2.trans h2.symm, k3.trans h3.symm, k4.trans h4.symm, k5.trans h5.symm,
    k6.trans h6.symm⟩, kstatus.trans hstatus.symm, hmot, hmem,
    krdata.trans hrdata.symm, khost.trans hhost.symm⟩

/-- The dummy answer of an accepted `RDREG` shows nowhere to the host. -/
theorem rdreg_sameVisible (s : State) (b b' : Byte) (rest : List Byte) :
    SameVisible (commandBody .rdreg (accepted .rdreg { s with answers := b :: rest }))
      (commandBody .rdreg (accepted .rdreg { s with answers := b' :: rest })) := by
  apply commandBody_sameVisible (by decide)
  · rw [commandBody_rdreg_mot, commandBody_rdreg_mot]
  · rw [commandBody_rdreg_mem, commandBody_rdreg_mem, answerList_drop_one_cons _ s b' b rest]

/-- The dummy answer of an accepted `MOTION` shows nowhere to the host. -/
theorem motion_sameVisible (s : State) (b b' : Byte) (rest : List Byte) :
    SameVisible (commandBody .motion (accepted .motion { s with answers := b :: rest }))
      (commandBody .motion (accepted .motion { s with answers := b' :: rest })) := by
  apply commandBody_sameVisible (by decide)
  · rw [commandBody_motion_mot, commandBody_motion_mot]
    exact motionParse_congr (answerList_drop_one_cons 5 s b' b rest)
  · rw [commandBody_motion_mem, commandBody_motion_mem]

/-- Two runs of a command's word with different answers look alike to the host if they do once it is accepted. -/
theorem exec_sameVisible_of_accepted {c : Command} {s : State} (hs : s.seq = .idle) (as as' : List Byte)
    (h : SameVisible (commandBody c (accepted c { s with answers := as }))
      (commandBody c (accepted c { s with answers := as' }))) :
    ∃ t u, exec (commandInstr c) { s with answers := as } = .next t ∧
      exec (commandInstr c) { s with answers := as' } = .next u ∧ SameVisible t u := by
  rcases rejected_or_commandReady c hs with ⟨k, hk⟩ | hr
  · exact ⟨_, _, exec_of_rejected hs hk, exec_of_rejected hs hk,
      ⟨rfl, rfl, rfl, rfl, rfl, rfl⟩, rfl, rfl, rfl, rfl, rfl⟩
  · exact ⟨_, _, exec_of_ready hr, exec_of_ready hr, h⟩

/-- Settles O35: `RXBUF` holds the answers of the transaction's event from the second on; and neither command looks at
the first. -/
theorem dummyAnswerNeverReachesTheHost : Obligations.DummyAnswerNeverReachesTheHost := by
  refine ⟨fun s h => ?_, fun s b b' rest i hs hi => ?_⟩
  · obtain ⟨t, ht, hwire, hrx⟩ := exec_rdreg_reads h
    refine ⟨t, s.answerList (s.len.toNat + 1), ht, hwire, answerList_length s _, fun i hi => ?_⟩
    rw [answerList_getElem? s _ _ (by omega)]
    exact hrx i hi
  · have hboth : ∃ t u, exec i { s with answers := b :: rest } = .next t ∧
        exec i { s with answers := b' :: rest } = .next u ∧ SameVisible t u := by
      rcases hi with rfl | rfl
      · exact exec_sameVisible_of_accepted (c := .rdreg) hs _ _ (rdreg_sameVisible s b b' rest)
      · exact exec_sameVisible_of_accepted (c := .motion) hs _ _ (motion_sameVisible s b b' rest)
    obtain ⟨t, u, ht, hu, hcfg, hstatus, hmot, hmem, hrd, -⟩ := hboth
    exact ⟨t, u, ht, hu, hcfg, hstatus.symm, hmot.symm, hmem.symm, hrd.symm⟩

end Sys2Proof.Machine

/-! # Proofs of the statements of 43_motion.md

The delta conversion, the flags of a motion sample, what `MOTION` commits, and that `MOTION` and `FRAME` have no
operands. -/

namespace Sys2Proof.Machine

/-! ## The delta conversion (R98) -/

/-- The test of `Delta8` on bit 7 is the test of `Delta` on the value. -/
theorem getLsbD_seven_eq_decide (v : Byte) : v.getLsbD 7 = decide (128 ≤ v.toNat) :=
  v.msb_eq_getLsbD_last.symm.trans v.msb_eq_decide

theorem toNat_delta8 (v : Byte) :
    (delta8 v).toNat = if v.toNat < 128 then v.toNat else (v.toNat + 1) % 256 := by
  rw [delta8, getLsbD_seven_eq_decide]
  by_cases h : v.toNat < 128
  · rw [if_pos h, if_neg (by simpa using h)]
  · rw [if_neg h, if_pos (by simpa using h), BitVec.toNat_add]
    rfl

/-- The two's-complement value of a byte, by its unsigned value. -/
theorem toInt_byte (v : Byte) : v.toInt = if v.toNat < 128 then (v.toNat : Int) else (v.toNat : Int) - 256 := by
  rw [BitVec.toInt_eq_toNat_cond]
  split <;> split <;> omega

/-- Settles O37, on each side of 128: every value the rule speaks of is a number of `v`'s unsigned value. -/
theorem deltaIsTheMinus255Rule : Obligations.DeltaIsTheMinus255Rule := by
  intro v
  have hlt : v.toNat < 256 := v.isLt
  have hv := toInt_byte v
  have hd := toInt_byte (delta8 v)
  rw [toNat_delta8] at hd ⊢
  refine ⟨rfl, ?_⟩
  by_cases h : v.toNat < 128
  · simp only [delta, if_pos h] at hv hd ⊢
    exact ⟨by omega, by omega, by omega, by omega, hd, rfl⟩
  · simp only [delta, if_neg h] at hv hd ⊢
    refine ⟨by omega, by omega, by omega, by omega, ?_, rfl⟩
    rw [hd]
    split <;> omega

/-! ## The flags (R99) -/

/-- Settles O38: the flags are made of bits 7 and 4 alone. -/
theorem motionFlagsByTruthTable : Obligations.MotionFlagsByTruthTable := by
  intro s
  unfold motionFlags motionValid motionMot motionOvf
  cases s.getLsbD 7 <;> cases s.getLsbD 4 <;> rfl

/-- The three flags of a status byte, bit by bit. -/
theorem getLsbD_motionFlags (st : Byte) :
    (motionFlags st).getLsbD 0 = (st.getLsbD 7 && !st.getLsbD 4) ∧
      (motionFlags st).getLsbD 1 = st.getLsbD 4 ∧ (motionFlags st).getLsbD 2 = st.getLsbD 7 := by
  rw [motionFlagsByTruthTable st]
  cases st.getLsbD 7 <;> cases st.getLsbD 4 <;> decide

/-! ## `MOTION` (R100-R102) -/

/-- The sample of five answers: the first is the dummy answer. -/
theorem motionParse_answerList (s : State) :
    motionParse (s.answerList 5) = motionSample (s.answer 1) (s.answer 2) (s.answer 3) (s.answer 4) := rfl

/-- Settles O30: the events and what is left are those of every command of one transaction, the registers the sample of
its answers. -/
theorem motionCommitsAllSevenRegisters : Obligations.MotionCommitsAllSevenRegisters := by
  intro s h
  have hc : Command.motion ≠ .frame := by decide
  obtain ⟨hvalid, hovf, hmot⟩ := getLsbD_motionFlags (s.answer 1)
  refine ⟨commandBody .motion (accepted .motion s), exec_of_ready h, commandBody_events hc s, ?_⟩
  rw [commandBody_motion_mot, motionParse_answerList]
  exact ⟨rfl, rfl, rfl, rfl, rfl, rfl, hvalid, hovf, hmot, motionFlags_reserved _, fun _ => rfl, rfl,
    commandBody_leaves hc s⟩

/-! ## The commands without operands (R100, 44_frame.md R105) -/

/-- `s` with `a` in `ADDR` and `n` in `LEN`. -/
def withOperands (a : Byte) (n : BitVec 16) (s : State) : State := { s with addr := a, len := n }

/-- A command that has no operands is admitted or turned away whatever `ADDR` and `LEN` hold. -/
theorem admission_withOperands {c : Command} (hc : c = .motion ∨ c = .frame) (a : Byte) (n : BitVec 16) (s : State) :
    admission (opByte c) (withOperands a n s) = admission (opByte c) s := by
  rcases hc with rfl | rfl <;> rfl

/-- From its accept to its commit neither command reads or writes `ADDR` and `LEN`. -/
theorem commandBody_withOperands {c : Command} (hc : c = .motion ∨ c = .frame) (a : Byte) (n : BitVec 16)
    (s : State) : commandBody c (withOperands a n s) = withOperands a n (commandBody c s) := by
  rcases hc with rfl | rfl
  · rfl
  · simp only [commandBody, runFrame_eq]
    rfl

theorem exec_withOperands {c : Command} (hc : c = .motion ∨ c = .frame) {s t : State} (hs : s.seq = .idle)
    (he : exec (commandInstr c) s = .next t) (a : Byte) (n : BitVec 16) :
    exec (commandInstr c) (withOperands a n s) = .next (withOperands a n t) := by
  have hadm := admission_withOperands hc a n s
  rcases rejected_or_commandReady c hs with ⟨k, hk⟩ | hr
  · rw [exec_of_rejected hs hk] at he
    rw [exec_of_rejected (s := withOperands a n s) hs (hadm.trans hk), ← Host.Outcome.next.inj he]
    rfl
  · have hok := ((commandReady_iff c s).mp hr).2
    rw [exec_of_ready hr] at he
    have hready : CommandReady c (withOperands a n s) := (commandReady_iff c _).mpr ⟨hs, hadm.trans hok⟩
    rw [exec_of_ready hready, ← Host.Outcome.next.inj he]
    exact congrArg Host.Outcome.next (commandBody_withOperands hc a n (accepted c s))

/-- A command without operands leaves `ADDR` and `LEN`: with the values they have written over them it ends the same. -/
theorem exec_keeps_operands {c : Command} (hc : c = .motion ∨ c = .frame) {s t : State} (hs : s.seq = .idle)
    (he : exec (commandInstr c) s = .next t) : t.addr = s.addr ∧ t.len = s.len := by
  have hsame : t = withOperands s.addr s.len t :=
    Host.Outcome.next.inj (he.symm.trans (exec_withOperands hc hs he s.addr s.len))
  rw [hsame]
  exact ⟨rfl, rfl⟩

/-- Settles O34, for both commands alike: accepted or turned away, neither looks at its operands. -/
theorem motionAndFrameIgnoreAddrAndLen : Obligations.MotionAndFrameIgnoreAddrAndLen := by
  intro s t a n hs
  have key : ∀ c : Command, c = .motion ∨ c = .frame → exec (commandInstr c) s = .next t →
      t.addr = s.addr ∧ t.len = s.len ∧
        exec (commandInstr c) (withOperands a n s) = .next (withOperands a n t) := fun c hc he => by
    obtain ⟨haddr, hlen⟩ := exec_keeps_operands hc hs he
    exact ⟨haddr, hlen, exec_withOperands hc hs he a n⟩
  exact ⟨key .motion (.inl rfl), key .frame (.inr rfl)⟩

end Sys2Proof.Machine

/-! # Proofs of the statements of 44_frame.md

`FRAME` as a value: its history, its cells and what it leaves; the two methods; and `FRAME` edge by edge. -/

namespace Sys2Proof.Machine

/-! ## The history and the cells of `FRAME` (R105-R107) -/

theorem bulkFraming_eq (n : Nat) : bulkFraming n = (List.replicate n [0x13#8, 0xFF#8]).flatten := by
  induction n with
  | zero => rfl
  | succ n ih =>
    rw [bulkFraming, ih, List.replicate_succ, List.flatten_cons]
    rfl

/-- The answers of the bulk read are those after the two of the arm transaction. -/
theorem frameSettled_answerList (s : State) (m : Nat) :
    (frameSettled s).answerList m = (List.range m).map fun i => s.answer (2 + i) :=
  List.map_congr_left fun i _ => frameSettled_answer s i

/-- The answers of single-pixel read `k` are the two of pair `k` after those of the arm transaction. -/
theorem frameSettled_pixelTxns (s : State) (n : Nat) : (frameSettled s).pixelTxns n =
    (List.range n).map fun k => .txn [0x13#8, 0xFF#8] [s.answer (2 * k + 2), s.answer (2 * k + 3)] :=
  List.map_congr_left fun k _ => by
    rw [frameSettled_answer, frameSettled_answer, Nat.add_comm 2, show 2 + (2 * k + 1) = 2 * k + 3 by omega]
    rfl

/-- The reads of `FRAME`: one transaction of 1800 bytes or 900 of two (R106, R107). -/
def State.frameReads (s : State) : List Event :=
  if s.frameBulk then
    [Event.txn (List.replicate 900 [0x13#8, 0xFF#8]).flatten ((List.range 1800).map fun i => s.answer (2 + i))]
  else (List.range 900).map fun k => Event.txn [0x13#8, 0xFF#8] [s.answer (2 * k + 2), s.answer (2 * k + 3)]

/-- The history of `FRAME` from its accept to its commit (R105). -/
theorem runFrame_events (s : State) : (runFrame s).events = s.events ++
    [Event.txn [0x93#8, 0x83#8] (s.answerList 2)] ++ [Event.wait s.settle.toNat] ++ s.frameReads ++
      [Event.cmdDone .frame] := by
  have hn : Config.nPix = 900 := rfl
  have hsettled : (frameSettled s).events = s.events ++
      [Event.txn [0x93#8, 0x83#8] (s.answerList 2)] ++ [Event.wait s.settle.toNat] := rfl
  rw [runFrame_eq, commit_events, hsettled, hn, bulkFraming_eq, frameSettled_answerList, frameSettled_pixelTxns,
    State.frameReads]

theorem runFrame_mem (s : State) :
    (runFrame s).mem = Memory.writeBlock s.mem frameBase ((frameSettled s).pixels Config.nPix) := by
  obtain ⟨-, -, -, hmem, -⟩ := frameSettled_sameVisible s
  rw [runFrame_eq, commit_mem, publish_frame_mem, ← hmem, dropAnswers_mem]

theorem pixels_getElem? {s : State} {n k : Nat} (h : k < n) :
    (s.pixels n)[k]? = some (pixel (s.answer (2 * k + 1))) := by
  simp [State.pixels, h]

/-- Cell `k` is the masked answer to the fill byte of pair `k`. -/
theorem lookup_runFrame_cell (s : State) {k : Nat} (h : k < Config.nPix) :
    Memory.lookup (runFrame s).mem (frameBase + k) = some (pixel (s.answer (2 * k + 3))) := by
  rw [runFrame_mem, lookup_writeBlock, pixels_length, if_pos (by omega), Nat.add_sub_cancel_left, pixels_getElem? h,
    frameSettled_answer, show 2 + (2 * k + 1) = 2 * k + 3 by omega]

theorem runFrame_sameBuffersExcept (s : State) : SameBuffersExcept frameBase Config.nPix s (runFrame s) := by
  intro a ha
  rw [runFrame_mem]
  exact lookup_writeBlock_outside (by rwa [pixels_length])

/-! ## What `FRAME` leaves (R105) -/

/-- The answers left after those of the arm transaction and of the 900 pairs. -/
theorem runFrame_inputs (s : State) : (runFrame s).answers = (dropAnswers 1802 s).answers ∧
    (runFrame s).sensorDraws = (dropAnswers 1802 s).sensorDraws := by
  have hn : 1802 = 2 + 2 * Config.nPix := rfl
  rw [runFrame_eq, commit_answers, commit_sensorDraws, hn, ← dropAnswers_dropAnswers]
  exact ⟨rfl, rfl⟩

theorem runFrame_mot (s : State) : (runFrame s).mot = s.mot := by
  obtain ⟨-, -, hmot, -⟩ := frameSettled_sameVisible s
  rw [runFrame_eq, commit_mot, publish_frame_mot, ← hmot, dropAnswers_mot]

theorem runFrame_draws (s : State) : (runFrame s).draws = s.draws := by
  have hdraws : (frameSettled s).draws = s.draws := by simp [frameSettled]
  rw [runFrame_eq, commit_draws, ← hdraws, dropAnswers_draws]

theorem runFrame_leaves (s : State) : CommandLeaves 1802 s (runFrame (accepted .frame s)) := by
  obtain ⟨hanswers, hdraws⟩ := runFrame_inputs (accepted .frame s)
  obtain ⟨n, px, ev, -, -, h⟩ := runFrame_commits (accepted .frame s)
  refine ⟨?_, ?_, hanswers, hdraws, ?_⟩
  all_goals rw [h]
  · exact ⟨commit_ctrl _ _, commit_addr _ _, commit_len _ _, commit_clkdiv _ _, commit_gap _ _, commit_settle _ _⟩
  · exact commit_host _ _
  · exact ⟨(commit_status _ _).trans (statusCommit_statusAccept _), commit_seq _ _, commit_sclk _ _,
      commit_mosi _ _, commit_ncs _ _⟩

/-- Settles O31, part by part from the state `FRAME` commits by either method. -/
theorem frameReassemblesAllPixels : Obligations.FrameReassemblesAllPixels := by
  intro s h
  refine ⟨runFrame (accepted .frame s), exec_of_ready h, ?_, fun k hk => lookup_runFrame_cell (accepted .frame s) hk,
    runFrame_sameBuffersExcept (accepted .frame s), runFrame_mot _, runFrame_draws _, runFrame_leaves s⟩
  have haccepted : (accepted .frame s).events = s.events ++
      [Event.busWr 0x002#12 0x05#8] ++ [Event.cmdAccept .frame] := by
    simp [accepted, cmdAddr, opByte]
  rw [runFrame_events, haccepted]
  simp only [List.append_assoc]
  rfl

/-- Settles O32: the pixel number of a cell gives back its row and column. -/
theorem frameIsRowMajor : Obligations.FrameIsRowMajor := by
  intro s h
  obtain ⟨t, ht, -, hcells, -⟩ := frameReassemblesAllPixels s h
  refine ⟨t, ht, fun r c hr hc => ⟨?_, ?_, hcells (30 * r + c) (by omega)⟩⟩
  · unfold pixelRow Config.frameW
    omega
  · unfold pixelColumn Config.frameW
    omega

/-! ## The two methods (R108) -/

/-- Of `CTRL`, the accept of `FRAME` looks at `EN` alone. -/
theorem commandReady_frame_withCtrl {s : State} (h : CommandReady .frame s) {w : Byte}
    (hw : w.getLsbD 0 = s.ctrl.getLsbD 0) : CommandReady .frame { s with ctrl := w } := by
  obtain ⟨hseq, hbusy, hen, -⟩ := h
  exact ⟨hseq, hbusy, hw.trans hen, trivial⟩

/-- Two states with the same frame whose other buffer bytes are those of `s` have the same buffers. -/
theorem sameBuffers_of_frameCells {s t u : State} {px : Nat → Byte}
    (ht : ∀ k, k < 900 → Memory.lookup t.mem (0x400 + k) = some (px k))
    (hu : ∀ k, k < 900 → Memory.lookup u.mem (0x400 + k) = some (px k))
    (hts : SameBuffersExcept 0x400 900 s t) (hus : SameBuffersExcept 0x400 900 s u) : SameBuffers u t := by
  intro a
  by_cases ha : 0x400 ≤ a ∧ a < 0x400 + 900
  · obtain ⟨k, rfl⟩ := Nat.exists_eq_add_of_le ha.1
    rw [ht k (by omega), hu k (by omega)]
  · rw [hts a ha, hus a ha]

/-- Settles O33: what `FRAME` leaves of cells, other buffer bytes and registers does not name its method. -/
theorem frameMethodsAgree : Obligations.FrameMethodsAgree := by
  intro s h
  have hsingle : CommandReady .frame { s with ctrl := s.ctrl &&& 0xDF#8 } := commandReady_frame_withCtrl h (by simp)
  have hbulk : CommandReady .frame { s with ctrl := s.ctrl ||| 0x20#8 } := commandReady_frame_withCtrl h (by simp)
  obtain ⟨t, ht, -, htcell, hts, htmot, -, -, -, htanswers, -, htstatus, -⟩ := frameReassemblesAllPixels _ hsingle
  obtain ⟨u, hu, -, hucell, hus, humot, -, -, -, huanswers, -, hustatus, -⟩ := frameReassemblesAllPixels _ hbulk
  exact ⟨t, u, ht, hu, fun k hk => ⟨htcell k hk, hucell k hk⟩,
    sameBuffers_of_frameCells (s := s) htcell hucell hts hus, htmot.trans humot.symm, htstatus.trans hustatus.symm,
    htanswers.trans huanswers.symm⟩

/-! ## `FRAME` edge by edge (R105-R107, R111) -/

theorem spiTxn_frameBulk (out : List Byte) (s : State) : (spiTxn out s).2.frameBulk = s.frameBulk := rfl

theorem frameBulk_of_sameConfig {s t : State} (h : SameConfig s t) : t.frameBulk = s.frameBulk := by
  obtain ⟨hctrl, -⟩ := h
  rw [State.frameBulk, State.frameBulk, hctrl]

theorem txnCycles_of_sameConfig {s t : State} (h : SameConfig s t) (m : Nat) : t.txnCycles m = s.txnCycles m := by
  obtain ⟨-, -, -, hclkdiv, hgap, -⟩ := h
  rw [State.txnCycles, State.txnCycles, State.halfPeriod, State.halfPeriod, hclkdiv, hgap]

/-- A transaction whose bytes take no draw, edge by edge (41_spi_transceiver.md R79, R84). -/
theorem ticks_txn_of_bytes {c : Command} {t : Txn} {s : State} {out : List Byte}
    (h : txnBytes c t s = (out, s.draws)) (hne : out ≠ []) : ticks (s.txnCycles out.length) (beginTxn c t s) =
      afterTxn c t (spiTxn out s).1 { (spiTxn out s).2 with seq := .run c (.txn t .highSecond) } := by
  have htxn := ticks_txn c t s (by rw [h]; exact hne)
  rw [h] at htxn
  exact htxn

/-- The arm transaction and the settle wait (R105). -/
theorem ticks_toReads (s : State) : ticks (s.txnCycles 2 + s.settle.toNat) (beginTxn .frame .arm s) =
    beginTxn .frame (.read 0) (frameSettled s) := by
  have harm := ticks_txn_of_bytes (c := .frame) (t := .arm) (s := s) rfl (List.cons_ne_nil _ _)
  have hsettle := ticks_beginSettle .frame
    { (spiTxn (writeFraming Config.frameCapture [Config.frameArm]) s).2 with
      seq := .run .frame (.txn .arm .highSecond) }
  rw [ticks_add]
  exact (congrArg (ticks s.settle.toNat) harm).trans (hsettle.trans (endSettle_seq_eng_irrel .frame _ _ _))

/-- The bulk read is followed by the commit of its pixels (R107). -/
theorem afterTxn_bulkRead (k : Nat) (inn : List Byte) {s : State} (hb : s.frameBulk = true) (q : Seq) :
    afterTxn .frame (.read k) inn { s with seq := q } = commit .frame { s with frameSh := bulkPixels inn } :=
  (if_pos hb).trans (commit_seq_irrel .frame { s with frameSh := bulkPixels inn } q)

/-- The bulk read (R107). -/
theorem ticks_bulkRead {s : State} (hb : s.frameBulk = true) :
    ticks (s.txnCycles (2 * Config.nPix)) (beginTxn .frame (.read 0) s) = commit .frame (frameBulkRead s) := by
  have hbytes : txnBytes .frame (.read 0) s = (bulkFraming Config.nPix, s.draws) := by simp [txnBytes, hb]
  have hbulk := (spiTxn_frameBulk (bulkFraming Config.nPix) s).trans hb
  have hne : bulkFraming Config.nPix ≠ [] := List.ne_nil_of_length_pos (by simp [bulkFraming_length, Config.nPix])
  rw [← bulkFraming_length, ticks_txn_of_bytes hbytes hne, afterTxn_bulkRead _ _ hbulk, frameBulkRead]

/-- `FRAME` is its reads by either method, from the end of its settle wait, and its commit (R105). -/
theorem runFrame_eq_reads (s : State) : runFrame s = commit .frame
    (if (frameSettled s).frameBulk then frameBulkRead (frameSettled s)
      else frameSingle Config.nPix 0 (frameSettled s)) := by
  simp only [runFrame, spiTxn_settle]
  rfl

/-- `FRAME` from the edge that starts it: the cycles of R111. -/
theorem ticks_frame (s : State) : ticks (s.commandCycles .frame) (beginTxn .frame .arm s) = runFrame s := by
  obtain ⟨hcfg, -⟩ := frameSettled_sameVisible s
  rw [State.commandCycles, ticks_add, ticks_toReads, runFrame_eq_reads, ← frameBulk_of_sameConfig hcfg,
    ← txnCycles_of_sameConfig hcfg, ← txnCycles_of_sameConfig hcfg]
  cases hb : (frameSettled s).frameBulk with
  | true =>
    rw [if_pos rfl, if_pos rfl]
    exact ticks_bulkRead hb
  | false =>
    rw [if_neg Bool.false_ne_true, if_neg Bool.false_ne_true]
    exact ticks_reads 899 0 (frameSettled s) rfl hb

/-- Settles O40: both sides start from the state the accept leaves. -/
theorem frameIsItsCyclesOnTheWire : Obligations.FrameIsItsCyclesOnTheWire := by
  intro s s₁ h he
  cases (exec_cmdWrite_of_ready h).symm.trans he
  have hstart : ticks 1 (accepted .frame s) = beginTxn .frame .arm (accepted .frame s) := rfl
  change exec .frame s = .next (ticks (1 + s.commandCycles .frame) (accepted .frame s))
  rw [ticks_add, hstart, ← accepted_commandCycles, ticks_frame]
  exact exec_of_ready h

end Sys2Proof.Machine

/-! # Proofs of the statements of 60_exceptions.md

The `CMD` write accepted or rejected, the bits of `STATUS` that stay, and the commit a running command comes to. -/

namespace Sys2Proof.Machine

/-! ## A rejected `CMD` write (R112, R114) -/

theorem admission_busy {s : State} (hb : s.busy = true) (d : Byte) : admission d s = .error .busy := by
  simp [admission, hb]

theorem admission_disabled {s : State} (hb : s.busy = false) (he : s.en = false) (d : Byte) :
    admission d s = .error .disabled := by
  simp [admission, hb, he]

/-- A byte outside 0x01 to 0x05 names no command (30_encoding.md R61). -/
theorem admission_illegal {s : State} (hb : s.busy = false) (he : s.en = true) {d : Byte}
    (hd : ¬(1 ≤ d.toNat ∧ d.toNat ≤ 5)) : admission d s = .error .illegal := by
  have hnone : commandOf d = none := by
    cases hc : commandOf d with
    | none => rfl
    | some c => exact absurd ((exists_opByte_iff d).mp ⟨c, commandOf_some hc⟩) hd
  simp [admission, hb, he, hnone]

theorem admission_arg {s : State} (hb : s.busy = false) (he : s.en = true) {c : Command}
    (ha : argsOk c s = false) : admission (opByte c) s = .error .arg := by
  simp [admission, hb, he, commandOf_opByte, ha]

/-- With the sequencer IDLE a rejected `CMD` write sets its error bit and no more. -/
theorem exec_cmdWrite_of_rejected {s : State} (hs : s.seq = .idle) {d : Byte} {k : ErrKind}
    (h : admission d s = .error k) : exec (.busWr 0x002#12 d) s = .next { s with
      status := statusReject s.status k, events := s.events ++ [.busWr 0x002#12 d, .cmdReject d k] } := by
  rw [exec_busWr_idle hs]
  change Host.Outcome.next (accept d _) = _
  rw [accept, admission_record, h]
  simp [rejectCommand, record]

/-- Settles O20: each clause is the rejection for the reason its hypotheses give, and a command in progress goes on. -/
theorem rejectedCmdWriteSetsOneErrorBit : Obligations.RejectedCmdWriteSetsOneErrorBit := by
  intro s d
  refine ⟨fun hb => exec_cmdWrite_busy hb d,
    fun hs hb he => exec_cmdWrite_of_rejected hs (admission_disabled hb he d),
    fun hs hb he hd => exec_cmdWrite_of_rejected hs (admission_illegal hb he hd), fun hs hb he hbad => ?_⟩
  obtain ⟨c, rfl, hargs⟩ : ∃ c, d = opByte c ∧ argsOk c s = false := by
    have hlenOk : ¬(1 ≤ s.len.toNat ∧ s.len.toNat ≤ 256) → lenOk s = false := fun hlen =>
      Bool.eq_false_iff.mpr fun h => hlen ((lenOk_iff s).mp h)
    rcases hbad with ⟨rfl | rfl | rfl, hlen⟩ | ⟨rfl, haddr⟩
    · exact ⟨.xfer, rfl, hlenOk hlen⟩
    · exact ⟨.rdreg, rfl, by simp [argsOk, hlenOk hlen]⟩
    · exact ⟨.wrreg, rfl, hlenOk hlen⟩
    · exact ⟨.rdreg, rfl, by simp [argsOk, haddr]⟩
  exact exec_cmdWrite_of_rejected hs (admission_arg hb he hargs)

/-! ## An accepted `CMD` write (R112) -/

theorem statusAccept_eq (st : Byte) : statusAccept st = (st ||| 0x01#8) &&& 0xBD#8 := by
  revert st; decide

theorem accepted_eq (c : Command) (s : State) : accepted c s = { s with
    status := (s.status ||| 0x01#8) &&& 0xBD#8, seq := .run c .start
    events := s.events ++ [.busWr 0x002#12 (opByte c), .cmdAccept c] } := by
  simp [accepted, startCommand, record, statusAccept_eq, cmdAddr]

/-- The edge after the accept starts the command's first transaction. -/
theorem idleCycle_accepted (c : Command) (s : State) :
    idleCycle (accepted c s) = beginTxn c (firstTxn c) (accepted c s) := by
  rw [idleCycle_eq_tick]
  rfl

/-- Settles O21: the cycle leaves the accepted command, whose next edge starts its first transaction. -/
theorem acceptedCmdWriteStartsTheCommand : Obligations.AcceptedCmdWriteStartsTheCommand := by
  intro s c h
  refine ⟨accepted c s, firstTxn c, exec_cmdWrite_of_ready h, accepted_eq c s, ?_⟩
  rw [idleCycle_accepted]
  exact ⟨rfl, rfl⟩

/-! ## A command that is turned away (R112) -/

/-- Outside the states no run reaches, a command that is not ready is not admitted. -/
theorem admission_of_not_ready {c : Command} {s : State} (hor : s.seq = .idle ∨ s.busy = true)
    (h : ¬CommandReady c s) : ∃ k, admission (opByte c) s = .error k := by
  rcases hor with hs | hb
  · exact (rejected_or_commandReady c hs).resolve_right h
  · exact ⟨.busy, admission_busy hb _⟩

/-- Settles O22: a command that is not admitted is its `CMD` write by definition. -/
theorem turnedAwayCommandIsItsCmdWrite : Obligations.TurnedAwayCommandIsItsCmdWrite := by
  intro s c hor h
  obtain ⟨k, hk⟩ := admission_of_not_ready hor h
  rw [exec_commandInstr, commandRun_error hk]
  rfl

/-! ## The bits of `STATUS` that stay (R116) -/

/-- Bit `j` of `STATUS` is 1 in `t` if it is in `s`. -/
def KeepsBit (j : Nat) (s t : State) : Prop := s.status.getLsbD j = true → t.status.getLsbD j = true

theorem KeepsBit.of_status {j : Nat} {s t : State} (h : t.status = s.status) : KeepsBit j s t := fun hj => h ▸ hj

theorem KeepsBit.trans {j : Nat} {s t u : State} (h : KeepsBit j s t) (k : KeepsBit j t u) : KeepsBit j s u :=
  fun hj => k (h hj)

section
variable {j : Nat} (hj : 2 ≤ j)
include hj

theorem getLsbD_statusCommit_of_two_le (st : Byte) : (statusCommit st).getLsbD j = st.getLsbD j := by
  rw [getLsbD_statusCommit, if_neg (by omega), if_neg (by omega)]

theorem abort_keepsBit (s : State) : KeepsBit j s (abort s) := by
  intro h
  rw [abort_status, getLsbD_statusAbort, if_neg (by omega), h, ite_self]

/-- An edge of the sequencer sets `DONE` and clears `BUSY` at most. -/
theorem tick_keepsBit (s : State) : KeepsBit j s (tick s) := by
  intro h
  rw [tick_status]
  split
  · rwa [getLsbD_statusCommit_of_two_le hj]
  · exact h

theorem hostCycle_keepsBit {f : State → State} {s : State} (h : KeepsBit j s (f s)) :
    KeepsBit j s (hostCycle f s) := by
  unfold hostCycle
  split
  · exact h
  · exact h.trans (tick_keepsBit hj _)

theorem commandBody_keepsBit (c : Command) (s : State) : KeepsBit j s (commandBody c s) := by
  obtain ⟨u, ⟨-, hst, -⟩, hu⟩ := commandBody_ends c s
  intro h
  rwa [hu, commit_status, getLsbD_statusCommit_of_two_le hj, hst]

/-- A `CMD` write sets one error bit, or is an accept, which of the bits from 2 on clears `ABORTED` only. -/
theorem accept_keepsBit {d : Byte} {s : State} (hacc : j = 6 → ∀ c, admission d s ≠ .ok c) :
    KeepsBit j s (accept d s) := by
  intro h
  unfold accept
  split
  · rw [rejectCommand_status, getLsbD_statusReject, h, Bool.true_or]
  · rename_i c hc
    have h6 : j ≠ 6 := fun h6 => hacc h6 c hc
    rw [startCommand_status, getLsbD_statusAccept, if_neg (by omega), if_neg (by omega), h]

omit hj in
theorem storeIdle_keepsBit {f : State → State} {s : State} (hf : (f s).status = s.status) :
    KeepsBit j s (storeIdle f s) := by
  unfold storeIdle
  split
  · exact id
  · exact .of_status hf

/-- A host write keeps a bit unless it is a write of 1 to that bit of `STATUS`, or for `ABORTED` an accept. -/
theorem regionWrite_keepsBit {r : Region} {d : Byte} {s : State} (hw1c : r = .status → d.getLsbD j = false)
    (hacc : r = .cmd → j = 6 → ∀ c, admission d s ≠ .ok c) : KeepsBit j s (regionWrite r d s) := by
  cases r with
  | ctrl =>
    change KeepsBit j s (ctrlWrite d s)
    unfold ctrlWrite
    split
    · split
      · exact id
      · exact abort_keepsBit hj s
    · exact .of_status rfl
  | status =>
    intro h
    change (statusW1c s.status d).getLsbD j = true
    rw [getLsbD_statusW1c, h, hw1c rfl, Bool.and_false]
    rfl
  | cmd => exact accept_keepsBit hj (hacc rfl)
  | addr => exact storeIdle_keepsBit (by rfl)
  | len i => exact storeIdle_keepsBit (by rfl)
  | clkdiv i => exact storeIdle_keepsBit (by rfl)
  | gap i => exact storeIdle_keepsBit (by rfl)
  | settle i => exact storeIdle_keepsBit (by rfl)
  | txbuf i => exact storeIdle_keepsBit (by rfl)
  | motion i => exact id
  | rxbuf i => exact id
  | frame k => exact id
  | reserved => exact id

omit hj in
/-- `CMD` is at one address. -/
theorem regionAt_cmd {a : Nat} (h : regionAt a = .cmd) : a = 2 := by
  rcases regionAt_cases a with ⟨-, e⟩ | ⟨-, e⟩ | ⟨h2, -⟩ | ⟨-, e⟩ | ⟨-, e⟩ | ⟨-, e⟩ | ⟨-, e⟩ | ⟨-, e⟩ | ⟨-, e⟩ |
    ⟨-, e⟩ | ⟨-, e⟩ | ⟨-, e⟩ | ⟨-, e⟩
  case inr.inr.inl => exact h2
  all_goals
    rw [e] at h
    cases h

theorem busWrite_keepsBit {a : HostAddr} {d : Byte} {s : State} (hw1c : a = 0x001#12 → d.getLsbD j = false)
    (hacc : a = 0x002#12 → j = 6 → ∀ c, admission d s ≠ .ok c) : KeepsBit j s (busWrite a d s) :=
  regionWrite_keepsBit hj (s := record (.busWr a d) s)
    (fun hr => hw1c (BitVec.eq_of_toNat_eq (regionAt_status hr)))
    (fun hr => hacc (BitVec.eq_of_toNat_eq (regionAt_cmd hr)))

/-- A command's word sets one error bit, or runs the command, whose accept clears `ABORTED`. -/
theorem commandRun_keepsBit {c : Command} {s : State} (hacc : j = 6 → ∀ c', admission (opByte c) s ≠ .ok c') :
    KeepsBit j s (commandRun (opByte c) (commandBody c) s) := by
  have hwrite : KeepsBit j s (hostCycle (busWrite cmdAddr (opByte c)) s) :=
    hostCycle_keepsBit hj (busWrite_keepsBit hj (fun h => absurd h (by decide)) fun _ => hacc)
  unfold commandRun
  split
  · exact hwrite
  · exact hwrite.trans (commandBody_keepsBit hj c _)

theorem exec_keepsBit {i : Instr} {s t : State} (he : exec i s = .next t)
    (hw1c : ∀ d, i = .busWr 0x001#12 d → d.getLsbD j = false)
    (hacc : j = 6 → ∀ c, admission (opByte c) s = .ok c → i ≠ commandInstr c ∧ i ≠ .busWr 0x002#12 (opByte c)) :
    KeepsBit j s t := by
  have hcmd : ∀ c, i = commandInstr c → KeepsBit j s t := by
    rintro c rfl
    rw [exec_commandInstr] at he
    cases he
    refine commandRun_keepsBit hj fun h6 c' hc' => ?_
    cases admission_opByte hc'
    exact (hacc h6 c hc').1 rfl
  cases i with
  | busRd a =>
    cases he
    exact hostCycle_keepsBit hj (.of_status (by rw [busRead_eq]))
  | busWr a d =>
    cases he
    refine hostCycle_keepsBit hj (busWrite_keepsBit hj (fun ha => hw1c d (by rw [ha])) fun ha h6 c hc => ?_)
    obtain ⟨-, -, hd, -⟩ := (admission_ok_iff d c s).mp hc
    subst ha hd
    exact (hacc h6 c hc).2 rfl
  | xfer => exact hcmd .xfer rfl
  | rdreg => exact hcmd .rdreg rfl
  | wrreg => exact hcmd .wrreg rfl
  | motion => exact hcmd .motion rfl
  | frame => exact hcmd .frame rfl

theorem idleCycle_keepsBit (s : State) : KeepsBit j s (idleCycle s) := hostCycle_keepsBit hj id

end

/-- Settles O23: the bits 2 to 5 are none that an accept clears. -/
theorem errorBitsAreSticky : Obligations.ErrorBitsAreSticky :=
  ⟨fun _ _ _ _ he h2 h5 hbit hw1c => exec_keepsBit h2 he hw1c (fun h6 => by omega) hbit,
    fun s _ h2 _ hbit => idleCycle_keepsBit h2 s hbit⟩

/-- Settles O24: in these states a command that is admitted is ready. -/
theorem abortedIsSticky : Obligations.AbortedIsSticky := by
  refine ⟨fun i s t hor he hbit hw1c hready => ?_, fun s hbit => idleCycle_keepsBit (by decide) s hbit⟩
  refine exec_keepsBit (by decide) he hw1c (fun _ c hc => hready c ((commandReady_iff c s).mpr ⟨?_, hc⟩)) hbit
  obtain ⟨hb, -⟩ := (admission_ok_iff _ c s).mp hc
  exact hor.resolve_right (by simp [hb])

/-! ## The end of a running command (R117) -/

/-- The order in which an edge leaves less of a running command. -/
theorem left_wf : WellFounded fun t s : State => LeftLt t.left s.left := InvImage.wf State.left leftLt_wf

/-- An edge of a running command is its commit, or leaves less of it with nothing visible changed. -/
theorem tick_running {s : State} {c : Command} {ph : Phase} (h : Inv s) (hs : s.seq = .run c ph) :
    Ends c s (tick s) ∨ (Goes c s (tick s) ∧ LeftLt (tick s).left s.left) := by
  rcases tick_visible s with ⟨hidle, -⟩ | ⟨c', ph', hs', hgoes | hends⟩
  · rw [hs] at hidle
    cases hidle
  · cases hs.symm.trans hs'
    obtain ⟨ph', hph'⟩ := hgoes.2
    exact .inr ⟨hgoes, (tick_left h (by simp [hs])).resolve_left (by simp [hph'])⟩
  · cases hs.symm.trans hs'
    exact .inl hends

/-- Without host accesses a running command reaches its commit. -/
theorem ticks_reach_commit {s : State} (h : Inv s) (hs : s.seq ≠ .idle) :
    ∃ k, (ticks k s).seq = .idle ∧ (ticks k s).status = statusCommit s.status := by
  induction s using left_wf.induction with | _ s ih
  by_cases hend : (tick s).seq = .idle
  · exact ⟨1, hend, by rw [ticks, ticks, tick_status, if_pos ⟨hs, hend⟩]⟩
  · obtain ⟨k, hseq, hstatus⟩ := ih (tick s) ((tick_left h hs).resolve_left hend) (tick_inv h) hend
    refine ⟨k + 1, hseq, ?_⟩
    rw [ticks, hstatus, tick_status, if_neg fun hand => hend hand.2]

/-! ## Host accesses that leave a running command alone (R117) -/

/-- An access in a cycle of a running command that leaves the command to the sequencer's edge. -/
structure LeavesCommand (s u : State) : Prop where
  inv : Inv u
  seq : u.seq = s.seq
  eng : u.eng = s.eng
  aborted : u.aborted = true → s.aborted = true

theorem LeavesCommand.left {s u : State} (h : LeavesCommand s u) : u.left = s.left := by
  rw [State.left, State.left, h.seq, h.eng]

theorem leavesCommand_refl {s : State} (h : Inv s) : LeavesCommand s s := ⟨h, rfl, rfl, id⟩

theorem busRead_leavesCommand {s : State} (h : Inv s) (a : HostAddr) : LeavesCommand s (busRead a s) := by
  have hinv := busRead_inv a h
  rw [busRead_eq] at hinv ⊢
  exact ⟨hinv, rfl, rfl, id⟩

/-- While `BUSY` = 1 a host write that is no abort touches `STATUS` and the history alone and sets no `ABORTED`. -/
theorem busWrite_open {s : State} (hb : s.busy = true) {a : HostAddr} {d : Byte}
    (hopen : a = 0x000#12 → d.getLsbD 0 = true) : ∃ st ev, busWrite a d s = { s with status := st, events := ev } ∧
      (st.getLsbD 6 = true → s.status.getLsbD 6 = true) := by
  have hb' : (record (.busWr a d) s).busy = true := hb
  by_cases h3 : 3 ≤ a.toNat
  · exact ⟨s.status, _, busWrite_busy hb a d h3, id⟩
  obtain rfl | rfl | rfl : a = 0x000#12 ∨ a = 0x001#12 ∨ a = 0x002#12 := by bv_omega
  · have hnone : ctrlWrite d (record (.busWr 0x000#12 d) s) = record (.busWr 0x000#12 d) s := by
      rw [ctrlWrite, if_pos hb', if_pos (hopen rfl)]
    exact ⟨s.status, _, hnone, id⟩
  · refine ⟨statusW1c s.status d, _, rfl, fun h => ?_⟩
    rw [getLsbD_statusW1c, Bool.and_eq_true] at h
    exact h.1
  · exact ⟨_, _, busWrite_cmd_busy hb d, by simp⟩

theorem busWrite_leavesCommand {s : State} (h : Inv s) (hb : s.busy = true) {a : HostAddr} {d : Byte}
    (hopen : a = 0x000#12 → d.getLsbD 0 = true) : LeavesCommand s (busWrite a d s) := by
  have hinv := busWrite_inv a d h
  obtain ⟨st, ev, hw, haborted⟩ := busWrite_open hb hopen
  rw [hw] at hinv ⊢
  exact ⟨hinv, rfl, rfl, haborted⟩

/-- `o` is an edge of the sequencer after an access that leaves the running command alone, with the host's items to
come `items`. -/
def EdgeOfCommand (s : State) (items : List HostItem) (o : Host.Outcome State Fault Refusal) : Prop :=
  ∃ u, LeavesCommand s u ∧ o = .next { tick u with host := items }

section
variable {s : State} (h : Inv s) (hs : s.seq ≠ .idle)
include h hs

theorem Inv.busy_of_running : s.busy = true := h.busyIff.mpr hs

omit h in
theorem hostCycle_edgeOfCommand {f : State → State} (hf : LeavesCommand s (f s)) (hhost : (f s).host = s.host) :
    EdgeOfCommand s s.host (.next (hostCycle f s)) := by
  refine ⟨f s, hf, ?_⟩
  rw [hostCycle_run hs, ← hhost, ← tick_host]

theorem execBusRd_edgeOfCommand (a : HostAddr) : EdgeOfCommand s s.host (exec (.busRd a) s) :=
  hostCycle_edgeOfCommand hs (busRead_leavesCommand h a) (busRead_host a s)

theorem execBusWr_edgeOfCommand {a : HostAddr} {d : Byte} (hopen : a = 0x000#12 → d.getLsbD 0 = true) :
    EdgeOfCommand s s.host (exec (.busWr a d) s) := by
  have hb := h.busy_of_running hs
  obtain ⟨st, ev, hw, -⟩ := busWrite_open hb hopen
  exact hostCycle_edgeOfCommand hs (busWrite_leavesCommand h hb hopen) (by rw [hw])

theorem idleCycle_edgeOfCommand : EdgeOfCommand s s.host (.next (idleCycle s)) :=
  hostCycle_edgeOfCommand hs (leavesCommand_refl h) rfl

/-- A pass of `poll` reads `BUSY` = 1 and leaves the loop where it was. -/
theorem pollCycle_edgeOfCommand : EdgeOfCommand s (.poll :: s.host) (pollCycle s) := by
  refine ⟨busRead statusAddr s, busRead_leavesCommand h _, ?_⟩
  rw [pollCycle_eq, h.busy_of_running hs, if_pos rfl, hostCycle_run hs]

theorem portCycle_edgeOfCommand {p : PortCycle} (hp : keepsCommand (.ports p) = true) :
    EdgeOfCommand s s.host (portCycle p s) := by
  simp only [keepsCommand, HostItem.wellFormed, PortCycle.wellFormed, Bool.and_eq_true, Bool.not_eq_true'] at hp
  obtain ⟨hstrobes, hrst, hopen⟩ := hp
  rw [portCycle, hstrobes, hrst, if_neg Bool.false_ne_true, if_neg (by decide)]
  split
  · exact execBusRd_edgeOfCommand h hs p.addr
  split
  · exact execBusWr_edgeOfCommand h hs (by simpa [*, imp_iff_not_or] using hopen)
  · exact idleCycle_edgeOfCommand h hs

/-- While `BUSY` = 1 a `CMD8` word, of a command or of none, is the host write of its byte to `CMD`. -/
theorem cmd8_edgeOfCommand (d : Byte) : EdgeOfCommand s s.host (runItem (.word (.cmd8 d)) s) := by
  have hcmd : runItem (.word (.cmd8 d)) s = exec (.busWr 0x002#12 d) s := by
    have hb := h.busy_of_running hs
    cases hc : commandOf d with
    | none =>
      have hd : decode (.cmd8 d) = .error .illegalCommand := by simp [decode, decodeCommand, hc]
      exact runItem_word_error hd s
    | some c =>
      obtain rfl := commandOf_some hc
      have hd : decode (.cmd8 (opByte c)) = .ok (commandInstr c) := decodeCommand_opByte c
      rw [runItem_word_ok hd]
      exact turnedAwayCommandIsItsCmdWrite s c (.inr hb) fun ⟨_, hidle, _⟩ => by simp [hb] at hidle
  rw [hcmd]
  exact execBusWr_edgeOfCommand h hs (fun h0 => absurd h0 (by decide))

theorem busop24_edgeOfCommand {w : BitVec 24} (hw : keepsCommand (.word (.busop24 w)) = true) :
    EdgeOfCommand s s.host (runItem (.word (.busop24 w)) s) := by
  simp only [keepsCommand, HostItem.wellFormed, Bool.and_eq_true, busop24_wellFormed_iff] at hw
  obtain ⟨⟨hz, hd⟩, hopen⟩ := hw
  cases hwr : busopW w with
  | true =>
    have hdec : decode (.busop24 w) = .ok (.busWr (busopA w) (busopD w)) := by simp [decode, decodeBusop, hz, hwr]
    rw [runItem_word_ok hdec]
    exact execBusWr_edgeOfCommand h hs (by simpa [hwr, imp_iff_not_or] using hopen)
  | false =>
    have hdec : decode (.busop24 w) = .ok (.busRd (busopA w)) := by
      simp [decode, decodeBusop, hz, hwr, hd.resolve_left (by simp [hwr])]
    rw [runItem_word_ok hdec]
    exact execBusRd_edgeOfCommand h hs _

/-- A step of a host that keeps the running command is an edge of it, and the items to come still keep it. -/
theorem step_edgeOfCommand (hk : ∀ x ∈ s.host, keepsCommand x = true) :
    ∃ items, EdgeOfCommand s items (step s) ∧ ∀ x ∈ items, keepsCommand x = true := by
  cases hh : s.host with
  | nil =>
    rw [step_of_nil hh]
    exact ⟨s.host, idleCycle_edgeOfCommand h hs, hk⟩
  | cons item rest =>
    have hitem : keepsCommand item = true := hk item (by simp [hh])
    have hrest : ∀ x ∈ rest, keepsCommand x = true := fun x hx => hk x (by simp [hh, hx])
    have h' := h.with_host rest
    have key : ∀ {items}, EdgeOfCommand { s with host := rest } items (runItem item { s with host := rest }) →
        EdgeOfCommand s items (step s) := by
      rw [step_of_cons hh]
      exact fun ⟨u, ⟨hinv, hseq, heng, haborted⟩, ho⟩ => ⟨u, ⟨hinv, hseq, heng, haborted⟩, ho⟩
    cases item with
    | ports p => exact ⟨rest, key (portCycle_edgeOfCommand h' hs hitem), hrest⟩
    | poll => exact ⟨.poll :: rest, key (pollCycle_edgeOfCommand h' hs), by simpa [hh] using hk⟩
    | word w =>
      cases w with
      | cmd8 d => exact ⟨rest, key (cmd8_edgeOfCommand h' hs d), hrest⟩
      | busop24 w => exact ⟨rest, key (busop24_edgeOfCommand h' hs hitem), hrest⟩

end

/-! ## The commit of a running command, whatever the host does (R117) -/

/-- A run from `s` reaches the commit of command `c`, which runs until then. -/
def ReachesCommit (c : Command) (s : State) : Prop :=
  ∃ k t, run k s = some t ∧ t.seq = .idle ∧ t.done = true ∧ t.events.getLast? = some (.cmdDone c) ∧
    (t.aborted = true → s.aborted = true) ∧ ∀ j u, j < k → run j s = some u → ∃ ph, u.seq = .run c ph

/-- With `BUSY` = 1 a run has not ended (00_scope.md R15). -/
theorem run_succ_of_busy {s t : State} (hb : s.busy = true) (hstep : step s = .next t) (k : Nat) :
    run (k + 1) s = run k t := by
  simp [run, runEnded, hb, hstep]

theorem done_of_statusCommit {s t : State} (h : t.status = statusCommit s.status) : t.done = true := by
  rw [State.done, h, getLsbD_statusCommit]
  rfl

theorem aborted_of_statusCommit {s t : State} (h : t.status = statusCommit s.status) : t.aborted = s.aborted := by
  rw [State.aborted, h, getLsbD_statusCommit_of_two_le (by decide)]
  rfl

/-- A step that is the commit. -/
theorem ReachesCommit.of_commit {c : Command} {ph : Phase} {s u t : State} (hb : s.busy = true)
    (hs : s.seq = .run c ph) (hstep : step s = .next t) (hseq : t.seq = .idle)
    (hstatus : t.status = statusCommit u.status)
    (hlast : t.events.getLast? = some (.cmdDone c)) (haborted : u.aborted = true → s.aborted = true) :
    ReachesCommit c s := by
  refine ⟨1, t, run_succ_of_busy hb hstep 0, hseq, done_of_statusCommit hstatus, hlast, ?_, fun j v hj hv => ?_⟩
  · rwa [aborted_of_statusCommit hstatus]
  · obtain rfl : j = 0 := by omega
    cases hv
    exact ⟨ph, hs⟩

/-- A step after which the command still runs. -/
theorem ReachesCommit.of_step {c : Command} {ph : Phase} {s t : State} (hb : s.busy = true)
    (hs : s.seq = .run c ph) (hstep : step s = .next t) (haborted : t.aborted = true → s.aborted = true)
    (ht : ReachesCommit c t) : ReachesCommit c s := by
  obtain ⟨k, v, hrun, hseq, hdone, hlast, hab, hall⟩ := ht
  refine ⟨k + 1, v, (run_succ_of_busy hb hstep k).trans hrun, hseq, hdone, hlast, haborted ∘ hab, fun j u hj hu => ?_⟩
  cases j with
  | zero =>
    cases hu
    exact ⟨ph, hs⟩
  | succ j => exact hall j u (by omega) ((run_succ_of_busy hb hstep j).symm.trans hu)

/-- Each step of a host that keeps a running command is the command's commit or leaves less of it. -/
theorem reachesCommit_of_running {s : State} {c : Command} {ph : Phase} (h : Inv s) (hseq : s.seq = .run c ph)
    (hk : ∀ x ∈ s.host, keepsCommand x = true) : ReachesCommit c s := by
  induction s using left_wf.induction generalizing ph with | _ s ih
  have hs : s.seq ≠ .idle := by simp [hseq]
  have hb := h.busy_of_running hs
  obtain ⟨items, ⟨u, hu, hstep⟩, hitems⟩ := step_edgeOfCommand h hs hk
  rcases tick_running hu.inv (hu.seq.trans hseq) with ⟨v, ⟨-, hst, -⟩, hv⟩ | ⟨⟨⟨-, hst, -⟩, ph', hph'⟩, hlt⟩
  · have hlast : (commit c v).events.getLast? = some (.cmdDone c) := by simp
    rw [hv] at hstep
    exact .of_commit hb hseq hstep (commit_seq c v) ((commit_status c v).trans (congrArg _ hst)) hlast hu.aborted
  · have haborted : (tick u).aborted = true → s.aborted = true := fun hab => hu.aborted (by rwa [State.aborted, ← hst])
    rw [hu.left] at hlt
    exact .of_step hb hseq hstep haborted (ih _ hlt ((tick_inv hu.inv).with_host items) hph' hitems)

/-- Settles O45: every edge of the command but its commit leaves less of it, with host accesses and without. -/
theorem runningCommandReachesItsCommit : Obligations.RunningCommandReachesItsCommit := by
  intro s c ph h hseq
  have hs : s.seq ≠ .idle := by simp [hseq]
  refine ⟨?_, fun hk => reachesCommit_of_running h hseq hk⟩
  obtain ⟨k, hidle, hstatus⟩ := ticks_reach_commit h hs
  exact ⟨k, hidle, done_of_statusCommit hstatus, aborted_of_statusCommit hstatus⟩

end Sys2Proof.Machine

/-! # Proofs of the statements of 70_reset_and_hazards.md

The host's duty at a `CTRL` write, and a cycle in reset. -/

namespace Sys2Proof.Machine

/-! ## A `CTRL` write that keeps the host's duty (R135) -/

/-- Settles O52: SCLK is at rest at the old `CPOL`, so that it moves only where the duty has `NCS` high and writes
`CS_ASSERT` = 0, with which `NCS` rests high. -/
theorem safeCtrlWriteGivesNoClockEdge : Obligations.SafeCtrlWriteGivesNoClockEdge := by
  intro s d h hs hsafe
  obtain ⟨⟨hsclk, -, -⟩, hb, -⟩ := Inv.rest_of hs h
  refine ⟨_, ctrlWriteStoresOrAborts.1 s d hs hb, rfl, fun hmoves => ?_⟩
  obtain ⟨hcpol, -⟩ | ⟨hncs, hassert⟩ := hsafe
  · exact absurd (hcpol.trans hsclk.symm) hmoves
  · exact ⟨hncs, by simp only [hassert, Bool.not_false, ite_self]⟩

/-! ## A cycle in reset (R125, R126) -/

/-- With at most one strobe a port cycle with `rst_n` = 0 is the reset edge and its access. -/
theorem portCycle_inReset {p : PortCycle} (hp : ¬(p.re = true ∧ p.we = true)) (hrst : p.rstN = false) (s : State) :
    portCycle p s = .next (resetAccess p (resetEdge s)) := by
  simp [portCycle, hp, hrst]

/-- A host access in reset drives the read port to 0x00 if it is a read, and else is only recorded. -/
theorem resetAccess_eq (p : PortCycle) (s : State) : resetAccess p s = { s with
    busRdata := if p.re then 0x00#8 else s.busRdata, events := (resetAccess p s).events } := by
  unfold resetAccess
  split
  · rfl
  · split <;> rfl

/-- Settles O46: but for the read port and the history the state after the cycle is that of `State.reset`, with the
inputs to come and the counters of free values as they were. -/
theorem resetEdgeGivesTheResetValues : Obligations.ResetEdgeGivesTheResetValues := by
  intro s re we a d rest hstrobes hhost
  refine ⟨_, (step_of_cons hhost).trans (portCycle_inReset hstrobes rfl _), ?_⟩
  rw [resetAccess_eq]
  exact ⟨rfl, rfl, rfl, rfl, rfl, rfl, rfl, rfl, rfl, rfl, rfl, rfl, rfl, rfl, rfl, rfl, rfl, rfl, fun _ => rfl,
    fun hre => if_pos hre, rfl⟩

end Sys2Proof.Machine
